-- ==== Sys2Proof/Word.lean ====
section
/-! DEFINITION. The words, encodings and sample values that every other file speaks of. -/

namespace Sys2Proof

/-- One byte of LMEM (20_memory.md R63). -/
abbrev Byte := BitVec 8

/-- A `u32`: a register, an argument or an INFO value (00_scope.md R8). -/
abbrev Word := BitVec 32

/-- The encoding of one F value: binary64 in all 64 bits, binary32 in the low 32 with zeros above
(00_scope.md R5). -/
abbrev Enc := BitVec 64

/-- The sample precision `F` (00_scope.md R5). -/
inductive Precision where
  | f32
  | f64
deriving DecidableEq, Repr

/-- An F value. `mag` is the encoding without its sign bit, so finite values of one sign are ordered
by `mag`, and a finite value has one representation. A NaN keeps its whole encoding, which no
arithmetic looks at (92_eei_decisions.md D3). -/
inductive Fp where
  | fin (neg : Bool) (mag : Nat)
  | inf (neg : Bool)
  | nan (bits : Enc)
deriving DecidableEq, Repr

/-- A complex F sample (00_scope.md R11). -/
structure Cx where
  re : Fp
  im : Fp
deriving DecidableEq, Repr

end Sys2Proof
end

