-- ==== Sys2Proof/Syntax.lean ====
section
/-! DEFINITION. The commands: one constructor for each row of spec/opcode_table.json (30_encoding.md R84). -/

namespace Sys2Proof

/-- A ring's element kind, RING_NEW's FL bit (40_ring.md R101). -/
inductive RingKind where
  | complex
  | byte
deriving DecidableEq, Repr

/-- A command. `r` is the RS field (30_encoding.md R81); the Bool and kind arguments are the FL field
(R82). All other operands come from the argument registers (R85). -/
inductive Instr where
  | ringNew (r : Fin 16) (kind : RingKind)
  | ringSize (r : Fin 16)
  | ringAt (r : Fin 16)
  | ringPush1 (r : Fin 16)
  | ringPushN (r : Fin 16)
  | ringRead (r : Fin 16)
  | fft
  | ifft
  | ofdmTx
  | ofdmRx
  | qamEnc
  | qamDecHard
  | qamDecSoft
  | qamLlr
  | awgnInit (seedGiven : Bool)
  | awgnSnr
  | awgnApply (unitPower : Bool)
deriving DecidableEq, Repr

end Sys2Proof
end

