-- ==== Sys2Proof/WellFormed.lean ====
section
/-! DEFINITION. What a command must satisfy beyond its syntax to be legal on a build. -/

namespace Sys2Proof

/-- A ring command names one of the `numRings` descriptors (30_encoding.md R81, R87 item 4). -/
def Instr.wf (numRings : Nat) : Instr → Bool
  | .ringNew r _ => decide (r.val < numRings)
  | .ringSize r => decide (r.val < numRings)
  | .ringAt r => decide (r.val < numRings)
  | .ringPush1 r => decide (r.val < numRings)
  | .ringPushN r => decide (r.val < numRings)
  | .ringRead r => decide (r.val < numRings)
  | .fft => true
  | .ifft => true
  | .ofdmTx => true
  | .ofdmRx => true
  | .qamEnc => true
  | .qamDecHard => true
  | .qamDecSoft => true
  | .qamLlr => true
  | .awgnInit _ => true
  | .awgnSnr => true
  | .awgnApply _ => true

end Sys2Proof
end

