-- ==== Sys2Proof/Decode.lean ====
section
/-! DEFINITION. Decoding and encoding of the 32-bit command word (30_encoding.md R80 to R89). -/

namespace Sys2Proof

/-- `OPC = c[7:0]` (R80). -/
def opcField (c : Word) : Nat := c.toNat % 2 ^ 8

/-- `RS = c[11:8]` (R80). -/
def rsField (c : Word) : Fin 16 := Fin.ofNat 16 (c.toNat / 2 ^ 8)

/-- `FL = c[12]` (R80). -/
def flField (c : Word) : Bool := c.toNat / 2 ^ 12 % 2 = 1

/-- `RSV = c[31:13]` (R80). -/
def rsvField (c : Word) : Nat := c.toNat / 2 ^ 13

/-- Why a word is no command (R87 items 1 to 4; item 4's NUM_RINGS bound is `Instr.wf`). -/
inductive Reject where
  /-- Item 1: a bit of RSV is set. -/
  | reservedBits
  /-- Item 2: OPC is none of the 17 values. -/
  | unlistedOpcode
  /-- Item 3: FL is set on a command that takes none. -/
  | flagSet
  /-- Item 4: RS is not 0 on a command that takes no ring. -/
  | ringSet
deriving DecidableEq, Repr

/-- The FL bit as RING_NEW reads it (R82). -/
def kindOfFlag (fl : Bool) : RingKind := if fl then .byte else .complex

/-- How a row of the opcode table uses RS and FL. -/
inductive Shape where
  /-- RS and FL both used: RING_NEW. -/
  | ringFlag (mk : Fin 16 → Bool → Instr)
  /-- RS used, FL 0. -/
  | ring (mk : Fin 16 → Instr)
  /-- FL used, RS 0. -/
  | flag (mk : Bool → Instr)
  /-- Neither used. -/
  | plain (i : Instr)

/-- The opcode map (R84). -/
def shapeOf : Nat → Option Shape
  | 0x01 => some (.ringFlag fun r fl => .ringNew r (kindOfFlag fl))
  | 0x02 => some (.ring .ringSize)
  | 0x03 => some (.ring .ringAt)
  | 0x04 => some (.ring .ringPush1)
  | 0x05 => some (.ring .ringPushN)
  | 0x06 => some (.ring .ringRead)
  | 0x10 => some (.plain .fft)
  | 0x11 => some (.plain .ifft)
  | 0x20 => some (.plain .ofdmTx)
  | 0x21 => some (.plain .ofdmRx)
  | 0x30 => some (.plain .qamEnc)
  | 0x31 => some (.plain .qamDecHard)
  | 0x32 => some (.plain .qamDecSoft)
  | 0x33 => some (.plain .qamLlr)
  | 0x40 => some (.flag .awgnInit)
  | 0x41 => some (.plain .awgnSnr)
  | 0x42 => some (.flag .awgnApply)
  | _ => none

/-- A row's command from the RS and FL fields, or why they are not allowed (R81, R82, R87). -/
def Shape.fill (rs : Fin 16) (fl : Bool) : Shape → Except Reject Instr
  | .ringFlag mk => .ok (mk rs fl)
  | .ring mk => if fl then .error .flagSet else .ok (mk rs)
  | .flag mk => if rs = 0 then .ok (mk fl) else .error .ringSet
  | .plain i =>
    if fl then .error .flagSet else if rs = 0 then .ok i else .error .ringSet

/-- The command of a word, or why it has none (R86, R87). The NUM_RINGS bound is not looked at here. -/
def decode (c : Word) : Except Reject Instr :=
  if rsvField c ≠ 0 then .error .reservedBits
  else
    match shapeOf (opcField c) with
    | none => .error .unlistedOpcode
    | some sh => sh.fill (rsField c) (flField c)

/-- `legal(c)` of R87 with the command it selects: `none` exactly when `c` is not legal on a build with
`numRings` rings. -/
def decodeLegal (numRings : Nat) (c : Word) : Option Instr :=
  match decode c with
  | .error _ => none
  | .ok i => if i.wf numRings then some i else none

/-- The OPC value of a command (R84). -/
def Instr.opc : Instr → Nat
  | .ringNew _ _ => 0x01
  | .ringSize _ => 0x02
  | .ringAt _ => 0x03
  | .ringPush1 _ => 0x04
  | .ringPushN _ => 0x05
  | .ringRead _ => 0x06
  | .fft => 0x10
  | .ifft => 0x11
  | .ofdmTx => 0x20
  | .ofdmRx => 0x21
  | .qamEnc => 0x30
  | .qamDecHard => 0x31
  | .qamDecSoft => 0x32
  | .qamLlr => 0x33
  | .awgnInit _ => 0x40
  | .awgnSnr => 0x41
  | .awgnApply _ => 0x42

/-- The RS field of a command, 0 where it takes no ring (R81). -/
def Instr.rs : Instr → Fin 16
  | .ringNew r _ => r
  | .ringSize r => r
  | .ringAt r => r
  | .ringPush1 r => r
  | .ringPushN r => r
  | .ringRead r => r
  | .fft => 0
  | .ifft => 0
  | .ofdmTx => 0
  | .ofdmRx => 0
  | .qamEnc => 0
  | .qamDecHard => 0
  | .qamDecSoft => 0
  | .qamLlr => 0
  | .awgnInit _ => 0
  | .awgnSnr => 0
  | .awgnApply _ => 0

/-- The FL field of a command, 0 where it takes no flag (R82). -/
def Instr.fl : Instr → Bool
  | .ringNew _ k => k = .byte
  | .ringSize _ => false
  | .ringAt _ => false
  | .ringPush1 _ => false
  | .ringPushN _ => false
  | .ringRead _ => false
  | .fft => false
  | .ifft => false
  | .ofdmTx => false
  | .ofdmRx => false
  | .qamEnc => false
  | .qamDecHard => false
  | .qamDecSoft => false
  | .qamLlr => false
  | .awgnInit b => b
  | .awgnSnr => false
  | .awgnApply b => b

/-- The command word (R84: `OPC | (FL<<12) | (RS<<8)`). -/
def encode (i : Instr) : Word :=
  BitVec.ofNat 32 (i.opc + i.rs.val * 2 ^ 8 + i.fl.toNat * 2 ^ 12)

/-- The decoder on a row of spec/opcode_table.json: `nbits` bits of `w`, zeros above (R89: every command
is one 32-bit word; log entry 20). -/
def decodeTableWord (nbits w : Nat) : Option Instr :=
  let v := w % 2 ^ nbits
  if v < 2 ^ 32 then
    match decode (BitVec.ofNat 32 v) with
    | .ok i => some i
    | .error _ => none
  else none

end Sys2Proof
end

