-- ==== Sys2Proof/Config.lean ====
section
/-! DEFINITION. The build parameters of 00_scope.md R6 and the free values of 93_implementation_defined.md. -/

namespace Sys2Proof

/-- `w`, the bytes of one F value (00_scope.md R5). -/
def Precision.width : Precision → Nat
  | .f32 => 4
  | .f64 => 8

/-- The parameters of 00_scope.md R6 that are plain data. State carries one `Build`, so a statement
about every state is about every build (log entry 1). -/
structure Build where
  /-- `F`. -/
  precision : Precision
  /-- `MEM_BYTES`. -/
  memBytes : Nat
  /-- `NUM_RINGS`. -/
  numRings : Nat
  /-- `NUM_LANES`, with no observable effect (41_fft.md R137). -/
  numLanes : Nat
  /-- `REG_BASE`, the host-bus address of the register window. -/
  regBase : Nat
  /-- `LMEM_BASE`, the host-bus address of the LMEM window. -/
  lmemBase : Nat
  /-- `TWIDDLE_ROM`, entry `m` at index `m - 1`, each `(c_m, s_m)` by its encodings (41_fft.md R132). -/
  twiddleRom : List (Enc × Enc)
deriving DecidableEq, Repr

/-- The ranges 00_scope.md R6 gives the parameters; the two host windows do not overlap. -/
abbrev Build.Valid (b : Build) : Prop :=
  (2 * b.precision.width ≤ b.memBytes ∧ b.memBytes ≤ 2 ^ 31) ∧
  (1 ≤ b.numRings ∧ b.numRings ≤ 16) ∧
  1 ≤ b.numLanes ∧
  (b.regBase + 64 ≤ b.lmemBase ∨ b.lmemBase + b.memBytes ≤ b.regBase) ∧
  b.twiddleRom.length = 31

/-- FREE VALUE `NAN_BITS` (92_eei_decisions.md D3): draw number `n` of a NaN pattern (log entry 3). -/
opaque Config.nanBits : Nat → Enc

/-- FREE VALUE `ENTROPY_SEED` (D25): draw number `n` of a seed (log entry 6). -/
opaque Config.entropySeed : Nat → Word

/-- FREE VALUE: the byte LMEM holds at an address after reset number `epoch`
(70_reset_and_hazards.md R261; log entry 4). -/
opaque Config.lmemAfterReset : (epoch : Nat) → (addr : Nat) → Byte

/-- FREE VALUE: `awgn.gen` after reset number `epoch` (R261; log entry 5). -/
opaque Config.genAfterReset : (epoch : Nat) → Nat

/-- PARAMETER `HYPOT_F` on encodings (D15), for arguments other than `(1, +0)` (log entry 7). -/
opaque Config.hypot : Precision → Enc → Enc → Enc

/-- PARAMETER `POW10_F` on encodings (D26; log entry 7). -/
opaque Config.pow10 : Precision → Enc → Enc

/-- PARAMETER `AWGN_GEN.seed` (D25), with the generator states numbered (log entry 8). -/
opaque Config.awgnSeed : Word → Nat

/-- PARAMETER `AWGN_GEN.next` (D25; log entry 8). -/
opaque Config.awgnNext : Precision → Nat → Enc × Nat

end Sys2Proof
end

