-- ==== Sys2Proof/Machine/Float.lean ====
section
/-! DEFINITION. F values and the arithmetic primitives of 00_scope.md R10 and R11: IEEE 754 binary32 and
binary64, round to nearest with ties to even, subnormals kept, no fused operations. Every finite value is
a whole number of quanta (the least subnormal), so an operation is computed exactly in quanta and rounded
once (log entries 18, 19). -/

namespace Sys2Proof

/-! ### The two formats -/

/-- Bits of the trailing significand field. -/
def Precision.fracBits : Precision → Nat
  | .f32 => 23
  | .f64 => 52

/-- Bits of an encoding. -/
def Precision.bits (p : Precision) : Nat := 8 * p.width

/-- The weight of the sign bit. -/
def Precision.signWeight (p : Precision) : Nat := 2 ^ (p.bits - 1)

/-- The magnitude of the encoding of infinity: exponent field all ones, fraction 0. -/
def Precision.infMag (p : Precision) : Nat := 2 ^ (p.bits - 1) - 2 ^ p.fracBits

/-- A quantum is `2 ^ (-scale)`, the least subnormal. -/
def Precision.scale : Precision → Nat
  | .f32 => 149
  | .f64 => 1074

/-- The value of a finite magnitude in quanta. -/
def units (p : Precision) (mag : Nat) : Nat :=
  if mag < 2 ^ p.fracBits then mag
  else (2 ^ p.fracBits + mag % 2 ^ p.fracBits) * 2 ^ (mag / 2 ^ p.fracBits - 1)

/-! ### Encodings -/

/-- The encoding with the given sign and magnitude. -/
def signedBits (p : Precision) (neg : Bool) (mag : Nat) : Nat :=
  (if neg then p.signWeight else 0) + mag

/-- `bits(v)` of 00_scope.md R13. -/
def Fp.toBits (p : Precision) : Fp → Enc
  | .fin neg mag => BitVec.ofNat 64 (signedBits p neg mag)
  | .inf neg => BitVec.ofNat 64 (signedBits p neg p.infMag)
  | .nan bits => bits

/-- The F value whose bits are the low `8w` bits of `e` (00_scope.md R13, 10_state.md R28). -/
def Fp.ofBits (p : Precision) (e : Nat) : Fp :=
  let v := e % 2 ^ p.bits
  let neg : Bool := p.signWeight ≤ v
  let mag := v % p.signWeight
  if mag < p.infMag then .fin neg mag
  else if mag = p.infMag then .inf neg
  else .nan (BitVec.ofNat 64 v)

/-- `+0`. -/
def Fp.zero : Fp := .fin false 0

/-! ### Draws of NaN patterns -/

/-- A computation that may take free values; the number counts those taken before (log entry 3). -/
abbrev Draw (α : Type) := StateM Nat α

/-- The NaN encoding a free 64-bit value selects; every NaN encoding is selected by some value. -/
def nanPattern (p : Precision) (d : Enc) : Enc :=
  let frac := d.toNat % 2 ^ p.fracBits
  BitVec.ofNat 64 (signedBits p d.msb p.infMag + if frac = 0 then 1 else frac)

/-- Draw a NaN (92_eei_decisions.md D3). -/
def drawNan (p : Precision) : Draw Fp :=
  fun n => (.nan (nanPattern p (Config.nanBits n)), n + 1)

/-- The result of an operation that IEEE 754 fixes up to the bits of a NaN, `none`. -/
def settle (p : Precision) : Option Fp → Draw Fp
  | some v => pure v
  | none => drawNan p

/-- Do `f` to each item in order. -/
def Draw.each {α β : Type} (f : α → Draw β) : List α → Draw (List β)
  | [] => pure []
  | a :: as => do
    let b ← f a
    let bs ← Draw.each f as
    pure (b :: bs)

/-! ### Rounding -/

/-- The magnitude nearest `num / den` quanta, ties to even, with no upper bound. -/
def roundMag (p : Precision) (num den : Nat) : Nat :=
  let shift := Nat.log2 (num / den) - p.fracBits
  let step := den * 2 ^ shift
  let keep := num / step
  let rest := num % step
  let up := if step < 2 * rest ∨ (2 * rest = step ∧ keep % 2 = 1) then 1 else 0
  shift * 2 ^ p.fracBits + keep + up

/-- A rounded magnitude with its sign; one that reaches infinity's is infinity. -/
def finish (p : Precision) (neg : Bool) (mag : Nat) : Fp :=
  if mag < p.infMag then .fin neg mag else .inf neg

/-- The floor of the square root of `n`, by its binary digits from `2 ^ (k - 1)` down, given those above. -/
def sqrtDigits (n : Nat) : (k : Nat) → (high : Nat) → Nat
  | 0, r => r
  | k + 1, r => sqrtDigits n k (if (r + 2 ^ k) * (r + 2 ^ k) ≤ n then r + 2 ^ k else r)

/-- The magnitude nearest the square root of `u` quanta, `u > 0`, ties to even. -/
def sqrtMag (p : Precision) (u : Nat) : Nat :=
  let x := u * 2 ^ p.scale
  let shift := Nat.log2 x / 2 - p.fracBits
  let keep := sqrtDigits (x / 2 ^ (2 * shift)) (p.fracBits + 1) 0
  let mid := (2 * keep + 1) * 2 ^ shift
  let up := if mid * mid < 4 * x ∨ (mid * mid = 4 * x ∧ keep % 2 = 1) then 1 else 0
  shift * 2 ^ p.fracBits + keep + up

/-! ### The operations, up to the bits of a NaN -/

/-- A finite value's quanta with its sign. -/
def signedUnits (p : Precision) (neg : Bool) (mag : Nat) : Int :=
  if neg then -(units p mag : Int) else units p mag

/-- Negation of the sign alone. -/
def Fp.flip (p : Precision) : Fp → Fp
  | .fin neg mag => .fin (!neg) mag
  | .inf neg => .inf (!neg)
  | .nan bits => .nan (bits ^^^ BitVec.ofNat 64 p.signWeight)

def addFp (p : Precision) : Fp → Fp → Option Fp
  | .nan _, _ => none
  | _, .nan _ => none
  | .inf a, .inf b => if a = b then some (.inf a) else none
  | .inf a, .fin _ _ => some (.inf a)
  | .fin _ _, .inf b => some (.inf b)
  | .fin a x, .fin b y =>
    let sum := signedUnits p a x + signedUnits p b y
    if sum = 0 then some (.fin (a && b) 0)
    else some (finish p (decide (sum < 0)) (roundMag p sum.natAbs 1))

def subFp (p : Precision) (x y : Fp) : Option Fp := addFp p x (y.flip p)

def mulFp (p : Precision) : Fp → Fp → Option Fp
  | .nan _, _ => none
  | _, .nan _ => none
  | .inf a, .inf b => some (.inf (a ^^ b))
  | .inf a, .fin b y => if y = 0 then none else some (.inf (a ^^ b))
  | .fin a x, .inf b => if x = 0 then none else some (.inf (a ^^ b))
  | .fin a x, .fin b y =>
    some (finish p (a ^^ b) (roundMag p (units p x * units p y) (2 ^ p.scale)))

def divFp (p : Precision) : Fp → Fp → Option Fp
  | .nan _, _ => none
  | _, .nan _ => none
  | .inf _, .inf _ => none
  | .inf a, .fin b _ => some (.inf (a ^^ b))
  | .fin a _, .inf b => some (.fin (a ^^ b) 0)
  | .fin a x, .fin b y =>
    if y = 0 then (if x = 0 then none else some (.inf (a ^^ b)))
    else some (finish p (a ^^ b) (roundMag p (units p x * 2 ^ p.scale) (units p y)))

def sqrtFp (p : Precision) : Fp → Option Fp
  | .nan _ => none
  | .inf neg => if neg then none else some (.inf false)
  | .fin neg mag =>
    if mag = 0 then some (.fin neg 0)
    else if neg then none
    else some (finish p false (sqrtMag p (units p mag)))

/-! ### The primitives of 00_scope.md R10 -/

def fadd (p : Precision) (x y : Fp) : Draw Fp := settle p (addFp p x y)
def fsub (p : Precision) (x y : Fp) : Draw Fp := settle p (subFp p x y)
def fmul (p : Precision) (x y : Fp) : Draw Fp := settle p (mulFp p x y)
def fdiv (p : Precision) (x y : Fp) : Draw Fp := settle p (divFp p x y)
def fsqrt (p : Precision) (x : Fp) : Draw Fp := settle p (sqrtFp p x)

/-- `fneg`: flips the sign bit, exact. -/
def fneg (p : Precision) (x : Fp) : Fp := x.flip p

/-- A number that orders the non-NaN values: the signed magnitude, so that `-0` and `+0` are equal. -/
def Fp.key (p : Precision) : Fp → Option Int
  | .fin neg mag => some (if neg then -(mag : Int) else mag)
  | .inf neg => some (if neg then -(p.infMag : Int) else p.infMag)
  | .nan _ => none

/-- `flt`: IEEE less-than, false when either operand is NaN. -/
def flt (p : Precision) (x y : Fp) : Bool :=
  match x.key p, y.key p with
  | some a, some b => decide (a < b)
  | _, _ => false

/-- `fgt(a, b) = flt(b, a)`. -/
def fgt (p : Precision) (x y : Fp) : Bool := flt p y x

/-- `F(n)`: the F value nearest the integer `n`, ties to even. -/
def ofInt (p : Precision) (n : Int) : Fp :=
  finish p (decide (n < 0)) (roundMag p (n.natAbs * 2 ^ p.scale) 1)

/-! ### The parameters that are functions (00_scope.md R6) -/

/-- `HYPOT_F`: any total function on F with `HYPOT_F(1, +0) = 1` (92_eei_decisions.md D15). -/
def hypotF (p : Precision) (x y : Fp) : Fp :=
  if x = ofInt p 1 ∧ y = Fp.zero then ofInt p 1
  else Fp.ofBits p (Config.hypot p (x.toBits p) (y.toBits p)).toNat

/-- `POW10_F`: any total function on F (D26). -/
def pow10F (p : Precision) (x : Fp) : Fp :=
  Fp.ofBits p (Config.pow10 p (x.toBits p)).toNat

/-! ### Complex primitives of 00_scope.md R11 -/

/-- `(+0, +0)`. -/
def Cx.zero : Cx := ⟨Fp.zero, Fp.zero⟩

def cadd (p : Precision) (a b : Cx) : Draw Cx := do
  let re ← fadd p a.re b.re
  let im ← fadd p a.im b.im
  pure ⟨re, im⟩

def csub (p : Precision) (a b : Cx) : Draw Cx := do
  let re ← fsub p a.re b.re
  let im ← fsub p a.im b.im
  pure ⟨re, im⟩

/-- `(a.re×b.re − a.im×b.im, a.re×b.im + a.im×b.re)`, each product rounded (92_eei_decisions.md D14). -/
def cmul (p : Precision) (a b : Cx) : Draw Cx := do
  let rr ← fmul p a.re b.re
  let ii ← fmul p a.im b.im
  let re ← fsub p rr ii
  let ri ← fmul p a.re b.im
  let ir ← fmul p a.im b.re
  let im ← fadd p ri ir
  pure ⟨re, im⟩

def cscaleDiv (p : Precision) (a : Cx) (d : Fp) : Draw Cx := do
  let re ← fdiv p a.re d
  let im ← fdiv p a.im d
  pure ⟨re, im⟩

end Sys2Proof
end

