-- ==== Sys2Proof/Machine/Tables.lean ====
section
/-! DEFINITION. The constant tables: the twiddle ROM, the 16-QAM alphabet and its scale factors. -/

namespace Sys2Proof

/-- The correctly rounded TWIDDLE_ROM in binary64, `m = 1 .. 31` (41_fft.md R132; rows 9 to 31 computed
from its formula, log entry 2). -/
def twiddle64 : List (Enc × Enc) :=
  [(0xBFF0000000000000, 0x0000000000000000),
   (0x0000000000000000, 0x3FF0000000000000),
   (0x3FE6A09E667F3BCD, 0x3FE6A09E667F3BCD),
   (0x3FED906BCF328D46, 0x3FD87DE2A6AEA963),
   (0x3FEF6297CFF75CB0, 0x3FC8F8B83C69A60B),
   (0x3FEFD88DA3D12526, 0x3FB917A6BC29B42C),
   (0x3FEFF621E3796D7E, 0x3FA91F65F10DD814),
   (0x3FEFFD886084CD0D, 0x3F992155F7A3667E)] ++
  [(0x3FEFFF62169B92DB, 0x3F8921D1FCDEC784),
   (0x3FEFFFD8858E8A92, 0x3F7921F0FE670071),
   (0x3FEFFFF621621D02, 0x3F6921F8BECCA4BA),
   (0x3FEFFFFD88586EE6, 0x3F5921FAAEE6472E),
   (0x3FEFFFFF62161A34, 0x3F4921FB2AECB360),
   (0x3FEFFFFFD8858675, 0x3F3921FB49EE4EA6),
   (0x3FEFFFFFF621619C, 0x3F2921FB51AEB57C),
   (0x3FEFFFFFFD885867, 0x3F1921FB539ECF31)] ++
  [(0x3FEFFFFFFF62161A, 0x3F0921FB541AD59E),
   (0x3FEFFFFFFFD88586, 0x3EF921FB5439D73A),
   (0x3FEFFFFFFFF62162, 0x3EE921FB544197A1),
   (0x3FEFFFFFFFFD8858, 0x3ED921FB544387BA),
   (0x3FEFFFFFFFFF6216, 0x3EC921FB544403C1),
   (0x3FEFFFFFFFFFD886, 0x3EB921FB544422C2),
   (0x3FEFFFFFFFFFF621, 0x3EA921FB54442A83),
   (0x3FEFFFFFFFFFFD88, 0x3E9921FB54442C73)] ++
  [(0x3FEFFFFFFFFFFF62, 0x3E8921FB54442CEF),
   (0x3FEFFFFFFFFFFFD9, 0x3E7921FB54442D0E),
   (0x3FEFFFFFFFFFFFF6, 0x3E6921FB54442D16),
   (0x3FEFFFFFFFFFFFFE, 0x3E5921FB54442D18),
   (0x3FEFFFFFFFFFFFFF, 0x3E4921FB54442D18),
   (0x3FF0000000000000, 0x3E3921FB54442D18),
   (0x3FF0000000000000, 0x3E2921FB54442D18)]

/-- The correctly rounded TWIDDLE_ROM in binary32, `m = 1 .. 31` (R132). -/
def twiddle32 : List (Enc × Enc) :=
  [(0xBF800000, 0x00000000),
   (0x00000000, 0x3F800000),
   (0x3F3504F3, 0x3F3504F3),
   (0x3F6C835E, 0x3EC3EF15),
   (0x3F7B14BE, 0x3E47C5C2),
   (0x3F7EC46D, 0x3DC8BD36),
   (0x3F7FB10F, 0x3D48FB30),
   (0x3F7FEC43, 0x3CC90AB0)] ++
  [(0x3F7FFB11, 0x3C490E90),
   (0x3F7FFEC4, 0x3BC90F88),
   (0x3F7FFFB1, 0x3B490FC6),
   (0x3F7FFFEC, 0x3AC90FD5),
   (0x3F7FFFFB, 0x3A490FD9),
   (0x3F7FFFFF, 0x39C90FDA),
   (0x3F800000, 0x39490FDB),
   (0x3F800000, 0x38C90FDB)] ++
  [(0x3F800000, 0x38490FDB),
   (0x3F800000, 0x37C90FDB),
   (0x3F800000, 0x37490FDB),
   (0x3F800000, 0x36C90FDB),
   (0x3F800000, 0x36490FDB),
   (0x3F800000, 0x35C90FDB),
   (0x3F800000, 0x35490FDB),
   (0x3F800000, 0x34C90FDB)] ++
  [(0x3F800000, 0x34490FDB),
   (0x3F800000, 0x33C90FDB),
   (0x3F800000, 0x33490FDB),
   (0x3F800000, 0x32C90FDB),
   (0x3F800000, 0x32490FDB),
   (0x3F800000, 0x31C90FDB),
   (0x3F800000, 0x31490FDB)]

/-- The default TWIDDLE_ROM of a precision (R132, 92_eei_decisions.md D12). -/
def twiddleTable : Precision → List (Enc × Enc)
  | .f32 => twiddle32
  | .f64 => twiddle64

/-- `ETA = RN_F(1/√10)` (43_qam16.md R181). -/
def etaBits : Precision → Enc
  | .f32 => 0x3EA1E89B
  | .f64 => 0x3FD43D136248490F

/-- `SQRT10 = RN_F(√10)` (R181). -/
def sqrt10Bits : Precision → Enc
  | .f32 => 0x404A62C2
  | .f64 => 0x40094C583ADA5B53

/-- The coordinate two label bits select: 00 to -3, 01 to -1, 11 to +1, 10 to +3 (R180). -/
def axisOf (twoBits : Nat) : Int :=
  if twoBits = 0 then -3 else if twoBits = 1 then -1 else if twoBits = 2 then 3 else 1

/-- `px_j`, selected by `b3 b2` (R180). -/
def pointX (j : Nat) : Int := axisOf (j / 4 % 4)

/-- `py_j`, selected by `b1 b0` (R180). -/
def pointY (j : Nat) : Int := axisOf (j % 4)

/-- The build of the vectors of 95_test_vectors.md: `MEM_BYTES = 0x10000`, `NUM_RINGS = 4`, the correctly
rounded ROM. The precision is a choice for each vector; the bus placement is the model's (log entry 1). -/
def vectorBuild (p : Precision) : Build where
  precision := p
  memBytes := 0x10000
  numRings := 4
  numLanes := 1
  regBase := 0
  lmemBase := 0x100000
  twiddleRom := twiddleTable p

end Sys2Proof
end

