-- ==== Sys2Proof/Machine/State.lean ====
section
/-! DEFINITION. The state of the block, the reasons a step can stop, and reset (10_state.md,
70_reset_and_hazards.md R260). -/

namespace Sys2Proof.Machine

/-- The outcome codes of STATUS.CODE (60_exceptions.md R230). Their 8-bit values are in Flags.lean. -/
inductive StatusCode where
  | ok
  | badSize
  | outOfRange
  | nearest
  | illegalCmd
  | notInit
  | badAlign
  | badAddr
  | badOverlap
deriving DecidableEq, Repr

/-- The pending command: the word and the argument registers as latched at issue (10_state.md R26, R37). -/
structure Pending where
  c : Word
  a0 : Word
  a1 : Word
  a2 : Word
  a3 : Word
  fargLo : Word
  fargHi : Word
deriving DecidableEq, Repr

/-- One ring descriptor (10_state.md R35). -/
structure Ring where
  valid : Bool
  kind : RingKind
  base : Word
  cap : Word
  cur : Word
deriving DecidableEq, Repr

/-- A descriptor after reset (R35, R260). -/
def Ring.reset : Ring where
  valid := false
  kind := .complex
  base := 0
  cap := 0
  cur := 0

/-- The AWGN state (10_state.md R36). `snr` is the encoding of the linear ratio; `gen` numbers a state of
`G` (log entry 8). -/
structure Awgn where
  valid : Bool
  snr : Enc
  gen : Nat
deriving DecidableEq, Repr

/-- LMEM: the bytes written since reset, addresses strictly rising. A byte not listed holds whatever
reset left there (R261; log entry 4). -/
structure Memory where
  cells : List Host.Cell
deriving DecidableEq, Repr

/-- What the outside does next (log entry 9). -/
inductive Event where
  /-- The outside does nothing, and the engine has the turn (60_exceptions.md R240). -/
  | engine
  /-- A host bus read of `nbytes` bytes at bus address `addr`. -/
  | read (addr nbytes : Nat)
  /-- A host bus write of the low `nbytes` bytes of `data` at bus address `addr`. -/
  | write (addr nbytes : Nat) (data : BitVec 64)
  /-- A reset (70_reset_and_hazards.md R262). -/
  | reset
deriving DecidableEq, Repr

/-- The whole machine. The last four fields are the model's own. -/
structure State where
  /-- The build parameters, constant (00_scope.md R6). CFG, MEMSIZE and TWIDDLE_ROM are views of it. -/
  build : Build
  /-- STATUS.OVR (R23). -/
  ovr : Bool
  /-- STATUS.CODE (R23). -/
  code : StatusCode
  /-- INFO (R24). -/
  info : Word
  /-- RES (R25). -/
  res : Word
  /-- CMD's read value (R26). -/
  cmd : Word
  /-- A0 (SRC) (R27). -/
  a0 : Word
  /-- A1 (DST) (R27). -/
  a1 : Word
  /-- A2 (LEN) (R27). -/
  a2 : Word
  /-- A3 (AUX) (R27). -/
  a3 : Word
  /-- FARG_LO (R28). -/
  fargLo : Word
  /-- FARG_HI (R28). -/
  fargHi : Word
  /-- PAR_THRESH (R29). -/
  parThresh : Word
  /-- The pending command (R37). STATUS.BUSY is that there is one. -/
  pending : Option Pending
  /-- The ring descriptor file, `ring[r]` at index `r` (R35). -/
  rings : List Ring
  /-- The AWGN state (R36). -/
  awgn : Awgn
  /-- LMEM (R33). -/
  lmem : Memory
  /-- MODEL: what the outside does next, in order (log entry 9). -/
  inbox : List Event
  /-- MODEL: what the host's last read returned, zero-extended (log entry 13). -/
  rdata : BitVec 64
  /-- MODEL: how many free values have been drawn (log entry 3). -/
  draws : Nat
  /-- MODEL: how many resets there have been (log entry 4). -/
  epoch : Nat
deriving DecidableEq, Repr

/-- No step of this block faults: every issued command reaches completion with a status code
(60_exceptions.md R249), and 93_implementation_defined.md models no behaviour as stuck. Nobody raises one. -/
inductive Fault where
deriving DecidableEq, Repr

/-- The accesses to which the spec itself gives no step. Each is SAFE: nothing can be proved about what
the hardware does after one. `notModelled` is raised by an arm of exec that has no meaning yet. -/
inductive Refusal where
  /-- An instruction without a meaning; raised by exec's refused arms only. Safe. -/
  | notModelled (mnemonic : String)
  /-- Raised by a host access at a bus address in neither window: "left to the platform" (20_memory.md R66). Safe. -/
  | busOutsideWindows
  /-- Raised by a register access that is not a naturally aligned 32-bit access (10_state.md R20). Safe. -/
  | regAccessShape
  /-- Raised by a host LMEM access that is not 1, 2, 4 or 8 bytes wide, or is misaligned, or reaches outside
  LMEM (20_memory.md R68). Safe. -/
  | lmemAccessShape
  /-- Raised by a host LMEM access while STATUS.BUSY = 1 (20_memory.md R69). Safe. -/
  | lmemWhileBusy
deriving DecidableEq, Repr

/-- The machine of build `b` right after reset number `epoch` (R260, R261). -/
def State.resetOf (b : Build) (epoch : Nat) : State where
  build := b
  ovr := false
  code := .ok
  info := 0
  res := 0
  cmd := 0
  a0 := 0
  a1 := 0
  a2 := 0
  a3 := 0
  fargLo := 0
  fargHi := 0
  parThresh := 1024
  pending := none
  rings := List.replicate b.numRings Ring.reset
  awgn := { valid := false, snr := 0, gen := Config.genAfterReset epoch }
  lmem := { cells := [] }
  inbox := []
  rdata := 0
  draws := 0
  epoch := epoch

/-- The machine right after its first reset, for the f64 build of 95_test_vectors.md (log entry 1). What
holds after reset for every build is stated of `State.resetOf`. -/
def State.reset : State := State.resetOf (vectorBuild .f64) 0

end Sys2Proof.Machine
end

