-- ==== Sys2Proof/Machine/Operands.lean ====
section
/-! DEFINITION. The operands of a command and the regions they name (30_encoding.md R85, 20_memory.md R60 to R66). -/

namespace Sys2Proof.Machine

/-- `F` of this build. -/
abbrev State.prec (s : State) : Precision := s.build.precision

/-- `w` of this build (00_scope.md R5). -/
abbrev State.w (s : State) : Nat := s.build.precision.width

/-- The F operand of the latched FARG registers: binary64 of `FARG_HI ‖ FARG_LO`, or binary32 of FARG_LO
with FARG_HI not read (10_state.md R28). -/
def Pending.farg (p : Precision) (q : Pending) : Fp :=
  match p with
  | .f32 => Fp.ofBits .f32 q.fargLo.toNat
  | .f64 => Fp.ofBits .f64 (q.fargHi.toNat * 2 ^ 32 + q.fargLo.toNat)

/-- An F-typed region may not start at `a` (20_memory.md R64). -/
def State.misaligned (s : State) (a : Word) : Bool := a.toNat % s.w ≠ 0

/-- The region of `n` bytes at `a` is not in range (R65), on unbounded integers. -/
def State.outside (s : State) (a : Word) (n : Nat) : Bool := s.build.memBytes < a.toNat + n

/-- The bytes of `n` complex samples (R62). -/
def State.cxBytes (s : State) (n : Nat) : Nat := 2 * s.w * n

/-- `es`: the bytes of one ring element (40_ring.md R101). -/
def State.elemBytes (s : State) : RingKind → Nat
  | .complex => 2 * s.w
  | .byte => 1

/-- A ring element of this kind may not start at `a` (R64, R101). -/
def State.elemMisaligned (s : State) (k : RingKind) (a : Word) : Bool :=
  match k with
  | .complex => s.misaligned a
  | .byte => false

/-- `isPow2` of 00_scope.md R9. -/
def isPow2 (n : Nat) : Bool := 2 ^ Nat.log2 n = n

end Sys2Proof.Machine
end

