-- ==== Sys2Proof/Machine/Ops.lean ====
section
/-! DEFINITION. The named operations over LMEM, the ring file and a command's completion. -/

namespace Sys2Proof.Machine

/-! ### LMEM as a list of written bytes -/

/-- The byte written last at `a`, if any was since reset. -/
def lookup (a : Nat) : List Host.Cell → Option Byte
  | [] => none
  | (k, b) :: rest => if a = k then some b else lookup a rest

/-- Write one byte, keeping the addresses strictly rising. -/
def insertCell (a : Nat) (b : Byte) : List Host.Cell → List Host.Cell
  | [] => [(a, b)]
  | (k, c) :: rest =>
    if a < k then (a, b) :: (k, c) :: rest
    else if a = k then (a, b) :: rest
    else (k, c) :: insertCell a b rest

def Memory.get? (m : Memory) (a : Nat) : Option Byte := lookup a m.cells

def Memory.put (m : Memory) (a : Nat) (b : Byte) : Memory := ⟨insertCell a b m.cells⟩

/-- Write bytes at rising addresses from `a`. -/
def Memory.putAll (m : Memory) (a : Nat) : List Byte → Memory
  | [] => m
  | b :: bs => Memory.putAll (m.put a b) (a + 1) bs

/-- Addresses strictly rising, all at least `lo`. -/
def risingFrom (lo : Nat) : List Host.Cell → Bool
  | [] => true
  | (k, _) :: rest => decide (lo ≤ k) && risingFrom (k + 1) rest

/-- The canonical form of LMEM. A listed byte is a written one; an unlisted address reads as a free value,
which no listed byte can be shown to equal (log entry 4). -/
def Memory.wf (m : Memory) : Bool := risingFrom 0 m.cells

/-! ### Byte order -/

/-- The `n` low bytes of `v`, least significant first (20_memory.md R61). -/
def bytesLE : (n : Nat) → (v : Nat) → List Byte
  | 0, _ => []
  | n + 1, v => BitVec.ofNat 8 v :: bytesLE n (v / 2 ^ 8)

/-- The unsigned integer of bytes, least significant first (R61). -/
def valueLE : List Byte → Nat
  | [] => 0
  | b :: bs => b.toNat + 2 ^ 8 * valueLE bs

/-! ### Typed accesses (00_scope.md R13) -/

/-- `LoadB`: an address not written since reset holds an unspecified byte (R261; log entry 4). -/
def State.loadB (s : State) (a : Nat) : Byte :=
  match s.lmem.get? a with
  | some b => b
  | none => Config.lmemAfterReset s.epoch a

/-- The `n` bytes from `a`. -/
def State.loadBytes (s : State) (a n : Nat) : List Byte :=
  (List.range n).map fun k => s.loadB (a + k)

/-- `MemRead(a, n)`. -/
def State.memRead (s : State) (a n : Nat) : Nat := valueLE (s.loadBytes a n)

/-- `LoadF`. -/
def State.loadF (s : State) (a : Nat) : Fp := Fp.ofBits s.prec (s.memRead a s.w)

/-- `LoadC`: the real part at `a`, the imaginary part at `a + w` (20_memory.md R62). -/
def State.loadC (s : State) (a : Nat) : Cx := ⟨s.loadF a, s.loadF (a + s.w)⟩

/-- `LoadC(a + 2w·k)` for `k` from 0 to `n - 1`. -/
def State.loadCs (s : State) (a n : Nat) : List Cx :=
  (List.range n).map fun k => s.loadC (a + s.cxBytes k)

/-- Store bytes at rising addresses from `a`: `MemWrite` of their value. -/
def State.storeBytes (s : State) (a : Nat) (bs : List Byte) : State :=
  { s with lmem := s.lmem.putAll a bs }

/-- The bytes `StoreF` writes. -/
def fBytes (p : Precision) (x : Fp) : List Byte := bytesLE p.width (x.toBits p).toNat

/-- The bytes `StoreC` writes. -/
def cBytes (p : Precision) (z : Cx) : List Byte := fBytes p z.re ++ fBytes p z.im

/-- `StoreF(a + w·k, x[k])` for every `k`. -/
def State.storeFs (s : State) (a : Nat) (xs : List Fp) : State :=
  s.storeBytes a (xs.flatMap (fBytes s.prec))

/-- `StoreC(a + 2w·k, z[k])` for every `k`. -/
def State.storeCs (s : State) (a : Nat) (zs : List Cx) : State :=
  s.storeBytes a (zs.flatMap (cBytes s.prec))

/-! ### Free values -/

/-- Run a computation on the state's draw counter. -/
def State.drawing {α : Type} (s : State) (c : Draw α) : α × State :=
  ((c s.draws).1, { s with draws := (c s.draws).2 })

/-! ### Completion: the block's only form of taking an exception (60_exceptions.md R230, R240) -/

/-- What performing a command comes to. -/
inductive Result where
  /-- It reached its end; its LMEM, ring, AWGN and RES writes are in the state. -/
  | done (s : State)
  /-- `raise E(info)` (00_scope.md R14). -/
  | raise (code : StatusCode) (info : Word)

/-- Completion (R240): on success commit, CODE = OK and INFO = 0; on an error the state before the command
with CODE and INFO written (20_memory.md R70). Either way BUSY is cleared. Nothing returns from it (R241). -/
def State.complete (s : State) : Result → State
  | .done t => { t with code := .ok, info := 0, pending := none }
  | .raise e i => { s with code := e, info := i, pending := none }

/-- The engine's step for a command whose effect is `body`. With no pending command the engine is idle and
keeps all state (R240, R248). -/
def State.perform (s : State) (body : Pending → Result) : Host.Outcome State Fault Refusal :=
  match s.pending with
  | none => .next s
  | some q => .next (s.complete (body q))

/-! ### The ring file -/

/-- Do `k` with descriptor `r`. One that is not in the file is named by an illegal word (30_encoding.md
R87 item 4; log entry 17). -/
def State.withRing (s : State) (q : Pending) (r : Fin 16) (k : Ring → Result) : Result :=
  match s.rings[r.val]? with
  | none => .raise .illegalCmd q.c
  | some g => k g

/-- Do `k` with descriptor `r` if it is valid, else `NOT_INIT(r)` (60_exceptions.md R232). -/
def State.withValidRing (s : State) (q : Pending) (r : Fin 16) (k : Ring → Result) : Result :=
  s.withRing q r fun g =>
    if g.valid then k g else .raise .notInit (BitVec.ofNat 32 r.val)

/-- `ring[r] <- g`. -/
def State.setRing (s : State) (r : Fin 16) (g : Ring) : State :=
  { s with rings := s.rings.set r.val g }

/-- The LMEM address of logical element `i`, `base + es*((cur + i) mod C)` (40_ring.md R100). -/
def State.slotAddr (s : State) (g : Ring) (i : Nat) : Nat :=
  g.base.toNat + s.elemBytes g.kind * ((g.cur.toNat + i) % g.cap.toNat)

/-- The descriptor with its cursor moved on by `n` (R106, R107). -/
def Ring.advance (g : Ring) (n : Nat) : Ring :=
  { g with cur := BitVec.ofNat 32 ((g.cur.toNat + n) % g.cap.toNat) }

end Sys2Proof.Machine
end

