-- ==== Sys2Proof/Machine/Awgn.lean ====
section
/-! DEFINITION. The AWGN channel (44_awgn.md R210 to R217). -/

namespace Sys2Proof.Machine

/-- `AWGN_GEN.next` (R211): one sample and the next generator state. -/
def nextNormal (p : Precision) (g : Nat) : Fp × Nat :=
  (Fp.ofBits p (Config.awgnNext p g).1.toNat, (Config.awgnNext p g).2)

/-- The linear SNR of a dB value, `POW10_F(db ÷ F(10))` (R212, R213). -/
def linearSnr (p : Precision) (db : Fp) : Draw Fp := do
  let x ← fdiv p db (ofInt p 10)
  pure (pow10F p x)

/-- The accumulator of `SIGPOW` after the given samples (R214). -/
def sumPower (p : Precision) : (acc : Fp) → List Cx → Draw Fp
  | acc, [] => pure acc
  | acc, z :: zs => do
    let rr ← fmul p z.re z.re
    let ii ← fmul p z.im z.im
    let sq ← fadd p rr ii
    let acc ← fadd p acc sq
    sumPower p acc zs

/-- `SIGPOW(s)` (R214). -/
def sigPow (p : Precision) (zs : List Cx) : Draw Fp := do
  let acc ← sumPower p Fp.zero zs
  fdiv p acc (ofInt p zs.length)

/-- The standard deviation `fsqrt(P_s ÷ (F(2) × snr))` (R215). -/
def noiseStd (p : Precision) (power snr : Fp) : Draw Fp := do
  let twice ← fmul p (ofInt p 2) snr
  let var ← fdiv p power twice
  fsqrt p var

/-- `n` noise samples from generator state `g`, real part drawn first (R216), and the state after them. -/
def noiseSamples (p : Precision) (std : Fp) : (n : Nat) → (g : Nat) → Draw (List Cx × Nat)
  | 0, g => pure ([], g)
  | n + 1, g => do
    let zr := nextNormal p g
    let zi := nextNormal p zr.2
    let re ← fmul p std zr.1
    let im ← fmul p std zi.1
    let rest ← noiseSamples p std n zi.2
    pure (⟨re, im⟩ :: rest.1, rest.2)

/-- What AWGN_APPLY computes from the signal: the new signal, the noise, the generator state (R217). -/
def applyNoise (p : Precision) (unit : Bool) (snr : Fp) (g : Nat) (zs : List Cx) :
    Draw (List Cx × List Cx × Nat) := do
  let power ← if unit then pure (ofInt p 1) else sigPow p zs
  let std ← noiseStd p power snr
  let noise ← noiseSamples p std zs.length g
  let out ← Draw.each (fun zn : Cx × Cx => cadd p zn.1 zn.2) (zs.zip noise.1)
  pure (out, noise.1, noise.2)

/-- The seed of AWGN_INIT: A3 when FL = 1, else a draw of any u32 (R212, D25). -/
def drawSeed (given : Bool) (a3 : Word) : Draw Word :=
  if given then pure a3 else fun n => (Config.entropySeed n, n + 1)

/-- AWGN_INIT (R212). -/
def awgnInitResult (s : State) (seedGiven : Bool) (q : Pending) : Result :=
  let snr := s.drawing (linearSnr s.prec (q.farg s.prec))
  let seed := snr.2.drawing (drawSeed seedGiven q.a3)
  .done { seed.2 with
    awgn := { valid := true, snr := snr.1.toBits s.prec, gen := Config.awgnSeed seed.1 } }

def execAwgnInit (seedGiven : Bool) (s : State) : Host.Outcome State Fault Refusal :=
  s.perform (awgnInitResult s seedGiven)

/-- AWGN_SNR (R213). -/
def awgnSnrResult (s : State) (q : Pending) : Result :=
  if !s.awgn.valid then .raise .notInit 0
  else
    let snr := s.drawing (linearSnr s.prec (q.farg s.prec))
    .done { snr.2 with awgn := { s.awgn with snr := snr.1.toBits s.prec } }

def execAwgnSnr (s : State) : Host.Outcome State Fault Refusal := s.perform (awgnSnrResult s)

/-- Two regions of `n` bytes share a byte (R217). -/
def overlaps (a b n : Nat) : Bool := decide (0 < n) && decide (a < b + n) && decide (b < a + n)

/-- AWGN_APPLY (R217). -/
def awgnApplyResult (s : State) (unit : Bool) (q : Pending) : Result :=
  let l := q.a2.toNat
  if !s.awgn.valid then .raise .notInit 0
  else if s.misaligned q.a0 then .raise .badAlign q.a0
  else if s.misaligned q.a1 then .raise .badAlign q.a1
  else if s.outside q.a0 (s.cxBytes l) then .raise .badAddr q.a0
  else if s.outside q.a1 (s.cxBytes l) then .raise .badAddr q.a1
  else if overlaps q.a0.toNat q.a1.toNat (s.cxBytes l) then .raise .badOverlap q.a1
  else if l = 0 then .done s
  else
    let snr := Fp.ofBits s.prec s.awgn.snr.toNat
    let out := s.drawing (applyNoise s.prec unit snr s.awgn.gen (s.loadCs q.a0.toNat l))
    let t : State := { out.2 with awgn := { s.awgn with gen := out.1.2.2 } }
    .done ((t.storeCs q.a0.toNat out.1.1).storeCs q.a1.toNat out.1.2.1)

def execAwgnApply (unitPower : Bool) (s : State) : Host.Outcome State Fault Refusal :=
  s.perform (awgnApplyResult s unitPower)

end Sys2Proof.Machine
end

