-- ==== Sys2Proof/Machine/Fft.lean ====
section
/-! DEFINITION. The FFT engine and its commands (41_fft.md R130 to R142): bit reversal, twiddle roots,
butterflies, stages. Blocks and lanes have no observable order (R137), so they run one after another. -/

namespace Sys2Proof.Machine

/-- `rev_n(i)`: the low `n` bits of `i` in reverse order (R131). -/
def revBits : (n : Nat) → (i : Nat) → Nat
  | 0, _ => 0
  | n + 1, i => i % 2 * 2 ^ n + revBits n (i / 2)

/-- The result of `BITREV`: element `i` is the old element `rev_n(i)` (R131; log entry 16). -/
def bitrev (buf : List Cx) : List Cx :=
  (List.range buf.length).map fun i => buf.getD (revBits (Nat.log2 buf.length) i) Cx.zero

/-- `TWIDDLE_ROM[m]` of the build (R132, 10_state.md R34). -/
def romEntry (b : Build) (m : Nat) : Cx :=
  let e := b.twiddleRom.getD (m - 1) (0, 0)
  ⟨Fp.ofBits b.precision e.1.toNat, Fp.ofBits b.precision e.2.toNat⟩

/-- `ROOT(m, s)`: the forward root negates the sine (R133). -/
def root (b : Build) (m : Nat) (inverse : Bool) : Cx :=
  let e := romEntry b m
  if inverse then e else ⟨e.re, fneg b.precision e.im⟩

/-- The renormalisation of the twiddle (R134). -/
def renorm (p : Precision) (w : Cx) : Draw Cx := cscaleDiv p w (hypotF p w.re w.im)

/-- The twiddle as step `j` uses it: renormalised at the top of the step when `(j & 31) == 0` (R134, D13). -/
def twiddleAt (p : Precision) (j : Nat) (w : Cx) : Draw Cx :=
  if j % 32 = 0 then renorm p w else pure w

/-- `BUTTERFLY` on `even` and `odd`: both outputs use the same product (R135). -/
def butterfly (p : Precision) (w even odd : Cx) : Draw (Cx × Cx) := do
  let t ← cmul p odd w
  let hi ← cadd p even t
  let lo ← csub p even t
  pure (hi, lo)

/-- Steps `j, j+1, …` of one block, given its even and odd halves from `j` on (R134, R136). -/
def blockSteps (p : Precision) (W : Cx) : (j : Nat) → (w : Cx) → List Cx → List Cx → Draw (List Cx × List Cx)
  | j, w, e :: es, o :: os => do
    let w ← twiddleAt p j w
    let out ← butterfly p w e o
    let next ← cmul p w W
    let rest ← blockSteps p W (j + 1) next es os
    pure (out.1 :: rest.1, out.2 :: rest.2)
  | _, _, _, _ => pure ([], [])

/-- The first `blocks` blocks of a stage, each of length `2 * half` and started from `w = 1` (R134, R136). -/
def stageBlocks (p : Precision) (W : Cx) (half : Nat) : (blocks : Nat) → List Cx → Draw (List Cx)
  | 0, _ => pure []
  | k + 1, buf => do
    let out ← blockSteps p W 0 ⟨ofInt p 1, Fp.zero⟩ (buf.take half) ((buf.drop half).take half)
    let rest ← stageBlocks p W half k (buf.drop (2 * half))
    pure (out.1 ++ out.2 ++ rest)

/-- Stages `m, m+1, …`, as many as `count`: stage `m` has blocks of length `2^m` (R136). -/
def stages (b : Build) (inverse : Bool) : (count : Nat) → (m : Nat) → List Cx → Draw (List Cx)
  | 0, _, buf => pure buf
  | k + 1, m, buf => do
    let buf ← stageBlocks b.precision (root b m inverse) (2 ^ (m - 1)) (buf.length / 2 ^ m) buf
    stages b inverse k (m + 1) buf

/-- `FFT_CORE` (R136); the inverse divides every element by `F(N)` at the end (R138). -/
def fftCore (b : Build) (inverse : Bool) (buf : List Cx) : Draw (List Cx) := do
  let out ← stages b inverse (Nat.log2 buf.length) 1 (bitrev buf)
  if inverse then Draw.each (fun z => cscaleDiv b.precision z (ofInt b.precision buf.length)) out
  else pure out

/-- The in-place transform of the sequence A0, A2 names (R139, R140). -/
def transformResult (s : State) (inverse : Bool) (q : Pending) : Result :=
  let n := q.a2.toNat
  if !isPow2 n then .raise .badSize q.a2
  else if s.misaligned q.a0 then .raise .badAlign q.a0
  else if s.outside q.a0 (s.cxBytes n) then .raise .badAddr q.a0
  else
    let out := s.drawing (fftCore s.build inverse (s.loadCs q.a0.toNat n))
    .done (out.2.storeCs q.a0.toNat out.1)

/-- FFT (R139). -/
def execFft (s : State) : Host.Outcome State Fault Refusal := s.perform (transformResult s false)

/-- IFFT (R140). -/
def execIfft (s : State) : Host.Outcome State Fault Refusal := s.perform (transformResult s true)

end Sys2Proof.Machine
end

