-- ==== Sys2Proof/Machine/Ofdm.lean ====
section
/-! DEFINITION. The OFDM modulator and demodulator (42_ofdm.md R160, R161). -/

namespace Sys2Proof.Machine

/-- The block `y` of a time-domain symbol: its last `l` samples, then the symbol (R160). The zero-filled
buffer the rule names never reaches `y`, as the rule says (log entry 15). -/
def withPrefix (l : Nat) (x : List Cx) : List Cx := x.drop (x.length - l) ++ x

/-- OFDM_TX (R160). -/
def ofdmTxResult (s : State) (q : Pending) : Result :=
  let n := q.a2.toNat
  let l := q.a3.toNat
  if !isPow2 n then .raise .badSize q.a2
  else if n < l then .raise .badSize q.a3
  else if s.misaligned q.a0 then .raise .badAlign q.a0
  else if s.misaligned q.a1 then .raise .badAlign q.a1
  else if s.outside q.a0 (s.cxBytes n) then .raise .badAddr q.a0
  else if s.outside q.a1 (s.cxBytes (n + l)) then .raise .badAddr q.a1
  else
    let out := s.drawing (fftCore s.build true (s.loadCs q.a0.toNat n))
    .done (out.2.storeCs q.a1.toNat (withPrefix l out.1))

def execOfdmTx (s : State) : Host.Outcome State Fault Refusal := s.perform (ofdmTxResult s)

/-- OFDM_RX (R161). -/
def ofdmRxResult (s : State) (q : Pending) : Result :=
  let t := q.a2.toNat
  let l := q.a3.toNat
  let n := t - l
  if t < l ∨ !isPow2 n then .raise .badSize q.a2
  else if s.misaligned q.a0 then .raise .badAlign q.a0
  else if s.misaligned q.a1 then .raise .badAlign q.a1
  else if s.outside q.a0 (s.cxBytes t) then .raise .badAddr q.a0
  else if s.outside q.a1 (s.cxBytes n) then .raise .badAddr q.a1
  else
    let out := s.drawing (fftCore s.build false (s.loadCs (q.a0.toNat + s.cxBytes l) n))
    .done (out.2.storeCs q.a1.toNat out.1)

def execOfdmRx (s : State) : Host.Outcome State Fault Refusal := s.perform (ofdmRxResult s)

end Sys2Proof.Machine
end

