-- ==== Sys2Proof/Machine/Qam.lean ====
section
/-! DEFINITION. The 16-QAM mapper and demappers (43_qam16.md R180 to R191). -/

namespace Sys2Proof.Machine

/-! ### Mapper -/

/-- The labels of bytes: the high nibble, then the low one (R183). -/
def nibbles (bs : List Byte) : List Nat := bs.flatMap fun b => [b.toNat / 2 ^ 4, b.toNat % 2 ^ 4]

/-- The symbol of a label, scaled by ETA (R184). -/
def mapLabel (p : Precision) (j : Nat) : Draw Cx := do
  let eta := Fp.ofBits p (etaBits p).toNat
  let re ← fmul p (ofInt p (pointX j)) eta
  let im ← fmul p (ofInt p (pointY j)) eta
  pure ⟨re, im⟩

/-- QAM_ENC (R184). -/
def qamEncResult (s : State) (q : Pending) : Result :=
  let n := q.a2.toNat
  if s.misaligned q.a1 then .raise .badAlign q.a1
  else if s.outside q.a0 n then .raise .badAddr q.a0
  else if s.outside q.a1 (s.cxBytes (2 * n)) then .raise .badAddr q.a1
  else
    let out := s.drawing (Draw.each (mapLabel s.prec) (nibbles (s.loadBytes q.a0.toNat n)))
    .done (out.2.storeCs q.a1.toNat out.1)

def execQamEnc (s : State) : Host.Outcome State Fault Refusal := s.perform (qamEncResult s)

/-! ### Demapper functions -/

/-- The squared distance of a scaled symbol from a label's point (R185). -/
def distTo (p : Precision) (z : Cx) (j : Nat) : Draw Fp := do
  let dx ← fsub p z.re (ofInt p (pointX j))
  let dy ← fsub p z.im (ofInt p (pointY j))
  let xx ← fmul p dx dx
  let yy ← fmul p dy dy
  fadd p xx yy

/-- `DIST(s)`: the 16 squared distances, by label (R185). -/
def dist (p : Precision) (z : Cx) : Draw (List Fp) := do
  let sqrt10 := Fp.ofBits p (sqrt10Bits p).toNat
  let re ← fmul p z.re sqrt10
  let im ← fmul p z.im sqrt10
  Draw.each (distTo p ⟨re, im⟩) (List.range 16)

/-- The scan of `NEAREST` from label `j` on, with the best distance and label so far (R186). -/
def nearestScan (p : Precision) : (j : Nat) → (best : Fp) → (lab : Option Nat) → List Fp → Option Nat
  | _, _, lab, [] => lab
  | j, best, lab, d :: ds =>
    if flt p d best then nearestScan p (j + 1) d (some j) ds else nearestScan p (j + 1) best lab ds

/-- `NEAREST(s)`: the lowest label at the least distance below infinity, or none (R186). -/
def nearest (p : Precision) (z : Cx) : Draw (Option Nat) := do
  let d ← dist p z
  pure (nearestScan p 0 (.inf false) none d)

/-- The least distance among the labels from `j` on whose bit `k` is `v`, starting from `best` (R188). -/
def minWithBit (p : Precision) (k : Nat) (v : Bool) : (j : Nat) → (best : Fp) → List Fp → Fp
  | _, best, [] => best
  | j, best, d :: ds =>
    minWithBit p k v (j + 1) (if j.testBit k = v ∧ flt p d best then d else best) ds

/-- `LLR_k` of the distances (R188): `(m0 − m1) ÷ v`. -/
def llrBit (p : Precision) (v : Fp) (d : List Fp) (k : Nat) : Draw Fp := do
  let diff ← fsub p (minWithBit p k false 0 (.inf false) d) (minWithBit p k true 0 (.inf false) d)
  fdiv p diff v

/-- `LLR(s, v)`: `LLR_0 .. LLR_3` (R188). -/
def llr (p : Precision) (v : Fp) (z : Cx) : Draw (List Fp) := do
  let d ← dist p z
  Draw.each (llrBit p v d) (List.range 4)

/-- `Σ_k bit_k << k` of the decided bits, `bit_k = 1` exactly when `LLR_k > +0` (R189). -/
def softBits (p : Precision) : List Fp → Nat
  | [] => 0
  | l :: ls => (fgt p l Fp.zero).toNat + 2 * softBits p ls

/-- `SOFTNIB(s, v)` (R190). -/
def softNibble (p : Precision) (v : Fp) (z : Cx) : Draw Nat := do
  let ls ← llr p v z
  pure (softBits p ls)

/-- Labels packed in pairs, the first in the high nibble (R183). -/
def packNibbles : List Nat → List Byte
  | hi :: lo :: rest => BitVec.ofNat 8 (hi * 2 ^ 4 + lo) :: packNibbles rest
  | _ => []

/-! ### Demapper commands -/

/-- QAM_DEC_HARD (R187). A trailing odd symbol is in the region but is not demapped (D50). -/
def qamDecHardResult (s : State) (q : Pending) : Result :=
  let m := q.a2.toNat
  if s.misaligned q.a0 then .raise .badAlign q.a0
  else if s.outside q.a0 (s.cxBytes m) then .raise .badAddr q.a0
  else if s.outside q.a1 (m / 2) then .raise .badAddr q.a1
  else
    let out := s.drawing (Draw.each (nearest s.prec) (s.loadCs q.a0.toNat (2 * (m / 2))))
    match out.1.findIdx? Option.isNone with
    | some i => .raise .nearest (BitVec.ofNat 32 i)
    | none => .done (out.2.storeBytes q.a1.toNat (packNibbles (out.1.map (·.getD 0))))

def execQamDecHard (s : State) : Host.Outcome State Fault Refusal := s.perform (qamDecHardResult s)

/-- QAM_DEC_SOFT (R190). -/
def qamDecSoftResult (s : State) (q : Pending) : Result :=
  let m := q.a2.toNat
  if s.misaligned q.a0 then .raise .badAlign q.a0
  else if s.outside q.a0 (s.cxBytes m) then .raise .badAddr q.a0
  else if s.outside q.a1 (m / 2) then .raise .badAddr q.a1
  else
    let out := s.drawing
      (Draw.each (softNibble s.prec (q.farg s.prec)) (s.loadCs q.a0.toNat (2 * (m / 2))))
    .done (out.2.storeBytes q.a1.toNat (packNibbles out.1))

def execQamDecSoft (s : State) : Host.Outcome State Fault Refusal := s.perform (qamDecSoftResult s)

/-- QAM_LLR (R191): four F values a symbol, `LLR_0` first. -/
def qamLlrResult (s : State) (q : Pending) : Result :=
  let m := q.a2.toNat
  if s.misaligned q.a0 then .raise .badAlign q.a0
  else if s.misaligned q.a1 then .raise .badAlign q.a1
  else if s.outside q.a0 (s.cxBytes m) then .raise .badAddr q.a0
  else if s.outside q.a1 (4 * s.w * m) then .raise .badAddr q.a1
  else
    let out := s.drawing (Draw.each (llr s.prec (q.farg s.prec)) (s.loadCs q.a0.toNat m))
    .done (out.2.storeFs q.a1.toNat out.1.flatten)

def execQamLlr (s : State) : Host.Outcome State Fault Refusal := s.perform (qamLlrResult s)

end Sys2Proof.Machine
end

