-- ==== Sys2Proof/Machine/Ring.lean ====
section
/-! DEFINITION. The ring buffer commands (40_ring.md R103 to R108). -/

namespace Sys2Proof.Machine

/-- RING_NEW (R103): zero the backing region and make the descriptor. -/
def ringNewResult (s : State) (r : Fin 16) (kind : RingKind) (q : Pending) : Result :=
  s.withRing q r fun _ =>
    let n := s.elemBytes kind * q.a2.toNat
    if q.a2 = 0 then .raise .badSize 0
    else if s.elemMisaligned kind q.a0 then .raise .badAlign q.a0
    else if s.outside q.a0 n then .raise .badAddr q.a0
    else .done ((s.storeBytes q.a0.toNat (List.replicate n 0)).setRing r
      { valid := true, kind := kind, base := q.a0, cap := q.a2, cur := 0 })

def execRingNew (r : Fin 16) (kind : RingKind) (s : State) : Host.Outcome State Fault Refusal :=
  s.perform (ringNewResult s r kind)

/-- RING_SIZE (R104): RES takes the capacity. -/
def ringSizeResult (s : State) (r : Fin 16) (q : Pending) : Result :=
  s.withValidRing q r fun g => .done { s with res := g.cap }

def execRingSize (r : Fin 16) (s : State) : Host.Outcome State Fault Refusal :=
  s.perform (ringSizeResult s r)

/-- RING_AT (R105): copy logical element `i` to the destination. -/
def ringAtResult (s : State) (r : Fin 16) (q : Pending) : Result :=
  s.withValidRing q r fun g =>
    let es := s.elemBytes g.kind
    if g.cap.toNat ≤ q.a3.toNat then .raise .outOfRange q.a3
    else if s.elemMisaligned g.kind q.a1 then .raise .badAlign q.a1
    else if s.outside q.a1 es then .raise .badAddr q.a1
    else .done (s.storeBytes q.a1.toNat (s.loadBytes (s.slotAddr g q.a3.toNat) es))

def execRingAt (r : Fin 16) (s : State) : Host.Outcome State Fault Refusal :=
  s.perform (ringAtResult s r)

/-- RING_PUSH1 (R106): write the element at the cursor and move the cursor on by one. -/
def ringPush1Result (s : State) (r : Fin 16) (q : Pending) : Result :=
  s.withValidRing q r fun g =>
    let es := s.elemBytes g.kind
    if s.elemMisaligned g.kind q.a0 then .raise .badAlign q.a0
    else if s.outside q.a0 es then .raise .badAddr q.a0
    else .done ((s.storeBytes (g.base.toNat + es * g.cur.toNat) (s.loadBytes q.a0.toNat es)).setRing r
      (g.advance 1))

def execRingPush1 (r : Fin 16) (s : State) : Host.Outcome State Fault Refusal :=
  s.perform (ringPush1Result s r)

/-- `MemWrite(base + es*((cur + k) mod C), es, e[k])` for each given `k` in turn, the elements `e[k]` taken
from `src` as it stands in `old` (R107, 20_memory.md R67). -/
def State.writeSlots (old : State) (g : Ring) (src : Nat) : List Nat → State → State
  | [], s => s
  | k :: ks, s =>
    let es := old.elemBytes g.kind
    old.writeSlots g src ks (s.storeBytes (old.slotAddr g k) (old.loadBytes (src + es * k) es))

/-- RING_PUSHN (R107): append a range, of which only the last `C` elements are kept. -/
def ringPushNResult (s : State) (r : Fin 16) (q : Pending) : Result :=
  s.withValidRing q r fun g =>
    let len := q.a2.toNat
    let first := len - g.cap.toNat
    if s.elemMisaligned g.kind q.a0 then .raise .badAlign q.a0
    else if s.outside q.a0 (s.elemBytes g.kind * len) then .raise .badAddr q.a0
    else .done ((s.writeSlots g q.a0.toNat (List.range' first (len - first)) s).setRing r
      (g.advance len))

def execRingPushN (r : Fin 16) (s : State) : Host.Outcome State Fault Refusal :=
  s.perform (ringPushNResult s r)

/-- RING_READ (R108): copy the whole logical sequence, oldest first, as one snapshot. -/
def ringReadResult (s : State) (r : Fin 16) (q : Pending) : Result :=
  s.withValidRing q r fun g =>
    let es := s.elemBytes g.kind
    if s.elemMisaligned g.kind q.a1 then .raise .badAlign q.a1
    else if s.outside q.a1 (es * g.cap.toNat) then .raise .badAddr q.a1
    else .done (s.storeBytes q.a1.toNat
      ((List.range g.cap.toNat).flatMap fun i => s.loadBytes (s.slotAddr g i) es))

def execRingRead (r : Fin 16) (s : State) : Host.Outcome State Fault Refusal :=
  s.perform (ringReadResult s r)

end Sys2Proof.Machine
end

