-- ==== Sys2Proof/Machine/Dispatch.lean ====
section
/-! DEFINITION. The meaning of each command (30_encoding.md R84). -/

namespace Sys2Proof.Machine

def exec (i : Instr) (s : State) : Host.Outcome State Fault Refusal :=
  match i with
  | .ringNew r kind => Sys2Proof.Machine.execRingNew r kind s
  | .ringSize r => Sys2Proof.Machine.execRingSize r s
  | .ringAt r => Sys2Proof.Machine.execRingAt r s
  | .ringPush1 r => Sys2Proof.Machine.execRingPush1 r s
  | .ringPushN r => Sys2Proof.Machine.execRingPushN r s
  | .ringRead r => Sys2Proof.Machine.execRingRead r s
  | .fft => Sys2Proof.Machine.execFft s
  | .ifft => Sys2Proof.Machine.execIfft s
  | .ofdmTx => Sys2Proof.Machine.execOfdmTx s
  | .ofdmRx => Sys2Proof.Machine.execOfdmRx s
  | .qamEnc => Sys2Proof.Machine.execQamEnc s
  | .qamDecHard => Sys2Proof.Machine.execQamDecHard s
  | .qamDecSoft => Sys2Proof.Machine.execQamDecSoft s
  | .qamLlr => Sys2Proof.Machine.execQamLlr s
  | .awgnInit seedGiven => Sys2Proof.Machine.execAwgnInit seedGiven s
  | .awgnSnr => Sys2Proof.Machine.execAwgnSnr s
  | .awgnApply unitPower => Sys2Proof.Machine.execAwgnApply unitPower s

end Sys2Proof.Machine
end

