-- ==== Sys2Proof/Machine/Engine.lean ====
section
/-! DEFINITION. The engine's turn (60_exceptions.md R240, 30_encoding.md R86). -/

namespace Sys2Proof.Machine

/-- The engine's turn: perform the pending command, an illegal word completing with ILLEGAL_CMD and
INFO = the word (60_exceptions.md R231); idle when nothing is pending (R248). -/
def State.engineTurn (s : State) : Host.Outcome State Fault Refusal :=
  match s.pending with
  | none => .next s
  | some q =>
    match decodeLegal s.build.numRings q.c with
    | none => .next (s.complete (.raise .illegalCmd q.c))
    | some i => exec i s

/-- The state after a command word is placed so that the very next step performs it, with the argument
registers as they stand (log entry 9): what an idle block's accepted CMD write leaves, with the engine next. -/
def State.placeCommand (s : State) (q : Pending) : State :=
  { s with cmd := q.c, pending := some q, inbox := .engine :: s.inbox }

end Sys2Proof.Machine
end

