-- ==== Sys2Proof/Machine/Flags.lean ====
section
/-! DEFINITION. STATUS and its fields: the block's only flags (10_state.md R23, R32). -/

namespace Sys2Proof.Machine

/-- The 8-bit value of a code (60_exceptions.md R230). -/
def StatusCode.bits : StatusCode → Nat
  | .ok => 0x00
  | .badSize => 0x01
  | .outOfRange => 0x02
  | .nearest => 0x03
  | .illegalCmd => 0x10
  | .notInit => 0x11
  | .badAlign => 0x12
  | .badAddr => 0x13
  | .badOverlap => 0x14

/-- STATUS.BUSY: 1 from issue to completion, while there is a pending command (R23, R37). -/
def State.busy (s : State) : Bool := s.pending.isSome

/-- STATUS as the host reads it: BUSY bit 0, OVR bit 1, CODE bits 15:8, all else 0 (R23). -/
def State.status (s : State) : Word :=
  BitVec.ofNat 32 (s.busy.toNat + 2 * s.ovr.toNat + 2 ^ 8 * s.code.bits)

/-- A host write to STATUS: OVR is write-1-to-clear, every other bit is ignored (R23, R30). -/
def State.writeStatus (s : State) (v : Word) : State :=
  { s with ovr := s.ovr && !v.getLsbD 1 }

end Sys2Proof.Machine
end

