-- ==== Sys2Proof/Machine/Host.lean ====
section
/-! DEFINITION. What the host and the outside can do: bus accesses to the two windows, and reset
(10_state.md R20 to R30, 20_memory.md R68, R69, 70_reset_and_hazards.md R262). -/

namespace Sys2Proof.Machine

/-! ### The register window -/

/-- CFG: FP64 in bit 0, NUM_RINGS in bits 15:8 (10_state.md R21). -/
def State.cfg (s : State) : Word :=
  BitVec.ofNat 32 ((if s.prec = .f64 then 1 else 0) + 2 ^ 8 * (s.build.numRings % 2 ^ 8))

/-- MEMSIZE (R22). -/
def State.memSize (s : State) : Word := BitVec.ofNat 32 s.build.memBytes

/-- A read of the register at an offset; an unmapped one reads 0 (R20, R30). -/
def State.readReg (s : State) (off : Nat) : Word :=
  match off with
  | 0x00 => s.cfg
  | 0x04 => s.memSize
  | 0x08 => s.status
  | 0x0C => s.info
  | 0x10 => s.res
  | 0x14 => s.cmd
  | 0x18 => s.a0
  | 0x1C => s.a1
  | 0x20 => s.a2
  | 0x24 => s.a3
  | 0x28 => s.fargLo
  | 0x2C => s.fargHi
  | 0x30 => s.parThresh
  | _ => 0

/-- The argument registers latched with a command word (R26, R37). -/
def State.latch (s : State) (c : Word) : Pending where
  c := c
  a0 := s.a0
  a1 := s.a1
  a2 := s.a2
  a3 := s.a3
  fargLo := s.fargLo
  fargHi := s.fargHi

/-- A write to CMD: issue when idle, else dropped with OVR set (R26, 60_exceptions.md R242). -/
def State.writeCmd (s : State) (c : Word) : State :=
  if s.busy then { s with ovr := true }
  else { s with cmd := c, pending := some (s.latch c) }

/-- A write of the register at an offset; read-only and unmapped ones ignore it (R30). -/
def State.writeReg (s : State) (off : Nat) (v : Word) : State :=
  match off with
  | 0x08 => s.writeStatus v
  | 0x14 => s.writeCmd v
  | 0x18 => { s with a0 := v }
  | 0x1C => { s with a1 := v }
  | 0x20 => { s with a2 := v }
  | 0x24 => { s with a3 := v }
  | 0x28 => { s with fargLo := v }
  | 0x2C => { s with fargHi := v }
  | 0x30 => { s with parThresh := v }
  | _ => s

/-! ### The host bus -/

/-- Where a bus address falls. -/
inductive Place where
  /-- The register at an offset of the register window. -/
  | reg (off : Nat)
  /-- An LMEM address. -/
  | lmem (addr : Nat)
  /-- In neither window. -/
  | neither
deriving DecidableEq, Repr

/-- The windows of the build: 64 bytes of registers at REG_BASE, LMEM at LMEM_BASE (R20, 20_memory.md R68;
log entry 11). -/
def placeOf (b : Build) (addr : Nat) : Place :=
  if b.regBase ≤ addr ∧ addr < b.regBase + 64 then .reg (addr - b.regBase)
  else if b.lmemBase ≤ addr ∧ addr < b.lmemBase + b.memBytes then .lmem (addr - b.lmemBase)
  else .neither

/-- A register access has a shape the block gives a step: 32 bits, naturally aligned (R20). -/
def regShapeOk (off n : Nat) : Bool := decide (n = 4) && decide (off % 4 = 0)

/-- An LMEM access has a shape the block gives a step: 1, 2, 4 or 8 bytes, naturally aligned, inside LMEM
(20_memory.md R68). -/
def lmemShapeOk (b : Build) (a n : Nat) : Bool :=
  decide (n = 1 ∨ n = 2 ∨ n = 4 ∨ n = 8) && decide (a % n = 0) && decide (a + n ≤ b.memBytes)

/-- A host bus read: the value goes to `rdata`. -/
def State.hostRead (s : State) (addr n : Nat) : Host.Outcome State Fault Refusal :=
  match placeOf s.build addr with
  | .neither => .refused .busOutsideWindows
  | .reg off =>
    if regShapeOk off n then .next { s with rdata := BitVec.ofNat 64 (s.readReg off).toNat }
    else .refused .regAccessShape
  | .lmem a =>
    if !lmemShapeOk s.build a n then .refused .lmemAccessShape
    else if s.busy then .refused .lmemWhileBusy
    else .next { s with rdata := BitVec.ofNat 64 (s.memRead a n) }

/-- A host bus write of the low `n` bytes of `data`. -/
def State.hostWrite (s : State) (addr n : Nat) (data : BitVec 64) : Host.Outcome State Fault Refusal :=
  match placeOf s.build addr with
  | .neither => .refused .busOutsideWindows
  | .reg off =>
    if regShapeOk off n then .next (s.writeReg off (BitVec.ofNat 32 data.toNat))
    else .refused .regAccessShape
  | .lmem a =>
    if !lmemShapeOk s.build a n then .refused .lmemAccessShape
    else if s.busy then .refused .lmemWhileBusy
    else .next (s.storeBytes a (bytesLE n data.toNat))

/-! ### Reset -/

/-- A reset: every state of the block takes its reset value, the pending command is abandoned, and LMEM
and `awgn.gen` become unspecified anew (70_reset_and_hazards.md R260 to R262). The outside's own data, and
the count of draws, are no state of the block and stay (log entry 14). -/
def State.hostReset (s : State) : State :=
  { State.resetOf s.build (s.epoch + 1) with inbox := s.inbox, rdata := s.rdata, draws := s.draws }

end Sys2Proof.Machine
end

