-- ==== Sys2Proof/Machine/Step.lean ====
section
/-! DEFINITION. One step of the whole machine, and how a command is placed to run next. -/

namespace Sys2Proof.Machine

/-- One step: the next thing the outside does, or the engine's turn (00_scope.md R15, 20_memory.md R71,
70_reset_and_hazards.md R270, R271; log entry 9). -/
def step (s : State) : Host.Outcome State Fault Refusal :=
  match s.inbox with
  | [] => s.engineTurn
  | .engine :: rest => ({ s with inbox := rest }).engineTurn
  | .read addr n :: rest => ({ s with inbox := rest }).hostRead addr n
  | .write addr n data :: rest => ({ s with inbox := rest }).hostWrite addr n data
  | .reset :: rest => .next ({ s with inbox := rest }).hostReset

/-- `s` with the command word `w` accepted and the engine's turn next. -/
def State.withFetchWord (s : State) (nbits w : Nat) : State :=
  s.placeCommand (s.latch (BitVec.ofNat 32 (w % 2 ^ nbits)))

end Sys2Proof.Machine
end

