-- ==== Sys2Proof/Safety.lean ====
section
/-! DEFINITION. The terms the claims are stated in: what a completed, a failed and a legal command are, the
invariant of the machine, and plain readings of the spec's loops to compare the model with. -/

namespace Sys2Proof.Machine

/-! ### Operands and words -/

/-- An F-typed region may start at `a` (20_memory.md R64). -/
abbrev State.Aligned (s : State) (a : Word) : Prop := a.toNat % s.w = 0

/-- The region of `n` bytes at `a` lies in LMEM (R65). -/
abbrev State.InRange (s : State) (a : Word) (n : Nat) : Prop := a.toNat + n ≤ s.build.memBytes

/-- A ring element of this kind may start at `a` (40_ring.md R101). -/
abbrev State.ElemAligned (s : State) (k : RingKind) (a : Word) : Prop := k = .complex → s.Aligned a

/-- `n` is a power of two (00_scope.md R9). -/
def IsPow2 (n : Nat) : Prop := ∃ k, n = 2 ^ k

/-- `legal(c)` as 30_encoding.md R87 lists it, on a build with `n` rings. -/
abbrev LegalWord (n : Nat) (c : Word) : Prop :=
  c.extractLsb 31 13 = 0 ∧
  c.extractLsb 7 0 ∈ ([0x01, 0x02, 0x03, 0x04, 0x05, 0x06, 0x10, 0x11, 0x20, 0x21, 0x30, 0x31, 0x32, 0x33,
    0x40, 0x41, 0x42] : List (BitVec 8)) ∧
  (c.getLsbD 12 = true → c.extractLsb 7 0 ∈ ([0x01, 0x40, 0x42] : List (BitVec 8))) ∧
  (c.extractLsb 11 8 ≠ 0 → c.extractLsb 7 0 ∈ ([0x01, 0x02, 0x03, 0x04, 0x05, 0x06] : List (BitVec 8))) ∧
  (c.extractLsb 7 0 ∈ ([0x01, 0x02, 0x03, 0x04, 0x05, 0x06] : List (BitVec 8)) →
    (c.extractLsb 11 8).toNat < n)

/-! ### Outcomes -/

/-- The engine has the next step, and `rest` is what the outside does after it. -/
abbrev State.EngineNext (s : State) (rest : List Event) : Prop :=
  s.inbox = .engine :: rest ∨ (s.inbox = [] ∧ rest = [])

/-- The state after a command that raised `e` with `info`: CODE and INFO written, BUSY cleared, nothing else
changed (60_exceptions.md R240). -/
def State.failed (s : State) (e : StatusCode) (info : Word) : State :=
  { s with code := e, info := info, pending := none }

/-- LMEM of `t` is that of `s` with the bytes `bs` stored from address `a`: every other byte reads as before. -/
def State.LmemIs (s t : State) (a : Nat) (bs : List Byte) : Prop :=
  ∀ x, t.loadB x = if a ≤ x then bs.getD (x - a) (s.loadB x) else s.loadB x

/-- `i` completes OK from `s`: the next state is `u` with CODE = OK, INFO = 0 and BUSY = 0, and its LMEM is
that of `s` with `bs` stored from `a`. So every field of State that `u` shares with `s` is unchanged. -/
def CompletesWith (i : Instr) (s u : State) (a : Nat) (bs : List Byte) : Prop :=
  ∃ t, exec i s = .next t ∧
    t = { u with code := .ok, info := 0, pending := none, lmem := t.lmem } ∧ s.LmemIs t a bs

/-- Change the state of an outcome. -/
def mapNext (f : State → State) : Host.Outcome State Fault Refusal → Host.Outcome State Fault Refusal
  | .next s => .next (f s)
  | .fault r => .fault r
  | .refused r => .refused r

/-- `s` with the registers the host may write while BUSY, and OVR, taken from `u` (70_reset_and_hazards.md R266). -/
def State.withHostRegs (s u : State) : State :=
  { s with a0 := u.a0, a1 := u.a1, a2 := u.a2, a3 := u.a3, fargLo := u.fargLo, fargHi := u.fargHi,
           parThresh := u.parThresh, ovr := u.ovr }

/-! ### The invariant -/

/-- A descriptor is as RING_NEW and the pushes leave it, or as reset left it (10_state.md R35). -/
abbrev RingOk (s : State) (g : Ring) : Prop :=
  if g.valid then
    1 ≤ g.cap.toNat ∧ g.cur.toNat < g.cap.toNat ∧
      g.base.toNat + s.elemBytes g.kind * g.cap.toNat ≤ s.build.memBytes ∧
      (g.kind = .complex → g.base.toNat % s.w = 0)
  else g = Ring.reset

/-- The invariant of the machine. -/
abbrev State.Inv (s : State) : Prop :=
  /- the build parameters are in their ranges (00_scope.md R6) -/
  s.build.Valid ∧
  /- the ring file has NUM_RINGS good descriptors -/
  s.rings.length = s.build.numRings ∧ (∀ g ∈ s.rings, RingOk s g) ∧
  /- LMEM is in its canonical form and lists only addresses of LMEM (20_memory.md R60) -/
  s.lmem.wf = true ∧ (∀ c ∈ s.lmem.cells, c.1 < s.build.memBytes) ∧
  /- CODE = OK goes with INFO = 0 (10_state.md R24) -/
  (s.code = .ok → s.info = 0) ∧
  /- the pending word is the last accepted one (R26) -/
  (∀ q ∈ s.pending, q.c = s.cmd) ∧
  /- the SNR is +0 until AWGN_INIT (R36) -/
  (s.awgn.valid = false → s.awgn.snr = 0)

/-! ### The ring as a sequence of elements (40_ring.md R100) -/

/-- The logical sequence, oldest first. -/
def State.logical (s : State) (g : Ring) : List (List Byte) :=
  (List.range g.cap.toNat).map fun i =>
    s.loadBytes (g.base.toNat + s.elemBytes g.kind * ((g.cur.toNat + i) % g.cap.toNat)) (s.elemBytes g.kind)

/-- The elements of a range of `n` at `src`. -/
def State.elements (s : State) (k : RingKind) (src n : Nat) : List (List Byte) :=
  (List.range n).map fun i => s.loadBytes (src + s.elemBytes k * i) (s.elemBytes k)

/-- What `push_one(v)` does to LMEM and to descriptor `r`: `v` at `data[cur]`, then `cur = (cur + 1) mod C` (R106). -/
def pushOne (r : Fin 16) (s : State) (v : List Byte) : State :=
  match s.rings[r.val]? with
  | none => s
  | some g =>
    (s.storeBytes (g.base.toNat + s.elemBytes g.kind * g.cur.toNat) v).setRing r
      { g with cur := BitVec.ofNat 32 ((g.cur.toNat + 1) % g.cap.toNat) }

/-! ### The values of F, read from their encodings (IEEE 754, 00_scope.md R5) -/

/-- The exponent bias. -/
def expBias : Precision → Int
  | .f32 => 127
  | .f64 => 1023

/-- The magnitude is that of a finite value: its exponent field is not all ones. -/
abbrev FiniteMag (p : Precision) (mag : Nat) : Prop := mag < p.infMag

/-- The value of a finite magnitude: `1.f × 2^(e − bias)`, or `0.f × 2^(1 − bias)` when the exponent field is 0. -/
def magValue (p : Precision) (mag : Nat) : ℚ :=
  let e : Int := (mag / 2 ^ p.fracBits : Nat)
  let f : ℚ := ((mag % 2 ^ p.fracBits : Nat) : ℚ) / 2 ^ p.fracBits
  if e = 0 then f * (2 : ℚ) ^ (1 - expBias p) else (1 + f) * (2 : ℚ) ^ (e - expBias p)

/-- The value of a finite F value. -/
def finValue (p : Precision) (neg : Bool) (mag : Nat) : ℚ := if neg then -magValue p mag else magValue p mag

/-- From here up in magnitude a real rounds to infinity: half a unit in the last place above the greatest
finite value. -/
def overflowAt (p : Precision) : ℚ :=
  (2 - (1 / 2 : ℚ) ^ (p.fracBits + 1)) * (2 : ℚ) ^ expBias p

/-- `r` is the real `x` rounded to nearest, ties to even, with the sign of `x` where `x` is not 0. -/
def IsRounded (p : Precision) (x : ℝ) (r : Fp) : Prop :=
  if (overflowAt p : ℝ) ≤ |x| then r = .inf (decide (x < 0))
  else ∃ neg mag, r = .fin neg mag ∧ FiniteMag p mag ∧ (x ≠ 0 → (neg = true ↔ x < 0)) ∧
    ∀ neg' mag', FiniteMag p mag' →
      |(finValue p neg mag : ℝ) - x| ≤ |(finValue p neg' mag' : ℝ) - x| ∧
      (|(finValue p neg mag : ℝ) - x| = |(finValue p neg' mag' : ℝ) - x| →
        finValue p neg' mag' ≠ finValue p neg mag → mag % 2 = 0)

/-! ### The complex primitives of 00_scope.md R11, ROOT (41_fft.md R133) and the loops of R131 and R136, as the spec
writes them. Nothing here uses the machine's own complex primitives, roots, butterfly or stages. -/

/-- `(a.re + b.re, a.im + b.im)`. -/
def writtenAdd (p : Precision) (a b : Cx) : Draw Cx := do
  pure ⟨← fadd p a.re b.re, ← fadd p a.im b.im⟩

/-- `(a.re − b.re, a.im − b.im)`. -/
def writtenSub (p : Precision) (a b : Cx) : Draw Cx := do
  pure ⟨← fsub p a.re b.re, ← fsub p a.im b.im⟩

/-- `(a.re×b.re − a.im×b.im, a.re×b.im + a.im×b.re)`. -/
def writtenMul (p : Precision) (a b : Cx) : Draw Cx := do
  pure ⟨← fsub p (← fmul p a.re b.re) (← fmul p a.im b.im), ← fadd p (← fmul p a.re b.im) (← fmul p a.im b.re)⟩

/-- `(a.re ÷ d, a.im ÷ d)`. -/
def writtenDiv (p : Precision) (a : Cx) (d : Fp) : Draw Cx := do
  pure ⟨← fdiv p a.re d, ← fdiv p a.im d⟩

/-- `ROOT(m, s)` (R133) from entry `m` of the ROM: `(c, fneg(sn))` forward, `(c, sn)` inverse. -/
def writtenRoot (b : Build) (m : Nat) (inverse : Bool) : Cx :=
  let entry := b.twiddleRom.getD (m - 1) (0, 0)
  let c := Fp.ofBits b.precision entry.1.toNat
  let sn := Fp.ofBits b.precision entry.2.toNat
  match inverse with
  | false => ⟨c, fneg b.precision sn⟩
  | true => ⟨c, sn⟩

/-- The inner loop of `BITREV`: clear set bits of `j` from `bit` down, then set the first clear one. -/
def bitrevCarry : (fuel : Nat) → (j bit : Nat) → Nat
  | 0, j, bit => j ^^^ bit
  | f + 1, j, bit => if j &&& bit ≠ 0 then bitrevCarry f (j ^^^ bit) (bit / 2) else j ^^^ bit

/-- `swap(buf[i], buf[j])`. -/
def swapAt (buf : List Cx) (i j : Nat) : List Cx :=
  (buf.set i (buf.getD j Cx.zero)).set j (buf.getD i Cx.zero)

/-- `BITREV(buf)` (R131). The inner loop turns at most `log2 N + 1` times. -/
def bitrevLoop (buf : List Cx) : List Cx :=
  ((List.range' 1 (buf.length - 1)).foldl (fun (jb : Nat × List Cx) i =>
    let j := bitrevCarry (Nat.log2 buf.length + 1) jb.1 (buf.length / 2)
    (j, if i < j then swapAt jb.2 i j else jb.2)) (0, buf)).2

/-- One block at `base`: the loop over `j` of R136 with the butterfly of R135 on `buf[base+j]` and
`buf[base+j+half]`. -/
def blockLoop (p : Precision) (W : Cx) (base half : Nat) (buf : List Cx) : Draw (List Cx) := do
  let out ← (List.range half).foldlM (fun (wb : Cx × List Cx) j => do
    let w ← if j % 32 = 0 then writtenDiv p wb.1 (hypotF p wb.1.re wb.1.im) else pure wb.1
    let e := wb.2.getD (base + j) Cx.zero
    let o := wb.2.getD (base + j + half) Cx.zero
    let t ← writtenMul p o w
    let hi ← writtenAdd p e t
    let lo ← writtenSub p e t
    let w' ← writtenMul p w W
    pure (w', (wb.2.set (base + j) hi).set (base + j + half) lo)) (⟨ofInt p 1, Fp.zero⟩, buf)
  pure out.2

/-- `FFT_CORE(buf, s)` (R136). Its blocks may run in any order; ascending order, which fixes the numbers of the NaN
draws, is the model's (log entries 3 and 21). -/
def fftLoop (b : Build) (inverse : Bool) (buf : List Cx) : Draw (List Cx) := do
  let n := buf.length
  let out ← (List.range' 1 (Nat.log2 n)).foldlM (fun buf m =>
    (List.range (n / 2 ^ m)).foldlM (fun buf blk =>
      blockLoop b.precision (writtenRoot b m inverse) (blk * 2 ^ m) (2 ^ m / 2) buf) buf) (bitrevLoop buf)
  if inverse then Draw.each (fun z => writtenDiv b.precision z (ofInt b.precision n)) out
  else pure out

end Sys2Proof.Machine
end

