-- ==== Sys2Proof/Certificates/Slice0/Obligations.lean ====
section
/-! DEFINITION. The statements about the model, each from a numbered rule of spec/. In each, `s` ranges over
every state, so over every build (F = f32 or f64, any MEM_BYTES, any TWIDDLE_ROM). -/

open Sys2Proof Sys2Proof.Machine

/-! ### Encoding (30_encoding.md) -/

/-- R80 to R87: decoding and encoding are inverse to each other, over every word and every command. -/
def Obligations.DecodeAndEncodeAreInverse : Prop :=
  ∀ (c : Word) (i : Instr), decode c = .ok i ↔ encode i = c

/-- R87: the decoder with the build's NUM_RINGS accepts a word exactly when the four conditions hold. -/
def Obligations.LegalWordsAreTheOnesDecoded : Prop :=
  ∀ (n : Nat) (c : Word), (∃ i, decodeLegal n c = some i) ↔ LegalWord n c

/-- R84: the full command words; a word with any other OPC value is no command. -/
def Obligations.CommandWordsOfTheOpcodeMap : Prop :=
  (∀ (r : Fin 16), encode (.ringNew r .complex) = 0x0001 ||| (BitVec.ofNat 32 r.val <<< 8)) ∧
  (∀ (r : Fin 16), encode (.ringNew r .byte) = 0x1001 ||| (BitVec.ofNat 32 r.val <<< 8)) ∧
  (∀ (r : Fin 16), encode (.ringSize r) = 0x0002 ||| (BitVec.ofNat 32 r.val <<< 8)) ∧
  (∀ (r : Fin 16), encode (.ringAt r) = 0x0003 ||| (BitVec.ofNat 32 r.val <<< 8)) ∧
  (∀ (r : Fin 16), encode (.ringPush1 r) = 0x0004 ||| (BitVec.ofNat 32 r.val <<< 8)) ∧
  (∀ (r : Fin 16), encode (.ringPushN r) = 0x0005 ||| (BitVec.ofNat 32 r.val <<< 8)) ∧
  (∀ (r : Fin 16), encode (.ringRead r) = 0x0006 ||| (BitVec.ofNat 32 r.val <<< 8)) ∧
  encode .fft = 0x10 ∧ encode .ifft = 0x11 ∧ encode .ofdmTx = 0x20 ∧ encode .ofdmRx = 0x21 ∧
  encode .qamEnc = 0x30 ∧ encode .qamDecHard = 0x31 ∧ encode .qamDecSoft = 0x32 ∧ encode .qamLlr = 0x33 ∧
  encode (.awgnInit false) = 0x0040 ∧ encode (.awgnInit true) = 0x1040 ∧ encode .awgnSnr = 0x41 ∧
  encode (.awgnApply false) = 0x0042 ∧ encode (.awgnApply true) = 0x1042 ∧
  ∀ c : Word, c.extractLsb 7 0 ∉ ([0x01, 0x02, 0x03, 0x04, 0x05, 0x06, 0x10, 0x11, 0x20, 0x21, 0x30, 0x31, 0x32,
    0x33, 0x40, 0x41, 0x42] : List (BitVec 8)) → ∀ n, decodeLegal n c = none

/-- R84, R87, R88: six command words of 95_test_vectors.md, written out, decode to their commands; one with RS = 5 is
no command with 4 rings; five are rejected by name. -/
def Obligations.WrittenOutWordsDecode : Prop :=
  decode 0x00001001 = .ok (.ringNew 0 .byte) ∧ decode 0x00000502 = .ok (.ringSize 5) ∧
  decode 0x00000010 = .ok .fft ∧ decode 0x00000021 = .ok .ofdmRx ∧ decode 0x00000033 = .ok .qamLlr ∧
  decode 0x00001042 = .ok (.awgnApply true) ∧ decodeLegal 4 0x00000502 = none ∧
  decode 0x00000000 = .error .unlistedOpcode ∧ decode 0x00000012 = .error .unlistedOpcode ∧
  decode 0x00001010 = .error .flagSet ∧ decode 0x00000110 = .error .ringSet ∧
  decode 0x00002001 = .error .reservedBits

/-! ### The step (60_exceptions.md, 70_reset_and_hazards.md) -/

/-- R86, R240: when the engine has the turn and the pending word is the legal word of `i`, the step is `exec i`,
with the event it used up gone; and the word `withFetchWord` places is performed so by the very next step. -/
def Obligations.StepPerformsTheDecodedCommand : Prop :=
  (∀ (s : State) (q : Pending) (rest : List Event) (i : Instr),
    s.EngineNext rest → s.pending = some q → decodeLegal s.build.numRings q.c = some i →
    step s = exec i { s with inbox := rest }) ∧
  (∀ (s : State) (i : Instr), i.wf s.build.numRings = true →
    step (s.withFetchWord 32 (encode i).toNat) =
      exec i { s with cmd := encode i, pending := some (s.latch (encode i)) })

/-- R231: an issued word that is not legal completes with ILLEGAL_CMD and INFO = the word, and has no other
effect. -/
def Obligations.IllegalWordCompletesWithIllegalCmd : Prop :=
  ∀ (s : State) (q : Pending) (rest : List Event),
    s.EngineNext rest → s.pending = some q → ¬ LegalWord s.build.numRings q.c →
    step s = .next (({ s with inbox := rest }).failed .illegalCmd q.c)

/-- R249, R240: every issued command, legal or not, reaches completion in one engine step, and the block then
accepts the next: a CMD write is not dropped. -/
def Obligations.EveryIssuedCommandCompletes : Prop :=
  ∀ (s : State) (q : Pending) (rest : List Event), s.EngineNext rest → s.pending = some q →
    ∃ t, step s = .next t ∧ t.pending = none ∧ t.status.getLsbD 0 = false ∧ t.inbox = rest ∧
      ∀ c : Word, (t.writeCmd c).pending = some (t.latch c)

/-- R248: with no pending command the block keeps all state. -/
def Obligations.IdleEngineKeepsAllState : Prop :=
  ∀ (s : State) (rest : List Event), s.EngineNext rest → s.pending = none →
    step s = .next { s with inbox := rest }

/-- R70: a command that raises an error changes only CODE and INFO (and completes); one that does not
leaves INFO = 0. -/
def Obligations.FailedCommandChangesOnlyCodeAndInfo : Prop :=
  ∀ (i : Instr) (s t : State) (q : Pending), s.pending = some q → exec i s = .next t →
    (t.code ≠ .ok → t = s.failed t.code t.info) ∧ (t.code = .ok → t.info = 0)

/-- R27, 60_exceptions.md R240: no command writes the argument registers, FARG, PAR_THRESH, CMD's read value or
OVR, or anything of the build or of the outside. -/
def Obligations.CommandsLeaveHostRegistersAlone : Prop :=
  ∀ (i : Instr) (s t : State), exec i s = .next t →
    t.build = s.build ∧ t.ovr = s.ovr ∧ t.cmd = s.cmd ∧ t.a0 = s.a0 ∧ t.a1 = s.a1 ∧ t.a2 = s.a2 ∧
    t.a3 = s.a3 ∧ t.fargLo = s.fargLo ∧ t.fargHi = s.fargHi ∧ t.parThresh = s.parThresh ∧
    t.inbox = s.inbox ∧ t.rdata = s.rdata ∧ t.epoch = s.epoch

/-- R39, R75, R210: only the AWGN commands change AWGN state; R103 to R108, R240: only RING_NEW and the pushes change a
ring descriptor, their own one. -/
def Obligations.RingAndAwgnStateAreIndependent : Prop :=
  ∀ (i : Instr) (s t : State), exec i s = .next t →
    (t.awgn ≠ s.awgn → (∃ b, i = .awgnInit b) ∨ i = .awgnSnr ∨ ∃ b, i = .awgnApply b) ∧
    (t.rings ≠ s.rings → ∃ r : Fin 16,
      ((∃ k, i = .ringNew r k) ∨ i = .ringPush1 r ∨ i = .ringPushN r) ∧
      ∀ n, n ≠ r.val → t.rings[n]? = s.rings[n]?)

/-- R25: in a step that is no reset, RES changes only where the engine performs a RING_SIZE that succeeds, and to
the ring's capacity: no host write, no other command and no failed RING_SIZE changes it. -/
def Obligations.ResIsWrittenOnlyByRingSize : Prop :=
  ∀ (s t : State), step s = .next t → t.res ≠ s.res →
    (∃ rest, s.inbox = .reset :: rest) ∨
    ∃ (rest : List Event) (q : Pending) (r : Fin 16) (g : Ring), s.EngineNext rest ∧ s.pending = some q ∧
      decodeLegal s.build.numRings q.c = some (.ringSize r) ∧ s.rings[r.val]? = some g ∧ g.valid = true ∧
      t.code = .ok ∧ t.res = g.cap

/-- R266, R29, R137, R242: what the host writes to the argument registers, PAR_THRESH and OVR while a command is
pending does not affect the command, and such a write leaves the pending command alone. -/
def Obligations.PendingCommandIgnoresLaterRegisterWrites : Prop :=
  (∀ (i : Instr) (s u : State),
    exec i (s.withHostRegs u) = mapNext (fun t => t.withHostRegs u) (exec i s)) ∧
  (∀ (s : State) (addr : Nat) (off : Nat) (data : BitVec 64) (rest : List Event),
    s.inbox = .write addr 4 data :: rest → placeOf s.build addr = .reg off →
    off ∈ [0x18, 0x1C, 0x20, 0x24, 0x28, 0x2C, 0x30] →
    ∃ t u, step s = .next t ∧ t = { s.withHostRegs u with inbox := rest })

/-! ### Reset (70_reset_and_hazards.md) -/

/-- R260: the reset values, on every build of 00_scope.md R6 and after every reset. LMEM and `awgn.gen`, which R260
leaves unspecified, are not in this statement. -/
def Obligations.ResetValues : Prop :=
  ∀ (b : Build) (n : Nat), b.Valid →
    let s := State.resetOf b n
    s.readReg 0x00 = BitVec.ofNat 32 ((if b.precision = .f64 then 1 else 0) + 256 * b.numRings) ∧
    s.readReg 0x04 = BitVec.ofNat 32 b.memBytes ∧ s.readReg 0x08 = 0 ∧ s.readReg 0x0C = 0 ∧
    s.readReg 0x10 = 0 ∧ s.readReg 0x14 = 0 ∧ s.readReg 0x18 = 0 ∧ s.readReg 0x1C = 0 ∧
    s.readReg 0x20 = 0 ∧ s.readReg 0x24 = 0 ∧ s.readReg 0x28 = 0 ∧ s.readReg 0x2C = 0 ∧
    s.readReg 0x30 = 0x400 ∧ s.readReg 0x34 = 0 ∧ s.readReg 0x38 = 0 ∧ s.readReg 0x3C = 0 ∧
    s.code = .ok ∧ s.pending = none ∧ s.rings.length = b.numRings ∧
    (∀ g ∈ s.rings, g = { valid := false, kind := .complex, base := 0, cap := 0, cur := 0 }) ∧
    s.awgn.valid = false ∧ Fp.ofBits b.precision s.awgn.snr.toNat = .fin false 0 ∧ s.build = b

/-- R262, R261: a reset, pending command or not, makes none of the command's effects: every state of the block
takes its reset value, and every byte of LMEM and `awgn.gen` is unspecified anew, the free value of Config of the
next number (log entries 4 and 5). What stays is the model's own data for the outside (log entry 14). -/
def Obligations.ResetAbandonsThePendingCommand : Prop :=
  ∀ (s : State) (rest : List Event), s.inbox = .reset :: rest →
    ∃ t, step s = .next t ∧
      t = { State.resetOf s.build (s.epoch + 1) with inbox := rest, rdata := s.rdata, draws := s.draws } ∧
      (∀ a, t.loadB a = Config.lmemAfterReset (s.epoch + 1) a) ∧
      t.awgn.gen = Config.genAfterReset (s.epoch + 1)

/-! ### The register window (10_state.md) -/

/-- R26: a CMD write issues when idle and is dropped with OVR set when busy; a read of CMD gives the last
accepted word, 0 after reset. -/
def Obligations.CmdWriteIssuesOrIsDropped : Prop :=
  ∀ (s : State) (addr : Nat) (rest : List Event), placeOf s.build addr = .reg 0x14 →
    (∀ data : BitVec 64, s.inbox = .write addr 4 data :: rest →
      (s.pending = none → step s = .next { s with
        inbox := rest, cmd := data.setWidth 32,
        pending := some ⟨data.setWidth 32, s.a0, s.a1, s.a2, s.a3, s.fargLo, s.fargHi⟩ }) ∧
      (∀ q, s.pending = some q → step s = .next { s with inbox := rest, ovr := true })) ∧
    (s.inbox = .read addr 4 :: rest →
      step s = .next { s with inbox := rest, rdata := s.cmd.setWidth 64 }) ∧
    ∀ (b : Build) (n : Nat), (State.resetOf b n).cmd = 0

/-- R23, R230: what a host read of STATUS returns, field by field, and that a write clears OVR when bit 1 is set
and does nothing else. -/
def Obligations.StatusFieldsAndWriteOneToClear : Prop :=
  ∀ (s : State) (addr : Nat) (rest : List Event), placeOf s.build addr = .reg 0x08 →
    (s.inbox = .read addr 4 :: rest → ∃ v : Word,
      step s = .next { s with inbox := rest, rdata := v.setWidth 64 } ∧
      v.getLsbD 0 = s.pending.isSome ∧ v.getLsbD 1 = s.ovr ∧ v.extractLsb 7 2 = 0 ∧
      v.extractLsb 31 16 = 0 ∧
      v.extractLsb 15 8 = (match s.code with
        | .ok => 0x00 | .badSize => 0x01 | .outOfRange => 0x02 | .nearest => 0x03 | .illegalCmd => 0x10
        | .notInit => 0x11 | .badAlign => 0x12 | .badAddr => 0x13 | .badOverlap => 0x14)) ∧
    (∀ data : BitVec 64, s.inbox = .write addr 4 data :: rest →
      step s = .next { s with inbox := rest, ovr := if data.getLsbD 1 then false else s.ovr })

/-- R242, R23: OVR is set by nothing but a CMD write while a command is pending, which changes nothing else; it
is cleared by nothing but a STATUS write with bit 1 set, or a reset. -/
def Obligations.OvrIsSetOnlyByADroppedCommand : Prop :=
  ∀ (s t : State), step s = .next t →
    (s.ovr = false → t.ovr = true → ∃ addr n data rest, s.inbox = .write addr n data :: rest ∧
      placeOf s.build addr = .reg 0x14 ∧ s.pending ≠ none ∧ t = { s with inbox := rest, ovr := true }) ∧
    (s.ovr = true → t.ovr = false → (∃ rest, s.inbox = .reset :: rest) ∨
      ∃ addr n data rest, s.inbox = .write addr n data :: rest ∧ placeOf s.build addr = .reg 0x08 ∧
        data.getLsbD 1 = true)

/-- R23, R24: CODE and INFO change only at a completion, or by a reset. -/
def Obligations.CodeAndInfoChangeOnlyAtCompletion : Prop :=
  ∀ (s t : State), step s = .next t → (t.code ≠ s.code ∨ t.info ≠ s.info) →
    (∃ rest, s.inbox = .reset :: rest) ∨
    (∃ rest, s.EngineNext rest ∧ s.pending ≠ none ∧ t.pending = none)

/-- R20, R24, R25, R27, R28, R29: each argument register, FARG and PAR_THRESH takes what the host writes, busy or not, and reads
back what it holds; no other field changes. `farg` is binary64 of FARG_HI ‖ FARG_LO, or binary32 of FARG_LO. -/
def Obligations.ArgumentRegistersTakeAndReadBack : Prop :=
  ∀ (s : State) (addr : Nat) (rest : List Event) (data : BitVec 64),
    (s.inbox = .write addr 4 data :: rest →
      let v : Word := data.setWidth 32
      (placeOf s.build addr = .reg 0x18 → step s = .next { s with inbox := rest, a0 := v }) ∧
      (placeOf s.build addr = .reg 0x1C → step s = .next { s with inbox := rest, a1 := v }) ∧
      (placeOf s.build addr = .reg 0x20 → step s = .next { s with inbox := rest, a2 := v }) ∧
      (placeOf s.build addr = .reg 0x24 → step s = .next { s with inbox := rest, a3 := v }) ∧
      (placeOf s.build addr = .reg 0x28 → step s = .next { s with inbox := rest, fargLo := v }) ∧
      (placeOf s.build addr = .reg 0x2C → step s = .next { s with inbox := rest, fargHi := v }) ∧
      (placeOf s.build addr = .reg 0x30 → step s = .next { s with inbox := rest, parThresh := v })) ∧
    (s.inbox = .read addr 4 :: rest →
      let reads := fun v : Word => step s = .next { s with inbox := rest, rdata := v.setWidth 64 }
      (placeOf s.build addr = .reg 0x18 → reads s.a0) ∧ (placeOf s.build addr = .reg 0x1C → reads s.a1) ∧
      (placeOf s.build addr = .reg 0x20 → reads s.a2) ∧ (placeOf s.build addr = .reg 0x24 → reads s.a3) ∧
      (placeOf s.build addr = .reg 0x28 → reads s.fargLo) ∧
      (placeOf s.build addr = .reg 0x2C → reads s.fargHi) ∧
      (placeOf s.build addr = .reg 0x30 → reads s.parThresh) ∧
      (placeOf s.build addr = .reg 0x0C → reads s.info) ∧ (placeOf s.build addr = .reg 0x10 → reads s.res)) ∧
    ∀ c : Word, (s.latch c).farg .f64 = Fp.ofBits .f64 (s.fargHi ++ s.fargLo).toNat ∧
      (s.latch c).farg .f32 = Fp.ofBits .f32 s.fargLo.toNat

/-- R30, R21, R22: writes to read-only and unmapped registers are ignored, and unmapped ones read 0. Of STATUS
only OVR is writable. -/
def Obligations.ReadOnlyAndUnmappedWritesAreIgnored : Prop :=
  ∀ (s : State) (addr off : Nat) (rest : List Event), placeOf s.build addr = .reg off →
    (∀ data : BitVec 64, s.inbox = .write addr 4 data :: rest →
      (off ∈ [0x00, 0x04, 0x0C, 0x10, 0x34, 0x38, 0x3C] → step s = .next { s with inbox := rest }) ∧
      (off = 0x08 → ∃ b, step s = .next { s with inbox := rest, ovr := b })) ∧
    (s.inbox = .read addr 4 :: rest → off ∈ [0x34, 0x38, 0x3C] →
      step s = .next { s with inbox := rest, rdata := 0 })

/-- R21, R22: CFG and MEMSIZE report the build, whatever the state, ignore writes, and are constant. -/
def Obligations.CfgAndMemsizeReportTheBuild : Prop :=
  ∀ (s : State) (addr : Nat) (rest : List Event), s.build.Valid →
    (placeOf s.build addr = .reg 0x00 → s.inbox = .read addr 4 :: rest → ∃ v : Word,
      step s = .next { s with inbox := rest, rdata := v.setWidth 64 } ∧
      (v.getLsbD 0 = true ↔ s.build.precision = .f64) ∧ v.extractLsb 7 1 = 0 ∧
      (v.extractLsb 15 8).toNat = s.build.numRings ∧ v.extractLsb 31 16 = 0) ∧
    (placeOf s.build addr = .reg 0x04 → s.inbox = .read addr 4 :: rest → ∃ v : Word,
      step s = .next { s with inbox := rest, rdata := v.setWidth 64 } ∧ v.toNat = s.build.memBytes) ∧
    (placeOf s.build addr = .reg 0x00 ∨ placeOf s.build addr = .reg 0x04 →
      ∀ data : BitVec 64, s.inbox = .write addr 4 data :: rest → step s = .next { s with inbox := rest }) ∧
    ∀ t, step s = .next t → t.readReg 0x00 = s.readReg 0x00 ∧ t.readReg 0x04 = s.readReg 0x04

/-! ### Host accesses to LMEM (20_memory.md) -/

/-- R61, R68: at bus address LMEM_BASE + `a`, a host write stores its bytes least significant first and changes no
other byte; a host read returns the bytes least significant first, zero-extended, and changes nothing. R13, R61 to R63:
so do the loads and stores of commands, over byte, F and complex sequences, the real part of a sample at `a` and the
imaginary part at `a + w`. R5: the F value of an encoding, by the sign, exponent and fraction fields of binary32 and
binary64, and back (the formats are IEEE 754's, log entry 19). -/
def Obligations.HostLmemAccessesAreLittleEndian : Prop :=
  (∀ (s : State) (a n : Nat) (rest : List Event), s.build.Valid →
    n ∈ [1, 2, 4, 8] → a % n = 0 → a + n ≤ s.build.memBytes → s.pending = none →
    (∀ data : BitVec 64, s.inbox = .write (s.build.lmemBase + a) n data :: rest →
      ∃ t, step s = .next t ∧ t = { s with inbox := rest, lmem := t.lmem } ∧
        s.LmemIs t a ((List.range n).map fun k => data.extractLsb' (8 * k) 8)) ∧
    (s.inbox = .read (s.build.lmemBase + a) n :: rest → ∃ v : BitVec 64,
      step s = .next { s with inbox := rest, rdata := v } ∧ v.toNat < 2 ^ (8 * n) ∧
      ∀ k < n, v.extractLsb' (8 * k) 8 = s.loadB (a + k))) ∧
  (∀ (s : State) (a n : Nat),
    let w := match s.prec with | .f32 => 4 | .f64 => 8
    let f := fun x => Fp.ofBits s.prec ((List.range w).map fun j => (s.loadB (x + j)).toNat * 256 ^ j).sum
    s.w = w ∧ s.loadBytes a n = (List.range n).map (fun k => s.loadB (a + k)) ∧ s.loadC a = ⟨f a, f (a + w)⟩ ∧
    s.loadCs a n = (List.range n).map fun k => ⟨f (a + 2 * w * k), f (a + 2 * w * k + w)⟩) ∧
  (∀ (p : Precision) (x : Fp) (z : Cx) (xs : List Fp) (zs : List Cx),
    let w := match p with | .f32 => 4 | .f64 => 8
    let byte := fun (v : Fp) j => (v.toBits p).extractLsb' (8 * j) 8
    fBytes p x = (List.range w).map (byte x) ∧
    cBytes p z = (List.range w).map (byte z.re) ++ (List.range w).map (byte z.im) ∧
    (∀ k v, xs[k]? = some v → ∀ j < w, (xs.flatMap (fBytes p))[w * k + j]? = some (byte v j)) ∧
    ∀ k v, zs[k]? = some v → ∀ j < w, (zs.flatMap (cBytes p))[2 * w * k + j]? = some (byte v.re j) ∧
      (zs.flatMap (cBytes p))[2 * w * k + w + j]? = some (byte v.im j)) ∧
  ∀ (p : Precision) (e : Nat), e < 2 ^ p.bits →
    let expBits : Nat := match p with | .f32 => 8 | .f64 => 11
    let fracBits : Nat := match p with | .f32 => 23 | .f64 => 52
    let bias : Int := match p with | .f32 => 127 | .f64 => 1023
    let frac : Nat := e % 2 ^ fracBits
    let exp : Nat := e / 2 ^ fracBits % 2 ^ expBits
    let neg := e.testBit (expBits + fracBits)
    let f : ℚ := (frac : ℚ) / 2 ^ fracBits
    p.bits = 1 + expBits + fracBits ∧ (Fp.ofBits p e).toBits p = BitVec.ofNat 64 e ∧
    (exp ≠ 2 ^ expBits - 1 → ∃ mag, Fp.ofBits p e = .fin neg mag ∧ FiniteMag p mag ∧ finValue p neg mag =
      (if neg then -1 else 1) *
        (if exp = 0 then f * (2 : ℚ) ^ (1 - bias) else (1 + f) * (2 : ℚ) ^ ((exp : Int) - bias))) ∧
    (exp = 2 ^ expBits - 1 → frac = 0 → Fp.ofBits p e = .inf neg) ∧
    (exp = 2 ^ expBits - 1 → frac ≠ 0 → Fp.ofBits p e = .nan (BitVec.ofNat 64 e))

/-- R69, R68, R20: the accesses the model refuses, by name: an LMEM access of a shape R68 does not give, any LMEM
access while BUSY, a register access that is not 32-bit and aligned, an access in neither window. The windows are
64 bytes from REG_BASE and MEM_BYTES bytes from LMEM_BASE, and no other address is in either. The model's choices are the refusal outside both windows,
which R66 leaves to the platform, and shape before BUSY (log entry 12), and the search for the windows, with alignment
by offset (log entry 11). -/
def Obligations.RefusedHostAccesses : Prop :=
  ∀ (s : State) (addr n : Nat) (rest : List Event) (ev : Event),
    (ev = .read addr n ∨ ∃ data, ev = .write addr n data) → s.inbox = ev :: rest →
    (∀ a, placeOf s.build addr = .lmem a →
      let shaped := n ∈ [1, 2, 4, 8] ∧ a % n = 0 ∧ a + n ≤ s.build.memBytes
      (¬ shaped → step s = .refused .lmemAccessShape) ∧
      (shaped → s.pending ≠ none → step s = .refused .lmemWhileBusy)) ∧
    (∀ off, placeOf s.build addr = .reg off → ¬ (n = 4 ∧ off % 4 = 0) →
      step s = .refused .regAccessShape) ∧
    (placeOf s.build addr = .neither → step s = .refused .busOutsideWindows) ∧
    (∀ off < 64, placeOf s.build (s.build.regBase + off) = .reg off) ∧
    (s.build.Valid → ∀ a < s.build.memBytes, placeOf s.build (s.build.lmemBase + a) = .lmem a) ∧
    ((addr < s.build.regBase ∨ s.build.regBase + 64 ≤ addr) →
      (addr < s.build.lmemBase ∨ s.build.lmemBase + s.build.memBytes ≤ addr) → placeOf s.build addr = .neither)

/-! ### Ring commands (40_ring.md) -/

/-- R103: RING_NEW, its checks in order, and its effect: the backing region zeroed, the descriptor made. An element is
`2w` bytes in a complex ring and 1 byte in a byte ring. -/
def Obligations.RingNewMakesAZeroedRing : Prop :=
  ∀ (s : State) (q : Pending) (r : Fin 16) (kind : RingKind),
    s.pending = some q → r.val < s.rings.length →
    let n := s.elemBytes kind * q.a2.toNat
    s.elemBytes .complex = 2 * s.w ∧ s.elemBytes .byte = 1 ∧
    encode (.ringNew r kind) =
      (if kind = .byte then 0x1001 else 0x0001) ||| (BitVec.ofNat 32 r.val <<< 8) ∧
    (q.a2 = 0 → exec (.ringNew r kind) s = .next (s.failed .badSize 0)) ∧
    (q.a2 ≠ 0 → ¬ s.ElemAligned kind q.a0 →
      exec (.ringNew r kind) s = .next (s.failed .badAlign q.a0)) ∧
    (q.a2 ≠ 0 → s.ElemAligned kind q.a0 → ¬ s.InRange q.a0 n →
      exec (.ringNew r kind) s = .next (s.failed .badAddr q.a0)) ∧
    (q.a2 ≠ 0 → s.ElemAligned kind q.a0 → s.InRange q.a0 n →
      CompletesWith (.ringNew r kind) s
        { s with rings := s.rings.set r.val
                   ⟨true, kind, q.a0, q.a2, 0⟩ }
        q.a0.toNat (List.replicate n 0))

/-- R104: RING_SIZE puts the capacity in RES; NOT_INIT on a ring never created. -/
def Obligations.RingSizeReturnsTheCapacity : Prop :=
  ∀ (s : State) (q : Pending) (r : Fin 16) (g : Ring), s.pending = some q → s.rings[r.val]? = some g →
    encode (.ringSize r) = 0x02 ||| (BitVec.ofNat 32 r.val <<< 8) ∧
    (g.valid = false →
      exec (.ringSize r) s = .next (s.failed .notInit (BitVec.ofNat 32 r.val))) ∧
    (g.valid = true → exec (.ringSize r) s =
      .next { s with res := g.cap, code := .ok, info := 0, pending := none })

/-- R105: RING_AT, its checks in order, and its effect: logical element `i` copied, the ring unchanged. -/
def Obligations.RingAtCopiesTheLogicalElement : Prop :=
  ∀ (s : State) (q : Pending) (r : Fin 16) (g : Ring), s.pending = some q → s.rings[r.val]? = some g →
    let es := s.elemBytes g.kind
    encode (.ringAt r) = 0x03 ||| (BitVec.ofNat 32 r.val <<< 8) ∧
    (g.valid = false → exec (.ringAt r) s = .next (s.failed .notInit (BitVec.ofNat 32 r.val))) ∧
    (g.valid = true → g.cap.toNat ≤ q.a3.toNat →
      exec (.ringAt r) s = .next (s.failed .outOfRange q.a3)) ∧
    (g.valid = true → q.a3.toNat < g.cap.toNat → ¬ s.ElemAligned g.kind q.a1 →
      exec (.ringAt r) s = .next (s.failed .badAlign q.a1)) ∧
    (g.valid = true → q.a3.toNat < g.cap.toNat → s.ElemAligned g.kind q.a1 → ¬ s.InRange q.a1 es →
      exec (.ringAt r) s = .next (s.failed .badAddr q.a1)) ∧
    (g.valid = true → q.a3.toNat < g.cap.toNat → s.ElemAligned g.kind q.a1 → s.InRange q.a1 es →
      CompletesWith (.ringAt r) s s q.a1.toNat
        (s.loadBytes (g.base.toNat + es * ((g.cur.toNat + q.a3.toNat) % g.cap.toNat)) es))

/-- R106: RING_PUSH1, its checks in order, and its effect: the element at `data[cur]`, the cursor moved on. -/
def Obligations.RingPush1WritesAtTheCursor : Prop :=
  ∀ (s : State) (q : Pending) (r : Fin 16) (g : Ring), s.pending = some q → s.rings[r.val]? = some g →
    let es := s.elemBytes g.kind
    encode (.ringPush1 r) = 0x04 ||| (BitVec.ofNat 32 r.val <<< 8) ∧
    (g.valid = false → exec (.ringPush1 r) s = .next (s.failed .notInit (BitVec.ofNat 32 r.val))) ∧
    (g.valid = true → ¬ s.ElemAligned g.kind q.a0 →
      exec (.ringPush1 r) s = .next (s.failed .badAlign q.a0)) ∧
    (g.valid = true → s.ElemAligned g.kind q.a0 → ¬ s.InRange q.a0 es →
      exec (.ringPush1 r) s = .next (s.failed .badAddr q.a0)) ∧
    (g.valid = true → s.ElemAligned g.kind q.a0 → s.InRange q.a0 es →
      CompletesWith (.ringPush1 r) s
        { s with rings := s.rings.set r.val
                   ({ g with cur := BitVec.ofNat 32 ((g.cur.toNat + 1) % g.cap.toNat) }) }
        (g.base.toNat + es * g.cur.toNat) (s.loadBytes q.a0.toNat es))

/-- R107: RING_PUSHN, its checks in order, and its effect: of the range `e[0..L)`, read before any write, element
`k` of the last `C` is at slot `(cur + k) mod C`; no byte outside those slots changes. -/
def Obligations.RingPushNKeepsTheLastElements : Prop :=
  ∀ (s : State) (q : Pending) (r : Fin 16) (g : Ring), s.pending = some q → s.rings[r.val]? = some g →
    let es := s.elemBytes g.kind
    let len := q.a2.toNat
    let slot := fun k => g.base.toNat + es * ((g.cur.toNat + k) % g.cap.toNat)
    encode (.ringPushN r) = 0x05 ||| (BitVec.ofNat 32 r.val <<< 8) ∧
    (g.valid = false → exec (.ringPushN r) s = .next (s.failed .notInit (BitVec.ofNat 32 r.val))) ∧
    (g.valid = true → ¬ s.ElemAligned g.kind q.a0 →
      exec (.ringPushN r) s = .next (s.failed .badAlign q.a0)) ∧
    (g.valid = true → s.ElemAligned g.kind q.a0 → ¬ s.InRange q.a0 (es * len) →
      exec (.ringPushN r) s = .next (s.failed .badAddr q.a0)) ∧
    (g.valid = true → s.ElemAligned g.kind q.a0 → s.InRange q.a0 (es * len) →
      ∃ t, exec (.ringPushN r) s = .next t ∧
        t = { s with code := .ok, info := 0, pending := none, lmem := t.lmem,
                     rings := s.rings.set r.val
                       ({ g with cur := BitVec.ofNat 32 ((g.cur.toNat + len) % g.cap.toNat) }) } ∧
        (∀ k j, len - g.cap.toNat ≤ k → k < len → j < es →
          t.loadB (slot k + j) = s.loadB (q.a0.toNat + es * k + j)) ∧
        (∀ x, (∀ k j, len - g.cap.toNat ≤ k → k < len → j < es → x ≠ slot k + j) →
          t.loadB x = s.loadB x))

/-- R107, R106: RING_PUSHN of a range leaves every byte of LMEM and every descriptor as pushing its elements one
by one does. -/
def Obligations.RingPushNEqualsPushingOneByOne : Prop :=
  ∀ (s t : State) (q : Pending) (r : Fin 16) (g : Ring), s.pending = some q → s.rings[r.val]? = some g →
    g.valid = true → g.cur.toNat < g.cap.toNat → exec (.ringPushN r) s = .next t → t.code = .ok →
    let u := (s.elements g.kind q.a0.toNat q.a2.toNat).foldl (pushOne r) s
    t.rings = u.rings ∧ ∀ x, t.loadB x = u.loadB x

/-- R109, R110 (property P7): after RING_NEW every element is the default; after a push of `L` elements the
logical sequence is the last `C` of the old one followed by the pushed ones, oldest first. -/
def Obligations.RingHoldsTheLastPushedElements : Prop :=
  (∀ (s t : State) (q : Pending) (r : Fin 16) (kind : RingKind), s.pending = some q →
    r.val < s.rings.length → exec (.ringNew r kind) s = .next t → t.code = .ok →
    ∃ g, t.rings[r.val]? = some g ∧
      t.logical g = List.replicate q.a2.toNat (List.replicate (s.elemBytes kind) 0)) ∧
  (∀ (s t : State) (q : Pending) (r : Fin 16) (g : Ring), s.pending = some q →
    s.rings[r.val]? = some g → g.valid = true → g.cur.toNat < g.cap.toNat →
    (exec (.ringPush1 r) s = .next t → t.code = .ok → ∃ g', t.rings[r.val]? = some g' ∧
      t.logical g' = (s.logical g ++ s.elements g.kind q.a0.toNat 1).drop 1) ∧
    (exec (.ringPushN r) s = .next t → t.code = .ok → ∃ g', t.rings[r.val]? = some g' ∧
      t.logical g' = (s.logical g ++ s.elements g.kind q.a0.toNat q.a2.toNat).drop q.a2.toNat))

/-- R108: RING_READ, its checks in order, and its effect: the whole logical sequence, taken as one snapshot. -/
def Obligations.RingReadCopiesTheLogicalSequence : Prop :=
  ∀ (s : State) (q : Pending) (r : Fin 16) (g : Ring), s.pending = some q → s.rings[r.val]? = some g →
    let es := s.elemBytes g.kind
    encode (.ringRead r) = 0x06 ||| (BitVec.ofNat 32 r.val <<< 8) ∧
    (g.valid = false → exec (.ringRead r) s = .next (s.failed .notInit (BitVec.ofNat 32 r.val))) ∧
    (g.valid = true → ¬ s.ElemAligned g.kind q.a1 →
      exec (.ringRead r) s = .next (s.failed .badAlign q.a1)) ∧
    (g.valid = true → s.ElemAligned g.kind q.a1 → ¬ s.InRange q.a1 (es * g.cap.toNat) →
      exec (.ringRead r) s = .next (s.failed .badAddr q.a1)) ∧
    (g.valid = true → s.ElemAligned g.kind q.a1 → s.InRange q.a1 (es * g.cap.toNat) →
      (s.logical g).flatten.length = es * g.cap.toNat ∧
      CompletesWith (.ringRead r) s s q.a1.toNat (s.logical g).flatten)

/-! ### FFT engine (41_fft.md) -/

/-- R139, R233: FFT, its checks in order, and its effect: the region becomes `FFT_CORE(buf, +1)` of what it
held, `N` samples, and nothing else of LMEM changes. -/
def Obligations.FftTransformsItsRegion : Prop :=
  ∀ (s : State) (q : Pending), s.pending = some q →
    let n := q.a2.toNat
    let out := fftCore s.build false (s.loadCs q.a0.toNat n) s.draws
    encode .fft = 0x10 ∧
    (¬ IsPow2 n → exec .fft s = .next (s.failed .badSize q.a2)) ∧
    (IsPow2 n → ¬ s.Aligned q.a0 → exec .fft s = .next (s.failed .badAlign q.a0)) ∧
    (IsPow2 n → s.Aligned q.a0 → ¬ s.InRange q.a0 (2 * s.w * n) →
      exec .fft s = .next (s.failed .badAddr q.a0)) ∧
    (IsPow2 n → s.Aligned q.a0 → s.InRange q.a0 (2 * s.w * n) →
      out.1.length = n ∧
      CompletesWith .fft s { s with draws := out.2 } q.a0.toNat (out.1.flatMap (cBytes s.prec)))

/-- R140, R233: IFFT, as FFT with the scaled inverse transform. -/
def Obligations.IfftTransformsItsRegion : Prop :=
  ∀ (s : State) (q : Pending), s.pending = some q →
    let n := q.a2.toNat
    let out := fftCore s.build true (s.loadCs q.a0.toNat n) s.draws
    encode .ifft = 0x11 ∧
    (¬ IsPow2 n → exec .ifft s = .next (s.failed .badSize q.a2)) ∧
    (IsPow2 n → ¬ s.Aligned q.a0 → exec .ifft s = .next (s.failed .badAlign q.a0)) ∧
    (IsPow2 n → s.Aligned q.a0 → ¬ s.InRange q.a0 (2 * s.w * n) →
      exec .ifft s = .next (s.failed .badAddr q.a0)) ∧
    (IsPow2 n → s.Aligned q.a0 → s.InRange q.a0 (2 * s.w * n) →
      out.1.length = n ∧
      CompletesWith .ifft s { s with draws := out.2 } q.a0.toNat (out.1.flatMap (cBytes s.prec)))

/-- R131: the swapping loop the rule writes out has the result the rule marks as derived,
`buf'[i] = buf[rev_n(i)]`. -/
def Obligations.BitReversalLoopGivesReversedIndexes : Prop :=
  ∀ (k : Nat) (buf : List Cx), buf.length = 2 ^ k →
    bitrevLoop buf = bitrev buf ∧ (bitrev buf).length = 2 ^ k ∧
    ∀ i < 2 ^ k, revBits k i < 2 ^ k ∧ (bitrev buf)[i]? = buf[revBits k i]? ∧
      ∀ j < k, (revBits k i).testBit j = i.testBit (k - 1 - j)

/-- R136 with R131, R133, R134, R135, R138 and 00_scope.md R11: the indexed loops the rules write out, with ROOT and the
complex primitives as the rules expand them (Safety.lean), are the model's transform on every buffer of `2^k` samples,
NaN and infinite ones too. Both sides run the blocks of a stage in ascending order, which fixes the numbers of the NaN
draws: the model's choice, R136 says any order (log entries 3 and 21). R134 with R6: `HYPOT_F(1, +0) = 1`, so the renormalisation at `j = 0`
leaves `w = (1, +0)` and draws nothing. -/
def Obligations.FftCoreFollowsTheWrittenLoops : Prop :=
  (∀ (b : Build) (inverse : Bool) (k : Nat) (buf : List Cx) (n : Nat), buf.length = 2 ^ k →
    fftLoop b inverse buf n = fftCore b inverse buf n) ∧
  (∀ (b : Build) (m : Nat), root b m false = writtenRoot b m false ∧ root b m true = writtenRoot b m true) ∧
  (∀ (p : Precision) (a c : Cx) (d : Fp) (n : Nat), cadd p a c n = writtenAdd p a c n ∧
    csub p a c n = writtenSub p a c n ∧ cmul p a c n = writtenMul p a c n ∧
    cscaleDiv p a d n = writtenDiv p a d n) ∧
  ∀ (p : Precision) (n : Nat),
    let one := ofInt p 1
    hypotF p one Fp.zero = one ∧ writtenDiv p ⟨one, Fp.zero⟩ (hypotF p one Fp.zero) n = (⟨one, Fp.zero⟩, n)

/-- R136: the transform of one sample is the identity, draws nothing forward, and inverse returns a finite
sample unchanged. -/
def Obligations.TransformOfOneSampleIsIdentity : Prop :=
  ∀ (b : Build) (z : Cx) (n : Nat),
    fftCore b false [z] n = ([z], n) ∧
    ∀ rn rm jn jm, z = ⟨.fin rn rm, .fin jn jm⟩ → FiniteMag b.precision rm → FiniteMag b.precision jm →
      fftCore b true [z] n = ([z], n)

/-! ### OFDM (42_ofdm.md) -/

/-- R160, R233: OFDM_TX, its checks in order, and its effect: `y` is the last `L` samples of `x`, the scaled
inverse transform of X, then `x`. -/
def Obligations.OfdmTxPrependsTheCyclicPrefix : Prop :=
  ∀ (s : State) (q : Pending), s.pending = some q →
    let n := q.a2.toNat
    let l := q.a3.toNat
    let out := fftCore s.build true (s.loadCs q.a0.toNat n) s.draws
    let y := out.1.drop (n - l) ++ out.1
    encode .ofdmTx = 0x20 ∧
    (¬ IsPow2 n → exec .ofdmTx s = .next (s.failed .badSize q.a2)) ∧
    (IsPow2 n → n < l → exec .ofdmTx s = .next (s.failed .badSize q.a3)) ∧
    (IsPow2 n → l ≤ n → ¬ s.Aligned q.a0 → exec .ofdmTx s = .next (s.failed .badAlign q.a0)) ∧
    (IsPow2 n → l ≤ n → s.Aligned q.a0 → ¬ s.Aligned q.a1 →
      exec .ofdmTx s = .next (s.failed .badAlign q.a1)) ∧
    (IsPow2 n → l ≤ n → s.Aligned q.a0 → s.Aligned q.a1 → ¬ s.InRange q.a0 (2 * s.w * n) →
      exec .ofdmTx s = .next (s.failed .badAddr q.a0)) ∧
    (IsPow2 n → l ≤ n → s.Aligned q.a0 → s.Aligned q.a1 → s.InRange q.a0 (2 * s.w * n) →
      ¬ s.InRange q.a1 (2 * s.w * (n + l)) → exec .ofdmTx s = .next (s.failed .badAddr q.a1)) ∧
    (IsPow2 n → l ≤ n → s.Aligned q.a0 → s.Aligned q.a1 → s.InRange q.a0 (2 * s.w * n) →
      s.InRange q.a1 (2 * s.w * (n + l)) →
      y.length = n + l ∧ (∀ k < l, y[k]? = y[n + k]?) ∧
      CompletesWith .ofdmTx s { s with draws := out.2 } q.a1.toNat (y.flatMap (cBytes s.prec)))

/-- R161, R233: OFDM_RX, its checks in order, and its effect: the forward transform of `y` without its first `L`
samples. -/
def Obligations.OfdmRxDropsThePrefixAndTransforms : Prop :=
  ∀ (s : State) (q : Pending), s.pending = some q →
    let total := q.a2.toNat
    let l := q.a3.toNat
    let n := total - l
    let good := l ≤ total ∧ IsPow2 n
    let out := fftCore s.build false (s.loadCs (q.a0.toNat + 2 * s.w * l) n) s.draws
    encode .ofdmRx = 0x21 ∧
    (¬ good → exec .ofdmRx s = .next (s.failed .badSize q.a2)) ∧
    (good → ¬ s.Aligned q.a0 → exec .ofdmRx s = .next (s.failed .badAlign q.a0)) ∧
    (good → s.Aligned q.a0 → ¬ s.Aligned q.a1 → exec .ofdmRx s = .next (s.failed .badAlign q.a1)) ∧
    (good → s.Aligned q.a0 → s.Aligned q.a1 → ¬ s.InRange q.a0 (2 * s.w * total) →
      exec .ofdmRx s = .next (s.failed .badAddr q.a0)) ∧
    (good → s.Aligned q.a0 → s.Aligned q.a1 → s.InRange q.a0 (2 * s.w * total) →
      ¬ s.InRange q.a1 (2 * s.w * n) → exec .ofdmRx s = .next (s.failed .badAddr q.a1)) ∧
    (good → s.Aligned q.a0 → s.Aligned q.a1 → s.InRange q.a0 (2 * s.w * total) →
      s.InRange q.a1 (2 * s.w * n) →
      out.1.length = n ∧
      CompletesWith .ofdmRx s { s with draws := out.2 } q.a1.toNat (out.1.flatMap (cBytes s.prec)))

/-- R162 ("rx transforms exactly the slice tx produced"): after an OFDM_TX that completes OK, the samples behind the
prefix are the scaled inverse transform `x` it computed; and an OFDM_RX of its block with the same prefix, into a good
destination, completes OK and stores the forward transform of `x`. -/
def Obligations.OfdmRxReadsTheSliceTxProduced : Prop :=
  ∀ (s t : State) (q : Pending), s.pending = some q → exec .ofdmTx s = .next t → t.code = .ok →
    let n := q.a2.toNat
    let x := (fftCore s.build true (s.loadCs q.a0.toNat n) s.draws).1
    t.loadCs (q.a1.toNat + 2 * s.w * q.a3.toNat) n = x ∧
    ∀ d : Pending, d.a0 = q.a1 → d.a3 = q.a3 → d.a2.toNat = n + q.a3.toNat →
      s.Aligned d.a1 → s.InRange d.a1 (2 * s.w * n) →
      let r : State := { t with pending := some d }
      let out := fftCore s.build false x t.draws
      CompletesWith .ofdmRx r { r with draws := out.2 } d.a1.toNat (out.1.flatMap (cBytes s.prec))

/-! ### Arithmetic (00_scope.md R10) -/

/-- R10: the sum, difference, product and quotient of finite values are the exact real results rounded to nearest,
ties to even, subnormals included, infinity from half a unit above the greatest finite value (log entry 18). Then the
special values, PRESUMED from IEEE 754 (log entry 19): the signs of exact zero results, infinite and zero operands, and
the results that are NaNs (`none`), of which the primitive draws the bits (log entry 3). -/
def Obligations.ArithmeticIsRoundedToNearestEven : Prop :=
  (∀ (p : Precision) (a b : Bool) (x y : Nat), FiniteMag p x → FiniteMag p y →
    let vx : ℝ := (finValue p a x : ℚ)
    let vy : ℝ := (finValue p b y : ℚ)
    (∃ r, addFp p (.fin a x) (.fin b y) = some r ∧ IsRounded p (vx + vy) r) ∧
    (∃ r, subFp p (.fin a x) (.fin b y) = some r ∧ IsRounded p (vx - vy) r) ∧
    (∃ r, mulFp p (.fin a x) (.fin b y) = some r ∧ IsRounded p (vx * vy) r) ∧
    (vy ≠ 0 → ∃ r, divFp p (.fin a x) (.fin b y) = some r ∧ IsRounded p (vx / vy) r) ∧
    (vx + vy = 0 → addFp p (.fin a x) (.fin b y) = some (.fin (a && b) 0)) ∧
    (vx - vy = 0 → subFp p (.fin a x) (.fin b y) = some (.fin (a && !b) 0)) ∧
    (vx * vy = 0 → mulFp p (.fin a x) (.fin b y) = some (.fin (a != b) 0)) ∧
    (vx = 0 → vy ≠ 0 → divFp p (.fin a x) (.fin b y) = some (.fin (a != b) 0)) ∧
    (vx ≠ 0 → vy = 0 → divFp p (.fin a x) (.fin b y) = some (.inf (a != b))) ∧
    (vx = 0 → vy = 0 → divFp p (.fin a x) (.fin b y) = none) ∧
    addFp p (.inf a) (.fin b y) = some (.inf a) ∧ addFp p (.fin a x) (.inf b) = some (.inf b) ∧
    subFp p (.inf a) (.fin b y) = some (.inf a) ∧ subFp p (.fin a x) (.inf b) = some (.inf (!b)) ∧
    mulFp p (.inf a) (.fin b y) = (if vy = 0 then none else some (.inf (a != b))) ∧
    mulFp p (.fin a x) (.inf b) = (if vx = 0 then none else some (.inf (a != b))) ∧
    divFp p (.inf a) (.fin b y) = some (.inf (a != b)) ∧ divFp p (.fin a x) (.inf b) = some (.fin (a != b) 0)) ∧
  (∀ (p : Precision) (a b : Bool),
    addFp p (.inf a) (.inf b) = (if a = b then some (.inf a) else none) ∧
    subFp p (.inf a) (.inf b) = (if a = b then none else some (.inf a)) ∧
    mulFp p (.inf a) (.inf b) = some (.inf (a != b)) ∧ divFp p (.inf a) (.inf b) = none) ∧
  (∀ (p : Precision) (e : Enc) (v : Fp),
    addFp p (.nan e) v = none ∧ addFp p v (.nan e) = none ∧ subFp p (.nan e) v = none ∧ subFp p v (.nan e) = none ∧
    mulFp p (.nan e) v = none ∧ mulFp p v (.nan e) = none ∧ divFp p (.nan e) v = none ∧
    divFp p v (.nan e) = none) ∧
  ∀ (p : Precision) (x y : Fp) (n : Nat),
    let result := fun (o : Option Fp) => match o with
      | some v => (v, n)
      | none => (.nan (nanPattern p (Config.nanBits n)), n + 1)
    fadd p x y n = result (addFp p x y) ∧ fsub p x y n = result (subFp p x y) ∧
      fmul p x y n = result (mulFp p x y) ∧ fdiv p x y n = result (divFp p x y)

/-- R10: the square root of a finite value that is not negative is the exact real root rounded to nearest, ties
to even; `F(n)` is the integer rounded so (log entry 18). The root of a zero is that zero, of +∞ is +∞, and of a
negative value or a NaN is a NaN (log entry 19). The primitive `fsqrt` is that root, a NaN's bits drawn (log entry 3). -/
def Obligations.SquareRootAndIntegersAreRoundedToNearest : Prop :=
  (∀ (p : Precision) (x : Nat), FiniteMag p x →
    ∃ r, sqrtFp p (.fin false x) = some r ∧ IsRounded p (Real.sqrt (finValue p false x : ℚ)) r) ∧
  (∀ (p : Precision) (n : Int), IsRounded p (n : ℝ) (ofInt p n)) ∧
  ∀ (p : Precision), (∀ a, sqrtFp p (.fin a 0) = some (.fin a 0)) ∧ sqrtFp p (.inf false) = some (.inf false) ∧
    sqrtFp p (.inf true) = none ∧ (∀ x, x ≠ 0 → sqrtFp p (.fin true x) = none) ∧
    (∀ e, sqrtFp p (.nan e) = none) ∧
    ∀ (x : Fp) (n : Nat), fsqrt p x n = match sqrtFp p x with
      | some v => (v, n)
      | none => (.nan (nanPattern p (Config.nanBits n)), n + 1)

/-- R10: `flt` on finite values is less-than of their values, so −0 and +0 are equal; −∞ is below and +∞ above every
finite value, and neither below itself (log entry 19); on a NaN it is false. `fneg` flips the sign bit of an encoding,
a NaN's too (log entry 22). -/
def Obligations.LessThanIsOfTheValues : Prop :=
  ∀ (p : Precision),
    (∀ (a b : Bool) (x y : Nat), FiniteMag p x → FiniteMag p y →
      (flt p (.fin a x) (.fin b y) = true ↔ finValue p a x < finValue p b y)) ∧
    (∀ (a b : Bool) (x : Nat), FiniteMag p x →
      (flt p (.fin a x) (.inf b) = true ↔ b = false) ∧ (flt p (.inf a) (.fin b x) = true ↔ a = true)) ∧
    (∀ a b : Bool, flt p (.inf a) (.inf b) = true ↔ a = true ∧ b = false) ∧
    (∀ (e : Enc) (v : Fp), flt p (.nan e) v = false ∧ flt p v (.nan e) = false) ∧
    ∀ e : Nat, e < 2 ^ p.bits → fneg p (Fp.ofBits p e) = Fp.ofBits p (e ^^^ 2 ^ (p.bits - 1))

/-- D3: a free value selects a NaN encoding, and every NaN encoding is selected by one. -/
def Obligations.NanDrawsRangeOverAllNans : Prop :=
  ∀ p : Precision,
    (∀ d : Enc, ∃ e, Fp.ofBits p (nanPattern p d).toNat = .nan e ∧ e = nanPattern p d) ∧
    (∀ e : Enc, e.toNat < 2 ^ p.bits → Fp.ofBits p e.toNat = .nan e → ∃ d, nanPattern p d = e)

/-! ### 16-QAM (43_qam16.md) -/

/-- R180, R182: the alphabet by label, and its Gray property: points that differ by 2 in exactly one coordinate
have labels that differ in exactly one bit, and not conversely. R181: the encodings of ETA and SQRT10. R132: the ROM
entries the spec prints, the first 8 of 31, which are those of the build of the test vectors (log entry 1). -/
def Obligations.ConstellationTableIsGray : Prop :=
  (List.range 16).map (fun j => (pointX j, pointY j)) =
    [(-3, -3), (-3, -1), (-3, 3), (-3, 1), (-1, -3), (-1, -1), (-1, 3), (-1, 1),
     (3, -3), (3, -1), (3, 3), (3, 1), (1, -3), (1, -1), (1, 3), (1, 1)] ∧
  (∀ i ∈ List.range 16, ∀ j ∈ List.range 16,
    ((pointX i - pointX j).natAbs = 2 ∧ pointY i = pointY j) ∨
      (pointX i = pointX j ∧ (pointY i - pointY j).natAbs = 2) →
    ((List.range 4).filter fun k => (i ^^^ j).testBit k).length = 1) ∧
  (((List.range 4).filter fun k => (0 ^^^ 2 : Nat).testBit k).length = 1 ∧
    (pointY 0 - pointY 2).natAbs ≠ 2) ∧
  etaBits .f64 = 0x3FD43D136248490F ∧ etaBits .f32 = 0x3EA1E89B ∧
  sqrt10Bits .f64 = 0x40094C583ADA5B53 ∧ sqrt10Bits .f32 = 0x404A62C2 ∧
  (twiddleTable .f64).take 8 =
    [(0xBFF0000000000000, 0x0000000000000000), (0x0000000000000000, 0x3FF0000000000000),
     (0x3FE6A09E667F3BCD, 0x3FE6A09E667F3BCD), (0x3FED906BCF328D46, 0x3FD87DE2A6AEA963),
     (0x3FEF6297CFF75CB0, 0x3FC8F8B83C69A60B), (0x3FEFD88DA3D12526, 0x3FB917A6BC29B42C),
     (0x3FEFF621E3796D7E, 0x3FA91F65F10DD814), (0x3FEFFD886084CD0D, 0x3F992155F7A3667E)] ∧
  (twiddleTable .f32).take 8 =
    [(0xBF800000, 0x00000000), (0x00000000, 0x3F800000), (0x3F3504F3, 0x3F3504F3), (0x3F6C835E, 0x3EC3EF15),
     (0x3F7B14BE, 0x3E47C5C2), (0x3F7EC46D, 0x3DC8BD36), (0x3F7FB10F, 0x3D48FB30), (0x3F7FEC43, 0x3CC90AB0)] ∧
  ∀ p : Precision, (twiddleTable p).length = 31 ∧ (vectorBuild p).twiddleRom = twiddleTable p

/-- R184: QAM_ENC, its checks in order, and its effect: two symbols a byte, high nibble first, each coordinate
the one rounded product `F(p) × ETA`. -/
def Obligations.QamEncMapsNibblesToSymbols : Prop :=
  ∀ (s : State) (q : Pending), s.pending = some q →
    let n := q.a2.toNat
    let scaled := fun (c : Int) =>
      (mulFp s.prec (ofInt s.prec c) (Fp.ofBits s.prec (etaBits s.prec).toNat)).getD Fp.zero
    let symbol := fun (j : Nat) => cBytes s.prec ⟨scaled (pointX j), scaled (pointY j)⟩
    let bytes := (s.loadBytes q.a0.toNat n).flatMap fun b => symbol (b.toNat / 16) ++ symbol (b.toNat % 16)
    encode .qamEnc = 0x30 ∧
    (¬ s.Aligned q.a1 → exec .qamEnc s = .next (s.failed .badAlign q.a1)) ∧
    (s.Aligned q.a1 → ¬ s.InRange q.a0 n → exec .qamEnc s = .next (s.failed .badAddr q.a0)) ∧
    (s.Aligned q.a1 → s.InRange q.a0 n → ¬ s.InRange q.a1 (2 * s.w * (2 * n)) →
      exec .qamEnc s = .next (s.failed .badAddr q.a1)) ∧
    (s.Aligned q.a1 → s.InRange q.a0 n → s.InRange q.a1 (2 * s.w * (2 * n)) →
      bytes.length = 2 * s.w * (2 * n) ∧ CompletesWith .qamEnc s s q.a1.toNat bytes)

/-- R186, R185: the distances of DIST, by label; the scan over distances returns the lowest label at the least one
below infinity, and none exactly when none is below infinity; NEAREST is that scan over DIST. -/
def Obligations.NearestIsTheLowestClosestLabel : Prop :=
  (∀ (p : Precision) (z : Cx) (n : Nat),
    dist p z n = (fmul p z.re (Fp.ofBits p (sqrt10Bits p).toNat) >>= fun x =>
      fmul p z.im (Fp.ofBits p (sqrt10Bits p).toNat) >>= fun y =>
        Draw.each (fun j => do
          let dx ← fsub p x (ofInt p (pointX j))
          let dy ← fsub p y (ofInt p (pointY j))
          let xx ← fmul p dx dx
          let yy ← fmul p dy dy
          fadd p xx yy) (List.range 16)) n ∧
    nearest p z n = (nearestScan p 0 (.inf false) none (dist p z n).1, (dist p z n).2)) ∧
  ∀ (p : Precision) (d : List Fp),
    (∀ j, nearestScan p 0 (.inf false) none d = some j → ∃ dj, d[j]? = some dj ∧
      flt p dj (.inf false) = true ∧
      ∀ i di, d[i]? = some di → flt p di dj = false ∧
        (i < j → flt p dj di = true ∨ ∃ e, di = .nan e)) ∧
    (nearestScan p 0 (.inf false) none d = none ↔ ∀ di ∈ d, flt p di (.inf false) = false)

/-- R187, R235: QAM_DEC_HARD, its checks in order, NEAREST with the first index without a nearest point, and its
effect: the labels of each pair packed in a byte, a trailing odd symbol not demapped. -/
def Obligations.QamDecHardPacksNearestLabels : Prop :=
  ∀ (s : State) (q : Pending), s.pending = some q →
    let m := q.a2.toNat
    let out := Draw.each (nearest s.prec) (s.loadCs q.a0.toNat (2 * (m / 2))) s.draws
    encode .qamDecHard = 0x31 ∧
    (¬ s.Aligned q.a0 → exec .qamDecHard s = .next (s.failed .badAlign q.a0)) ∧
    (s.Aligned q.a0 → ¬ s.InRange q.a0 (2 * s.w * m) →
      exec .qamDecHard s = .next (s.failed .badAddr q.a0)) ∧
    (s.Aligned q.a0 → s.InRange q.a0 (2 * s.w * m) → ¬ s.InRange q.a1 (m / 2) →
      exec .qamDecHard s = .next (s.failed .badAddr q.a1)) ∧
    (s.Aligned q.a0 → s.InRange q.a0 (2 * s.w * m) → s.InRange q.a1 (m / 2) →
      (∀ i, out.1[i]? = some none → (∀ j < i, out.1[j]? ≠ some none) →
        exec .qamDecHard s = .next (s.failed .nearest (BitVec.ofNat 32 i))) ∧
      (∀ lab : Nat → Nat, (∀ i < 2 * (m / 2), out.1[i]? = some (some (lab i))) →
        CompletesWith .qamDecHard s { s with draws := out.2 } q.a1.toNat
          ((List.range (m / 2)).map fun k => BitVec.ofNat 8 (lab (2 * k) * 16 + lab (2 * k + 1)))))

/-- R188: the minimum over the labels with a given bit: infinity, or one of their distances, below infinity and so no
NaN, the first of equal ones; and none of theirs is below it. The LLR is its difference for bit 0 and bit 1, divided by
the variance; LLR(s, v) is the four of DIST(s). -/
def Obligations.LlrIsTheScaledDifferenceOfMinima : Prop :=
  ∀ (p : Precision) (k : Nat) (b : Bool) (d : List Fp),
    let m := minWithBit p k b 0 (.inf false) d
    (m = .inf false ∨ flt p m (.inf false) = true ∧ ∃ j : Nat, d[j]? = some m ∧ j.testBit k = b ∧
      ∀ (i : Nat) (di : Fp), i < j → d[i]? = some di → i.testBit k = b →
        flt p m di = true ∨ ∃ e, di = .nan e) ∧
    (∀ (j : Nat) (dj : Fp), d[j]? = some dj → j.testBit k = b → flt p dj m = false) ∧
    (∀ (v : Fp) (n : Nat), llrBit p v d k n =
      (fsub p (minWithBit p k false 0 (.inf false) d) (minWithBit p k true 0 (.inf false) d) >>=
        fun x => fdiv p x v) n) ∧
    ∀ (v : Fp) (z : Cx) (n : Nat),
      llr p v z n = (dist p z >>= fun d => Draw.each (llrBit p v d) (List.range 4)) n

/-- R190, R189: QAM_DEC_SOFT, its checks in order, and its effect: bit `k` of a symbol's nibble is 1 exactly when
its `LLR_k > +0`, nibbles packed as in hard decoding. -/
def Obligations.QamDecSoftPacksLlrSigns : Prop :=
  ∀ (s : State) (q : Pending), s.pending = some q →
    let m := q.a2.toNat
    let out := Draw.each (llr s.prec (q.farg s.prec)) (s.loadCs q.a0.toNat (2 * (m / 2))) s.draws
    let bit := fun (i k : Nat) =>
      if flt s.prec Fp.zero ((out.1.getD i []).getD k Fp.zero) then 2 ^ k else 0
    let nib := fun (i : Nat) => bit i 0 + bit i 1 + bit i 2 + bit i 3
    encode .qamDecSoft = 0x32 ∧
    (¬ s.Aligned q.a0 → exec .qamDecSoft s = .next (s.failed .badAlign q.a0)) ∧
    (s.Aligned q.a0 → ¬ s.InRange q.a0 (2 * s.w * m) →
      exec .qamDecSoft s = .next (s.failed .badAddr q.a0)) ∧
    (s.Aligned q.a0 → s.InRange q.a0 (2 * s.w * m) → ¬ s.InRange q.a1 (m / 2) →
      exec .qamDecSoft s = .next (s.failed .badAddr q.a1)) ∧
    (s.Aligned q.a0 → s.InRange q.a0 (2 * s.w * m) → s.InRange q.a1 (m / 2) →
      CompletesWith .qamDecSoft s { s with draws := out.2 } q.a1.toNat
        ((List.range (m / 2)).map fun k => BitVec.ofNat 8 (nib (2 * k) * 16 + nib (2 * k + 1))))

/-- R191: QAM_LLR, its checks in order, and its effect: `LLR_0 .. LLR_3` of every symbol, in symbol order. -/
def Obligations.QamLlrWritesFourLlrsASymbol : Prop :=
  ∀ (s : State) (q : Pending), s.pending = some q →
    let m := q.a2.toNat
    let out := Draw.each (llr s.prec (q.farg s.prec)) (s.loadCs q.a0.toNat m) s.draws
    let bytes := out.1.flatMap fun ls => ls.flatMap (fBytes s.prec)
    encode .qamLlr = 0x33 ∧
    (¬ s.Aligned q.a0 → exec .qamLlr s = .next (s.failed .badAlign q.a0)) ∧
    (s.Aligned q.a0 → ¬ s.Aligned q.a1 → exec .qamLlr s = .next (s.failed .badAlign q.a1)) ∧
    (s.Aligned q.a0 → s.Aligned q.a1 → ¬ s.InRange q.a0 (2 * s.w * m) →
      exec .qamLlr s = .next (s.failed .badAddr q.a0)) ∧
    (s.Aligned q.a0 → s.Aligned q.a1 → s.InRange q.a0 (2 * s.w * m) → ¬ s.InRange q.a1 (4 * s.w * m) →
      exec .qamLlr s = .next (s.failed .badAddr q.a1)) ∧
    (s.Aligned q.a0 → s.Aligned q.a1 → s.InRange q.a0 (2 * s.w * m) → s.InRange q.a1 (4 * s.w * m) →
      bytes.length = 4 * s.w * m ∧ (∀ ls ∈ out.1, ls.length = 4) ∧
      CompletesWith .qamLlr s { s with draws := out.2 } q.a1.toNat bytes)

/-- R192 (property P5): QAM_DEC_HARD of the symbols QAM_ENC wrote gives back the bytes. -/
def Obligations.HardDecodingInvertsEncoding : Prop :=
  ∀ (s t : State) (q d : Pending), s.pending = some q → exec .qamEnc s = .next t → t.code = .ok →
    d.a0 = q.a1 → d.a2.toNat = 2 * q.a2.toNat → s.InRange d.a1 q.a2.toNat →
    ∃ u, exec .qamDecHard { t with pending := some d } = .next u ∧ u.code = .ok ∧
      u.loadBytes d.a1.toNat q.a2.toNat = s.loadBytes q.a0.toNat q.a2.toNat

/-- R192 (property P6), for every finite variance above 0 (at infinity every LLR is 0 and P6 fails): on the symbol
QAM_ENC makes of a label, hard and soft decision both give the label. -/
def Obligations.SoftDecisionEqualsHardOnCleanSymbols : Prop :=
  ∀ (p : Precision) (j v n n' : Nat), j < 16 → 0 < v → FiniteMag p v →
    (nearest p (mapLabel p j n).1 n').1 = some j ∧
    (softNibble p (.fin false v) (mapLabel p j n).1 n').1 = j

/-! ### AWGN channel (44_awgn.md) -/

/-- R212: AWGN_INIT stores `POW10_F(db ÷ F(10))`, seeds the generator from A3 or from the entropy draw, and
becomes valid. That the entropy seed is the free value of the draw counter, which then goes up by one, is the model's
form of a draw (log entry 6), as are the bits of a NaN quotient and the numbering of generator states (log entries 3
and 8). -/
def Obligations.AwgnInitSetsSnrAndSeed : Prop :=
  ∀ (s : State) (q : Pending) (given : Bool), s.pending = some q →
    let x := fdiv s.prec (q.farg s.prec) (ofInt s.prec 10) s.draws
    let seed := if given then q.a3 else Config.entropySeed x.2
    encode (.awgnInit given) = (if given then 0x1040 else 0x0040) ∧
    exec (.awgnInit given) s = .next { s with
      awgn := { valid := true, snr := (pow10F s.prec x.1).toBits s.prec, gen := Config.awgnSeed seed },
      draws := if given then x.2 else x.2 + 1, code := .ok, info := 0, pending := none }

/-- R213: AWGN_SNR updates the SNR and keeps the generator state; NOT_INIT(0) before any AWGN_INIT. -/
def Obligations.AwgnSnrKeepsTheGenerator : Prop :=
  ∀ (s : State) (q : Pending), s.pending = some q →
    let x := fdiv s.prec (q.farg s.prec) (ofInt s.prec 10) s.draws
    encode .awgnSnr = 0x41 ∧
    (s.awgn.valid = false → exec .awgnSnr s = .next (s.failed .notInit 0)) ∧
    (s.awgn.valid = true → exec .awgnSnr s = .next { s with
      awgn := { valid := true, snr := (pow10F s.prec x.1).toBits s.prec, gen := s.awgn.gen },
      draws := x.2, code := .ok, info := 0, pending := none })

/-- R217: AWGN_APPLY, its checks in order, and its effect: the signal region becomes signal plus noise, the noise
region the noise, the generator moves on, and nothing else changes; with `L = 0` nothing at all. -/
def Obligations.AwgnApplyAddsAndReturnsNoise : Prop :=
  ∀ (s : State) (q : Pending) (unit : Bool), s.pending = some q →
    let l := q.a2.toNat
    let n := 2 * s.w * l
    let sa := q.a0.toNat
    let na := q.a1.toNat
    let share := ∃ x, (sa ≤ x ∧ x < sa + n) ∧ (na ≤ x ∧ x < na + n)
    let out := applyNoise s.prec unit (Fp.ofBits s.prec s.awgn.snr.toNat) s.awgn.gen (s.loadCs sa l) s.draws
    let signal := out.1.1.flatMap (cBytes s.prec)
    let noise := out.1.2.1.flatMap (cBytes s.prec)
    let fails := fun e i => exec (.awgnApply unit) s = .next (s.failed e i)
    encode (.awgnApply unit) = (if unit then 0x1042 else 0x0042) ∧
    (s.awgn.valid = false → fails .notInit 0) ∧
    (s.awgn.valid = true → ¬ s.Aligned q.a0 → fails .badAlign q.a0) ∧
    (s.awgn.valid = true → s.Aligned q.a0 → ¬ s.Aligned q.a1 → fails .badAlign q.a1) ∧
    (s.awgn.valid = true → s.Aligned q.a0 → s.Aligned q.a1 → ¬ s.InRange q.a0 n →
      fails .badAddr q.a0) ∧
    (s.awgn.valid = true → s.Aligned q.a0 → s.Aligned q.a1 → s.InRange q.a0 n → ¬ s.InRange q.a1 n →
      fails .badAddr q.a1) ∧
    (s.awgn.valid = true → s.Aligned q.a0 → s.Aligned q.a1 → s.InRange q.a0 n → s.InRange q.a1 n →
      share → fails .badOverlap q.a1) ∧
    (s.awgn.valid = true → s.Aligned q.a0 → s.Aligned q.a1 → s.InRange q.a0 n → s.InRange q.a1 n →
      l = 0 → exec (.awgnApply unit) s = .next { s with code := .ok, info := 0, pending := none }) ∧
    (s.awgn.valid = true → s.Aligned q.a0 → s.Aligned q.a1 → s.InRange q.a0 n → s.InRange q.a1 n →
      ¬ share → 0 < l → signal.length = n ∧ noise.length = n ∧
      ∃ t, exec (.awgnApply unit) s = .next t ∧
        t = { s with code := .ok, info := 0, pending := none, lmem := t.lmem, draws := out.2,
                     awgn := { s.awgn with gen := out.1.2.2 } } ∧
        ∀ x, t.loadB x =
          if na ≤ x ∧ x < na + n then noise.getD (x - na) 0
          else if sa ≤ x ∧ x < sa + n then signal.getD (x - sa) 0
          else s.loadB x)

/-- R216: an AWGN_APPLY of length `L > 0` that no check stops advances the generator by exactly `2L` draws, and leaves in
the noise region, made of the draws `z`, `std × z` for the real part first, then the imaginary, index ascending, with
`std` of R214 and R215; and the loop over samples says so of every deviation, length and generator state. -/
def Obligations.NoiseTakesTwoDrawsASample : Prop :=
  (∀ (p : Precision) (std : Fp) (l g n : Nat),
    let next := fun g => (nextNormal p g).2
    let z := fun k => (nextNormal p (next^[k] g)).1
    let out := Draw.each (fun k => do
      let re ← fmul p std (z (2 * k))
      let im ← fmul p std (z (2 * k + 1))
      pure (⟨re, im⟩ : Cx)) (List.range l) n
    noiseSamples p std l g n = ((out.1, next^[2 * l] g), out.2)) ∧
  ∀ (s : State) (q : Pending) (unit : Bool), s.pending = some q →
    let l := q.a2.toNat
    let next := fun g => (nextNormal s.prec g).2
    let z := fun k => (nextNormal s.prec (next^[k] s.awgn.gen)).1
    let power := (if unit then pure (ofInt s.prec 1) else sigPow s.prec (s.loadCs q.a0.toNat l)) s.draws
    let std := noiseStd s.prec power.1 (Fp.ofBits s.prec s.awgn.snr.toNat) power.2
    let noise := Draw.each (fun k => do
      let re ← fmul s.prec std.1 (z (2 * k))
      let im ← fmul s.prec std.1 (z (2 * k + 1))
      pure (⟨re, im⟩ : Cx)) (List.range l) std.2
    s.awgn.valid = true → s.Aligned q.a0 → s.Aligned q.a1 →
    s.InRange q.a0 (2 * s.w * l) → s.InRange q.a1 (2 * s.w * l) → 0 < l →
    (q.a0.toNat + 2 * s.w * l ≤ q.a1.toNat ∨ q.a1.toNat + 2 * s.w * l ≤ q.a0.toNat) →
    ∃ t, exec (.awgnApply unit) s = .next t ∧ t.code = .ok ∧ t.awgn.gen = next^[2 * l] s.awgn.gen ∧
      t.loadCs q.a1.toNat l = noise.1

/-- R214, R215, R217: what AWGN_APPLY computes: the power is 1 or the sum of squares from +0 in ascending order
divided by `F(L)`, the deviation `fsqrt(P_s ÷ (F(2) × snr))`; and the worked example of R217, which is V-AWGN-2: the
deviation, the noise of the draws 1 and −2, and the new signal, in both formats. -/
def Obligations.NoiseDeviationFromPowerAndSnr : Prop :=
  (∀ (p : Precision) (power snr : Fp) (n : Nat), noiseStd p power snr n =
    (fmul p (ofInt p 2) snr >>= fun d => fdiv p power d >>= fun var => fsqrt p var) n) ∧
  (∀ (p : Precision) (acc : Fp) (n : Nat), sumPower p acc [] n = (acc, n)) ∧
  (∀ (p : Precision) (zs : List Cx) (z : Cx) (acc : Fp) (n : Nat), sumPower p acc (zs ++ [z]) n =
    (sumPower p acc zs >>= fun acc => fmul p z.re z.re >>= fun rr => fmul p z.im z.im >>= fun ii =>
      fadd p rr ii >>= fun sq => fadd p acc sq) n) ∧
  (∀ (p : Precision) (zs : List Cx) (n : Nat), sigPow p zs n =
    (sumPower p (.fin false 0) zs >>= fun acc => fdiv p acc (ofInt p zs.length)) n) ∧
  (∀ (p : Precision) (unit : Bool) (snr : Fp) (g : Nat) (zs : List Cx) (n : Nat),
    applyNoise p unit snr g zs n =
      ((if unit then pure (ofInt p 1) else sigPow p zs) >>= fun power => noiseStd p power snr >>= fun std =>
        noiseSamples p std zs.length g >>= fun noise =>
          Draw.each (fun zn : Cx × Cx => writtenAdd p zn.1 zn.2) (zs.zip noise.1) >>= fun out =>
            pure (out, noise.1, noise.2)) n) ∧
  ∀ n : Nat,
    let vector := fun (p : Precision) (sig0 sig1 std noise1 out0 out1 : Nat) =>
      let v := Fp.ofBits p
      noiseStd p (ofInt p 1) (ofInt p 10) n = (v std, n) ∧ fmul p (v std) (ofInt p 1) n = (v std, n) ∧
      fmul p (v std) (ofInt p (-2)) n = (v noise1, n) ∧
      writtenAdd p ⟨v sig0, v sig1⟩ ⟨v std, v noise1⟩ n = (⟨v out0, v out1⟩, n)
    vector .f64 0x3FE0000000000000 0xBFE0000000000000 0x3FCC9F25C5BFEDD9 0xBFDC9F25C5BFEDD9 0x3FE727C9716FFB76
      0xBFEE4F92E2DFF6EC ∧
    vector .f32 0x3F000000 0xBF000000 0x3E64F92E 0xBEE4F92E 0x3F393E4C 0xBF727C97

/-! ### The invariant -/

/-- R260 with 00_scope.md R6: the invariant holds after any reset of any build with parameters in range, and at
`State.reset`, which is that of one build, the model's choice (log entry 1). -/
def Obligations.ResetMeetsTheInvariant : Prop :=
  (∀ (b : Build) (n : Nat), b.Valid → (State.resetOf b n).Inv) ∧
  State.reset = State.resetOf (vectorBuild .f64) 0 ∧ State.reset.Inv

/-- The invariant (parameters in range, NUM_RINGS good descriptors, canonical LMEM inside its addresses, OK with
INFO 0, the pending word the last accepted one, SNR +0 until AWGN_INIT) is kept by every step; and the build
parameters, TWIDDLE_ROM among them, are the same after every step, from any state. -/
def Obligations.EveryStepKeepsTheInvariant : Prop :=
  ∀ (s t : State), step s = .next t → t.build = s.build ∧ (s.Inv → t.Inv)
end

