-- ==== Sys2Proof/Laws/Draw.lean ====
section
/-! SUPPORT. How computations with free values run, and the lengths of what they return. -/

namespace Sys2Proof

@[simp] theorem Draw.bind_run {α β : Type} (x : Draw α) (f : α → Draw β) (n : Nat) :
    (x >>= f) n = f (x n).1 (x n).2 := rfl

@[simp] theorem Draw.pure_run {α : Type} (a : α) (n : Nat) : (pure a : Draw α) n = (a, n) := rfl

@[simp] theorem Draw.map_run {α β : Type} (f : α → β) (x : Draw α) (n : Nat) :
    (f <$> x) n = (f (x n).1, (x n).2) := rfl

@[simp] theorem settle_some (p : Precision) (v : Fp) (n : Nat) : settle p (some v) n = (v, n) := rfl

@[simp] theorem settle_none (p : Precision) (n : Nat) :
    settle p none n = (.nan (nanPattern p (Config.nanBits n)), n + 1) := rfl

@[simp] theorem Draw.each_nil {α β : Type} (f : α → Draw β) (n : Nat) : Draw.each f [] n = ([], n) := rfl

@[simp] theorem Draw.each_cons {α β : Type} (f : α → Draw β) (a : α) (as : List α) (n : Nat) :
    Draw.each f (a :: as) n =
      ((f a n).1 :: (Draw.each f as (f a n).2).1, (Draw.each f as (f a n).2).2) := rfl

@[simp] theorem Draw.each_length {α β : Type} (f : α → Draw β) (as : List α) (n : Nat) :
    (Draw.each f as n).1.length = as.length := by
  induction as generalizing n with
  | nil => rfl
  | cons a as ih => simp [ih]

namespace Machine

/-! ### The FFT keeps the length of its buffer -/

@[simp] theorem bitrev_length (buf : List Cx) : (bitrev buf).length = buf.length := by
  simp [bitrev]

theorem blockSteps_length (p : Precision) (W : Cx) (j : Nat) (w : Cx) (es os : List Cx) (n : Nat) :
    (blockSteps p W j w es os n).1.1.length = min es.length os.length ∧
    (blockSteps p W j w es os n).1.2.length = min es.length os.length := by
  induction es generalizing j w os n with
  | nil => simp [blockSteps]
  | cons e es ih =>
    cases os with
    | nil => simp [blockSteps]
    | cons o os =>
      simp only [blockSteps, Draw.bind_run, Draw.pure_run, List.length_cons]
      constructor
      · rw [(ih ..).1]; omega
      · rw [(ih ..).2]; omega

theorem stageBlocks_length (p : Precision) (W : Cx) (half blocks : Nat) (buf : List Cx) (n : Nat)
    (h : buf.length = 2 * half * blocks) : (stageBlocks p W half blocks buf n).1.length = buf.length := by
  induction blocks generalizing buf n with
  | zero => simp_all [stageBlocks]
  | succ k ih =>
    have hk : buf.length = 2 * half * k + 2 * half := by rw [h]; ring
    simp only [stageBlocks, Draw.bind_run, Draw.pure_run, List.length_append]
    rw [(blockSteps_length ..).1, (blockSteps_length ..).2, ih _ _ (by simp [hk])]
    simp only [List.length_take, List.length_drop]
    omega

theorem stages_length (b : Build) (inverse : Bool) (count m k : Nat) (buf : List Cx) (n : Nat)
    (hm : 1 ≤ m) (hk : m + count ≤ k + 1) (h : buf.length = 2 ^ k) :
    (stages b inverse count m buf n).1.length = buf.length := by
  induction count generalizing m buf n with
  | zero => rfl
  | succ c ih =>
    simp only [stages, Draw.bind_run]
    have hdvd : 2 ^ m ∣ buf.length := h ▸ pow_dvd_pow 2 (by omega)
    have hlen : buf.length = 2 * 2 ^ (m - 1) * (buf.length / 2 ^ m) := by
      obtain ⟨j, hj⟩ := hdvd
      have hpow : 2 * 2 ^ (m - 1) = 2 ^ m := by
        rw [← pow_succ', Nat.sub_add_cancel hm]
      rw [hpow, hj, Nat.mul_div_cancel_left _ (by positivity)]
    have hst := stageBlocks_length b.precision (root b m inverse) (2 ^ (m - 1)) (buf.length / 2 ^ m) buf n hlen
    rw [ih (m + 1) _ _ (by omega) (by omega) (hst.trans h), hst]

/-- The transform of `2^k` samples has `2^k` samples. -/
theorem fftCore_length (b : Build) (inverse : Bool) (k : Nat) (buf : List Cx) (n : Nat)
    (h : buf.length = 2 ^ k) : (fftCore b inverse buf n).1.length = buf.length := by
  have hlog : Nat.log2 buf.length = k := by rw [h, Nat.log2_two_pow]
  have hst := stages_length b inverse k 1 k (bitrev buf) n le_rfl (by omega) (by simpa using h)
  cases inverse <;> simp [fftCore, hlog, hst]

theorem isPow2_iff (n : Nat) : isPow2 n = true ↔ ∃ k, n = 2 ^ k := by
  simp only [isPow2, decide_eq_true_eq]
  exact ⟨fun h => ⟨_, h.symm⟩, fun ⟨k, hk⟩ => by rw [hk, Nat.log2_two_pow]⟩

/-! ### The noise -/

@[simp] theorem noiseSamples_length (p : Precision) (std : Fp) (l g n : Nat) :
    (noiseSamples p std l g n).1.1.length = l := by
  induction l generalizing g n with
  | zero => rfl
  | succ l ih => simp [noiseSamples, ih]

theorem applyNoise_lengths (p : Precision) (unit : Bool) (snr : Fp) (g : Nat) (zs : List Cx) (n : Nat) :
    (applyNoise p unit snr g zs n).1.1.length = zs.length ∧
    (applyNoise p unit snr g zs n).1.2.1.length = zs.length := by
  cases unit <;> simp [applyNoise]

/-! ### The demapper outputs -/

@[simp] theorem packNibbles_length (ls : List Nat) : (packNibbles ls).length = ls.length / 2 := by
  induction ls using packNibbles.induct with
  | case1 hi lo rest ih => simp [packNibbles, ih]; omega
  | case2 ls h =>
    match ls, h with
    | [], _ => rfl
    | [a], _ => simp [packNibbles]
    | a :: b :: r, h => exact absurd rfl (h a b r)

@[simp] theorem llr_length (p : Precision) (v : Fp) (z : Cx) (n : Nat) : (llr p v z n).1.length = 4 := by
  simp [llr]

theorem each_llr_flatten_length (p : Precision) (v : Fp) (zs : List Cx) (n : Nat) :
    (Draw.each (llr p v) zs n).1.flatten.length = 4 * zs.length := by
  induction zs generalizing n with
  | nil => rfl
  | cons z zs ih => simp [ih]; omega

@[simp] theorem nibbles_length (bs : List Byte) : (nibbles bs).length = 2 * bs.length := by
  induction bs with
  | nil => rfl
  | cons b bs ih => simp [nibbles] at ih ⊢; omega

end Machine
end Sys2Proof
end

