-- ==== Sys2Proof/Laws/State.lean ====
section
/-! SUPPORT. What each update of State leaves alone: one lemma for each field it does not write. -/

namespace Sys2Proof.Machine

/-! ### `storeBytes` -/

@[simp] theorem State.storeBytes_build (s : State) (a : Nat) (bs : List Byte) :
    (s.storeBytes a bs).build = s.build := rfl
@[simp] theorem State.storeBytes_ovr (s : State) (a : Nat) (bs : List Byte) :
    (s.storeBytes a bs).ovr = s.ovr := rfl
@[simp] theorem State.storeBytes_code (s : State) (a : Nat) (bs : List Byte) :
    (s.storeBytes a bs).code = s.code := rfl
@[simp] theorem State.storeBytes_info (s : State) (a : Nat) (bs : List Byte) :
    (s.storeBytes a bs).info = s.info := rfl
@[simp] theorem State.storeBytes_res (s : State) (a : Nat) (bs : List Byte) :
    (s.storeBytes a bs).res = s.res := rfl
@[simp] theorem State.storeBytes_cmd (s : State) (a : Nat) (bs : List Byte) :
    (s.storeBytes a bs).cmd = s.cmd := rfl
@[simp] theorem State.storeBytes_a0 (s : State) (a : Nat) (bs : List Byte) :
    (s.storeBytes a bs).a0 = s.a0 := rfl
@[simp] theorem State.storeBytes_a1 (s : State) (a : Nat) (bs : List Byte) :
    (s.storeBytes a bs).a1 = s.a1 := rfl
@[simp] theorem State.storeBytes_a2 (s : State) (a : Nat) (bs : List Byte) :
    (s.storeBytes a bs).a2 = s.a2 := rfl
@[simp] theorem State.storeBytes_a3 (s : State) (a : Nat) (bs : List Byte) :
    (s.storeBytes a bs).a3 = s.a3 := rfl
@[simp] theorem State.storeBytes_fargLo (s : State) (a : Nat) (bs : List Byte) :
    (s.storeBytes a bs).fargLo = s.fargLo := rfl
@[simp] theorem State.storeBytes_fargHi (s : State) (a : Nat) (bs : List Byte) :
    (s.storeBytes a bs).fargHi = s.fargHi := rfl
@[simp] theorem State.storeBytes_parThresh (s : State) (a : Nat) (bs : List Byte) :
    (s.storeBytes a bs).parThresh = s.parThresh := rfl
@[simp] theorem State.storeBytes_pending (s : State) (a : Nat) (bs : List Byte) :
    (s.storeBytes a bs).pending = s.pending := rfl
@[simp] theorem State.storeBytes_rings (s : State) (a : Nat) (bs : List Byte) :
    (s.storeBytes a bs).rings = s.rings := rfl
@[simp] theorem State.storeBytes_awgn (s : State) (a : Nat) (bs : List Byte) :
    (s.storeBytes a bs).awgn = s.awgn := rfl
@[simp] theorem State.storeBytes_inbox (s : State) (a : Nat) (bs : List Byte) :
    (s.storeBytes a bs).inbox = s.inbox := rfl
@[simp] theorem State.storeBytes_rdata (s : State) (a : Nat) (bs : List Byte) :
    (s.storeBytes a bs).rdata = s.rdata := rfl
@[simp] theorem State.storeBytes_draws (s : State) (a : Nat) (bs : List Byte) :
    (s.storeBytes a bs).draws = s.draws := rfl
@[simp] theorem State.storeBytes_epoch (s : State) (a : Nat) (bs : List Byte) :
    (s.storeBytes a bs).epoch = s.epoch := rfl

/-! ### `storeCs` -/

@[simp] theorem State.storeCs_build (s : State) (a : Nat) (zs : List Cx) :
    (s.storeCs a zs).build = s.build := rfl
@[simp] theorem State.storeCs_ovr (s : State) (a : Nat) (zs : List Cx) :
    (s.storeCs a zs).ovr = s.ovr := rfl
@[simp] theorem State.storeCs_code (s : State) (a : Nat) (zs : List Cx) :
    (s.storeCs a zs).code = s.code := rfl
@[simp] theorem State.storeCs_info (s : State) (a : Nat) (zs : List Cx) :
    (s.storeCs a zs).info = s.info := rfl
@[simp] theorem State.storeCs_res (s : State) (a : Nat) (zs : List Cx) :
    (s.storeCs a zs).res = s.res := rfl
@[simp] theorem State.storeCs_cmd (s : State) (a : Nat) (zs : List Cx) :
    (s.storeCs a zs).cmd = s.cmd := rfl
@[simp] theorem State.storeCs_a0 (s : State) (a : Nat) (zs : List Cx) :
    (s.storeCs a zs).a0 = s.a0 := rfl
@[simp] theorem State.storeCs_a1 (s : State) (a : Nat) (zs : List Cx) :
    (s.storeCs a zs).a1 = s.a1 := rfl
@[simp] theorem State.storeCs_a2 (s : State) (a : Nat) (zs : List Cx) :
    (s.storeCs a zs).a2 = s.a2 := rfl
@[simp] theorem State.storeCs_a3 (s : State) (a : Nat) (zs : List Cx) :
    (s.storeCs a zs).a3 = s.a3 := rfl
@[simp] theorem State.storeCs_fargLo (s : State) (a : Nat) (zs : List Cx) :
    (s.storeCs a zs).fargLo = s.fargLo := rfl
@[simp] theorem State.storeCs_fargHi (s : State) (a : Nat) (zs : List Cx) :
    (s.storeCs a zs).fargHi = s.fargHi := rfl
@[simp] theorem State.storeCs_parThresh (s : State) (a : Nat) (zs : List Cx) :
    (s.storeCs a zs).parThresh = s.parThresh := rfl
@[simp] theorem State.storeCs_pending (s : State) (a : Nat) (zs : List Cx) :
    (s.storeCs a zs).pending = s.pending := rfl
@[simp] theorem State.storeCs_rings (s : State) (a : Nat) (zs : List Cx) :
    (s.storeCs a zs).rings = s.rings := rfl
@[simp] theorem State.storeCs_awgn (s : State) (a : Nat) (zs : List Cx) :
    (s.storeCs a zs).awgn = s.awgn := rfl
@[simp] theorem State.storeCs_inbox (s : State) (a : Nat) (zs : List Cx) :
    (s.storeCs a zs).inbox = s.inbox := rfl
@[simp] theorem State.storeCs_rdata (s : State) (a : Nat) (zs : List Cx) :
    (s.storeCs a zs).rdata = s.rdata := rfl
@[simp] theorem State.storeCs_draws (s : State) (a : Nat) (zs : List Cx) :
    (s.storeCs a zs).draws = s.draws := rfl
@[simp] theorem State.storeCs_epoch (s : State) (a : Nat) (zs : List Cx) :
    (s.storeCs a zs).epoch = s.epoch := rfl

/-! ### `storeFs` -/

@[simp] theorem State.storeFs_build (s : State) (a : Nat) (xs : List Fp) :
    (s.storeFs a xs).build = s.build := rfl
@[simp] theorem State.storeFs_ovr (s : State) (a : Nat) (xs : List Fp) :
    (s.storeFs a xs).ovr = s.ovr := rfl
@[simp] theorem State.storeFs_code (s : State) (a : Nat) (xs : List Fp) :
    (s.storeFs a xs).code = s.code := rfl
@[simp] theorem State.storeFs_info (s : State) (a : Nat) (xs : List Fp) :
    (s.storeFs a xs).info = s.info := rfl
@[simp] theorem State.storeFs_res (s : State) (a : Nat) (xs : List Fp) :
    (s.storeFs a xs).res = s.res := rfl
@[simp] theorem State.storeFs_cmd (s : State) (a : Nat) (xs : List Fp) :
    (s.storeFs a xs).cmd = s.cmd := rfl
@[simp] theorem State.storeFs_a0 (s : State) (a : Nat) (xs : List Fp) :
    (s.storeFs a xs).a0 = s.a0 := rfl
@[simp] theorem State.storeFs_a1 (s : State) (a : Nat) (xs : List Fp) :
    (s.storeFs a xs).a1 = s.a1 := rfl
@[simp] theorem State.storeFs_a2 (s : State) (a : Nat) (xs : List Fp) :
    (s.storeFs a xs).a2 = s.a2 := rfl
@[simp] theorem State.storeFs_a3 (s : State) (a : Nat) (xs : List Fp) :
    (s.storeFs a xs).a3 = s.a3 := rfl
@[simp] theorem State.storeFs_fargLo (s : State) (a : Nat) (xs : List Fp) :
    (s.storeFs a xs).fargLo = s.fargLo := rfl
@[simp] theorem State.storeFs_fargHi (s : State) (a : Nat) (xs : List Fp) :
    (s.storeFs a xs).fargHi = s.fargHi := rfl
@[simp] theorem State.storeFs_parThresh (s : State) (a : Nat) (xs : List Fp) :
    (s.storeFs a xs).parThresh = s.parThresh := rfl
@[simp] theorem State.storeFs_pending (s : State) (a : Nat) (xs : List Fp) :
    (s.storeFs a xs).pending = s.pending := rfl
@[simp] theorem State.storeFs_rings (s : State) (a : Nat) (xs : List Fp) :
    (s.storeFs a xs).rings = s.rings := rfl
@[simp] theorem State.storeFs_awgn (s : State) (a : Nat) (xs : List Fp) :
    (s.storeFs a xs).awgn = s.awgn := rfl
@[simp] theorem State.storeFs_inbox (s : State) (a : Nat) (xs : List Fp) :
    (s.storeFs a xs).inbox = s.inbox := rfl
@[simp] theorem State.storeFs_rdata (s : State) (a : Nat) (xs : List Fp) :
    (s.storeFs a xs).rdata = s.rdata := rfl
@[simp] theorem State.storeFs_draws (s : State) (a : Nat) (xs : List Fp) :
    (s.storeFs a xs).draws = s.draws := rfl
@[simp] theorem State.storeFs_epoch (s : State) (a : Nat) (xs : List Fp) :
    (s.storeFs a xs).epoch = s.epoch := rfl

/-! ### `setRing` -/

@[simp] theorem State.setRing_build (s : State) (r : Fin 16) (g : Ring) :
    (s.setRing r g).build = s.build := rfl
@[simp] theorem State.setRing_ovr (s : State) (r : Fin 16) (g : Ring) :
    (s.setRing r g).ovr = s.ovr := rfl
@[simp] theorem State.setRing_code (s : State) (r : Fin 16) (g : Ring) :
    (s.setRing r g).code = s.code := rfl
@[simp] theorem State.setRing_info (s : State) (r : Fin 16) (g : Ring) :
    (s.setRing r g).info = s.info := rfl
@[simp] theorem State.setRing_res (s : State) (r : Fin 16) (g : Ring) :
    (s.setRing r g).res = s.res := rfl
@[simp] theorem State.setRing_cmd (s : State) (r : Fin 16) (g : Ring) :
    (s.setRing r g).cmd = s.cmd := rfl
@[simp] theorem State.setRing_a0 (s : State) (r : Fin 16) (g : Ring) :
    (s.setRing r g).a0 = s.a0 := rfl
@[simp] theorem State.setRing_a1 (s : State) (r : Fin 16) (g : Ring) :
    (s.setRing r g).a1 = s.a1 := rfl
@[simp] theorem State.setRing_a2 (s : State) (r : Fin 16) (g : Ring) :
    (s.setRing r g).a2 = s.a2 := rfl
@[simp] theorem State.setRing_a3 (s : State) (r : Fin 16) (g : Ring) :
    (s.setRing r g).a3 = s.a3 := rfl
@[simp] theorem State.setRing_fargLo (s : State) (r : Fin 16) (g : Ring) :
    (s.setRing r g).fargLo = s.fargLo := rfl
@[simp] theorem State.setRing_fargHi (s : State) (r : Fin 16) (g : Ring) :
    (s.setRing r g).fargHi = s.fargHi := rfl
@[simp] theorem State.setRing_parThresh (s : State) (r : Fin 16) (g : Ring) :
    (s.setRing r g).parThresh = s.parThresh := rfl
@[simp] theorem State.setRing_pending (s : State) (r : Fin 16) (g : Ring) :
    (s.setRing r g).pending = s.pending := rfl
@[simp] theorem State.setRing_awgn (s : State) (r : Fin 16) (g : Ring) :
    (s.setRing r g).awgn = s.awgn := rfl
@[simp] theorem State.setRing_lmem (s : State) (r : Fin 16) (g : Ring) :
    (s.setRing r g).lmem = s.lmem := rfl
@[simp] theorem State.setRing_inbox (s : State) (r : Fin 16) (g : Ring) :
    (s.setRing r g).inbox = s.inbox := rfl
@[simp] theorem State.setRing_rdata (s : State) (r : Fin 16) (g : Ring) :
    (s.setRing r g).rdata = s.rdata := rfl
@[simp] theorem State.setRing_draws (s : State) (r : Fin 16) (g : Ring) :
    (s.setRing r g).draws = s.draws := rfl
@[simp] theorem State.setRing_epoch (s : State) (r : Fin 16) (g : Ring) :
    (s.setRing r g).epoch = s.epoch := rfl

/-! ### `drawing` -/

@[simp] theorem State.drawing_build {α : Type} (s : State) (c : Draw α) :
    (s.drawing c).2.build = s.build := rfl
@[simp] theorem State.drawing_ovr {α : Type} (s : State) (c : Draw α) :
    (s.drawing c).2.ovr = s.ovr := rfl
@[simp] theorem State.drawing_code {α : Type} (s : State) (c : Draw α) :
    (s.drawing c).2.code = s.code := rfl
@[simp] theorem State.drawing_info {α : Type} (s : State) (c : Draw α) :
    (s.drawing c).2.info = s.info := rfl
@[simp] theorem State.drawing_res {α : Type} (s : State) (c : Draw α) :
    (s.drawing c).2.res = s.res := rfl
@[simp] theorem State.drawing_cmd {α : Type} (s : State) (c : Draw α) :
    (s.drawing c).2.cmd = s.cmd := rfl
@[simp] theorem State.drawing_a0 {α : Type} (s : State) (c : Draw α) :
    (s.drawing c).2.a0 = s.a0 := rfl
@[simp] theorem State.drawing_a1 {α : Type} (s : State) (c : Draw α) :
    (s.drawing c).2.a1 = s.a1 := rfl
@[simp] theorem State.drawing_a2 {α : Type} (s : State) (c : Draw α) :
    (s.drawing c).2.a2 = s.a2 := rfl
@[simp] theorem State.drawing_a3 {α : Type} (s : State) (c : Draw α) :
    (s.drawing c).2.a3 = s.a3 := rfl
@[simp] theorem State.drawing_fargLo {α : Type} (s : State) (c : Draw α) :
    (s.drawing c).2.fargLo = s.fargLo := rfl
@[simp] theorem State.drawing_fargHi {α : Type} (s : State) (c : Draw α) :
    (s.drawing c).2.fargHi = s.fargHi := rfl
@[simp] theorem State.drawing_parThresh {α : Type} (s : State) (c : Draw α) :
    (s.drawing c).2.parThresh = s.parThresh := rfl
@[simp] theorem State.drawing_pending {α : Type} (s : State) (c : Draw α) :
    (s.drawing c).2.pending = s.pending := rfl
@[simp] theorem State.drawing_rings {α : Type} (s : State) (c : Draw α) :
    (s.drawing c).2.rings = s.rings := rfl
@[simp] theorem State.drawing_awgn {α : Type} (s : State) (c : Draw α) :
    (s.drawing c).2.awgn = s.awgn := rfl
@[simp] theorem State.drawing_lmem {α : Type} (s : State) (c : Draw α) :
    (s.drawing c).2.lmem = s.lmem := rfl
@[simp] theorem State.drawing_inbox {α : Type} (s : State) (c : Draw α) :
    (s.drawing c).2.inbox = s.inbox := rfl
@[simp] theorem State.drawing_rdata {α : Type} (s : State) (c : Draw α) :
    (s.drawing c).2.rdata = s.rdata := rfl
@[simp] theorem State.drawing_epoch {α : Type} (s : State) (c : Draw α) :
    (s.drawing c).2.epoch = s.epoch := rfl

/-! ### `complete_raise` -/

@[simp] theorem State.complete_raise_build (s : State) (e : StatusCode) (i : Word) :
    (s.complete (.raise e i)).build = s.build := rfl
@[simp] theorem State.complete_raise_ovr (s : State) (e : StatusCode) (i : Word) :
    (s.complete (.raise e i)).ovr = s.ovr := rfl
@[simp] theorem State.complete_raise_res (s : State) (e : StatusCode) (i : Word) :
    (s.complete (.raise e i)).res = s.res := rfl
@[simp] theorem State.complete_raise_cmd (s : State) (e : StatusCode) (i : Word) :
    (s.complete (.raise e i)).cmd = s.cmd := rfl
@[simp] theorem State.complete_raise_a0 (s : State) (e : StatusCode) (i : Word) :
    (s.complete (.raise e i)).a0 = s.a0 := rfl
@[simp] theorem State.complete_raise_a1 (s : State) (e : StatusCode) (i : Word) :
    (s.complete (.raise e i)).a1 = s.a1 := rfl
@[simp] theorem State.complete_raise_a2 (s : State) (e : StatusCode) (i : Word) :
    (s.complete (.raise e i)).a2 = s.a2 := rfl
@[simp] theorem State.complete_raise_a3 (s : State) (e : StatusCode) (i : Word) :
    (s.complete (.raise e i)).a3 = s.a3 := rfl
@[simp] theorem State.complete_raise_fargLo (s : State) (e : StatusCode) (i : Word) :
    (s.complete (.raise e i)).fargLo = s.fargLo := rfl
@[simp] theorem State.complete_raise_fargHi (s : State) (e : StatusCode) (i : Word) :
    (s.complete (.raise e i)).fargHi = s.fargHi := rfl
@[simp] theorem State.complete_raise_parThresh (s : State) (e : StatusCode) (i : Word) :
    (s.complete (.raise e i)).parThresh = s.parThresh := rfl
@[simp] theorem State.complete_raise_rings (s : State) (e : StatusCode) (i : Word) :
    (s.complete (.raise e i)).rings = s.rings := rfl
@[simp] theorem State.complete_raise_awgn (s : State) (e : StatusCode) (i : Word) :
    (s.complete (.raise e i)).awgn = s.awgn := rfl
@[simp] theorem State.complete_raise_lmem (s : State) (e : StatusCode) (i : Word) :
    (s.complete (.raise e i)).lmem = s.lmem := rfl
@[simp] theorem State.complete_raise_inbox (s : State) (e : StatusCode) (i : Word) :
    (s.complete (.raise e i)).inbox = s.inbox := rfl
@[simp] theorem State.complete_raise_rdata (s : State) (e : StatusCode) (i : Word) :
    (s.complete (.raise e i)).rdata = s.rdata := rfl
@[simp] theorem State.complete_raise_draws (s : State) (e : StatusCode) (i : Word) :
    (s.complete (.raise e i)).draws = s.draws := rfl
@[simp] theorem State.complete_raise_epoch (s : State) (e : StatusCode) (i : Word) :
    (s.complete (.raise e i)).epoch = s.epoch := rfl

/-! ### What each update writes -/

@[simp] theorem State.setRing_rings (s : State) (r : Fin 16) (g : Ring) :
    (s.setRing r g).rings = s.rings.set r.val g := rfl
@[simp] theorem State.drawing_draws {α : Type} (s : State) (c : Draw α) :
    (s.drawing c).2.draws = (c s.draws).2 := rfl
@[simp] theorem State.drawing_fst {α : Type} (s : State) (c : Draw α) :
    (s.drawing c).1 = (c s.draws).1 := rfl
@[simp] theorem State.complete_code_raise (s : State) (e : StatusCode) (i : Word) :
    (s.complete (.raise e i)).code = e := rfl
@[simp] theorem State.complete_info_raise (s : State) (e : StatusCode) (i : Word) :
    (s.complete (.raise e i)).info = i := rfl
@[simp] theorem State.complete_code_done (s t : State) : (s.complete (.done t)).code = .ok := rfl
@[simp] theorem State.complete_info_done (s t : State) : (s.complete (.done t)).info = 0 := rfl
@[simp] theorem State.complete_pending (s : State) (r : Result) : (s.complete r).pending = none := by
  cases r <;> rfl

theorem State.complete_done (s t : State) :
    s.complete (.done t) = { t with code := .ok, info := 0, pending := none } := rfl
theorem State.complete_raise (s : State) (e : StatusCode) (i : Word) :
    s.complete (.raise e i) = { s with code := e, info := i, pending := none } := rfl

end Sys2Proof.Machine
end

