-- ==== Sys2Proof/Laws/Memory.lean ====
section
/-! SUPPORT. LMEM: read after write, the canonical form, and what a store does to every byte. -/

namespace Sys2Proof.Machine

/-! ### One byte -/

theorem lookup_insertCell (x a : Nat) (b : Byte) (m : List Host.Cell) :
    lookup x (insertCell a b m) = if x = a then some b else lookup x m := by
  induction m with
  | nil => rfl
  | cons c rest ih =>
    obtain ⟨k, v⟩ := c
    by_cases hlt : a < k
    · simp [insertCell, hlt, lookup]
    · by_cases heq : a = k
      · subst heq
        by_cases hx : x = a <;> simp [insertCell, lookup, hx]
      · by_cases hx : x = k
        · subst hx
          simp [insertCell, hlt, heq, lookup, Ne.symm heq]
        · simp [insertCell, hlt, heq, lookup, hx, ih]

theorem Memory.get?_put (m : Memory) (x a : Nat) (b : Byte) :
    (m.put a b).get? x = if x = a then some b else m.get? x :=
  lookup_insertCell x a b m.cells

theorem Memory.get?_putAll (m : Memory) (x a : Nat) (bs : List Byte) :
    (m.putAll a bs).get? x = if a ≤ x ∧ x < a + bs.length then bs[x - a]? else m.get? x := by
  induction bs generalizing m a with
  | nil =>
    have : ¬ (a ≤ x ∧ x < a + ([] : List Byte).length) := by simp only [List.length_nil]; omega
    rw [if_neg this]; rfl
  | cons b bs ih =>
    show ((m.put a b).putAll (a + 1) bs).get? x = _
    rw [ih, Memory.get?_put]
    by_cases hx : x = a
    · subst hx
      have h1 : ¬ (x + 1 ≤ x ∧ x < x + 1 + bs.length) := by omega
      simp
    · by_cases hin : a + 1 ≤ x ∧ x < a + 1 + bs.length
      · have h2 : a ≤ x ∧ x < a + (b :: bs).length := by simp only [List.length_cons]; omega
        have h3 : x - a = (x - (a + 1)) + 1 := by omega
        rw [if_pos hin, if_pos h2, h3, List.getElem?_cons_succ]
      · have h2 : ¬ (a ≤ x ∧ x < a + (b :: bs).length) := by simp only [List.length_cons]; omega
        rw [if_neg hin, if_neg h2, if_neg hx]

/-! ### The canonical form -/

theorem risingFrom_mono {lo lo' : Nat} (h : lo' ≤ lo) (m : List Host.Cell) :
    risingFrom lo m = true → risingFrom lo' m = true := by
  cases m with
  | nil => simp [risingFrom]
  | cons c rest =>
    simp only [risingFrom, Bool.and_eq_true, decide_eq_true_eq]
    exact fun h' => ⟨by omega, h'.2⟩

theorem risingFrom_insertCell (lo a : Nat) (b : Byte) (m : List Host.Cell) (hlo : lo ≤ a)
    (h : risingFrom lo m = true) : risingFrom lo (insertCell a b m) = true := by
  induction m generalizing lo with
  | nil => simp [insertCell, risingFrom, hlo]
  | cons c rest ih =>
    obtain ⟨k, v⟩ := c
    simp only [risingFrom, Bool.and_eq_true, decide_eq_true_eq] at h
    by_cases hlt : a < k
    · simp only [insertCell, hlt, if_true, risingFrom, Bool.and_eq_true, decide_eq_true_eq]
      exact ⟨hlo, by omega, h.2⟩
    · by_cases heq : a = k
      · subst heq
        simp only [insertCell, hlt, if_false, if_true, risingFrom, Bool.and_eq_true, decide_eq_true_eq]
        exact h
      · simp only [insertCell, hlt, heq, if_false, risingFrom, Bool.and_eq_true, decide_eq_true_eq]
        exact ⟨h.1, ih (k + 1) (by omega) h.2⟩

/-- A write keeps the canonical form. -/
theorem Memory.wf_put (m : Memory) (a : Nat) (b : Byte) (h : m.wf = true) : (m.put a b).wf = true :=
  risingFrom_insertCell 0 a b m.cells (Nat.zero_le _) h

theorem Memory.wf_putAll (m : Memory) (a : Nat) (bs : List Byte) (h : m.wf = true) :
    (m.putAll a bs).wf = true := by
  induction bs generalizing m a with
  | nil => exact h
  | cons b bs ih => exact ih (m.put a b) (a + 1) (Memory.wf_put m a b h)

theorem State.resetOf_lmem_wf (b : Build) (n : Nat) : (State.resetOf b n).lmem.wf = true := rfl

/-- The listed addresses after a write: those before, and the one written. -/
theorem mem_insertCell {a : Nat} {b : Byte} {m : List Host.Cell} {c : Host.Cell}
    (h : c ∈ insertCell a b m) : c.1 = a ∨ c ∈ m := by
  induction m with
  | nil => simp [insertCell] at h; simp [h]
  | cons d rest ih =>
    obtain ⟨k, v⟩ := d
    simp only [insertCell] at h
    split at h
    · rcases List.mem_cons.mp h with h | h
      · simp [h]
      · exact Or.inr h
    · split at h
      · rcases List.mem_cons.mp h with h | h
        · simp [h]
        · exact Or.inr (List.mem_cons_of_mem _ h)
      · rcases List.mem_cons.mp h with h | h
        · simp [h]
        · exact (ih h).imp id (List.mem_cons_of_mem _)

theorem Memory.mem_putAll {m : Memory} {a : Nat} {bs : List Byte} {c : Host.Cell}
    (h : c ∈ (m.putAll a bs).cells) : (a ≤ c.1 ∧ c.1 < a + bs.length) ∨ c ∈ m.cells := by
  induction bs generalizing m a with
  | nil => exact Or.inr h
  | cons b bs ih =>
    simp only [List.length_cons]
    rcases ih (m := m.put a b) (a := a + 1) h with h | h
    · left; omega
    · rcases mem_insertCell h with h | h
      · left; omega
      · exact Or.inr h

/-! ### What a store does to every byte of LMEM -/

/-- After a store, a byte of the stored range reads as stored and every other byte as before. -/
theorem State.loadB_storeBytes (s : State) (a x : Nat) (bs : List Byte) :
    (s.storeBytes a bs).loadB x = if a ≤ x then bs.getD (x - a) (s.loadB x) else s.loadB x := by
  unfold State.loadB
  simp only [State.storeBytes, Memory.get?_putAll]
  by_cases h : a ≤ x ∧ x < a + bs.length
  · have hlt : x - a < bs.length := by omega
    simp [h, List.getD_eq_getElem?_getD, List.getElem?_eq_getElem hlt]
  · rw [if_neg h]
    by_cases ha : a ≤ x
    · have hge : bs.length ≤ x - a := by omega
      simp [ha, List.getD_eq_getElem?_getD, List.getElem?_eq_none hge]
    · simp [ha]

theorem State.loadB_storeBytes_outside (s : State) {a x : Nat} {bs : List Byte}
    (h : x < a ∨ a + bs.length ≤ x) : (s.storeBytes a bs).loadB x = s.loadB x := by
  rw [State.loadB_storeBytes]
  by_cases ha : a ≤ x
  · have hge : bs.length ≤ x - a := by omega
    simp [ha, List.getD_eq_getElem?_getD, List.getElem?_eq_none hge]
  · simp [ha]

@[simp] theorem State.loadBytes_length (s : State) (a n : Nat) : (s.loadBytes a n).length = n := by
  simp [State.loadBytes]

@[simp] theorem State.loadCs_length (s : State) (a n : Nat) : (s.loadCs a n).length = n := by
  simp [State.loadCs]

/-- Reading back a stored range gives the stored bytes. -/
theorem State.loadBytes_storeBytes (s : State) (a : Nat) (bs : List Byte) :
    (s.storeBytes a bs).loadBytes a bs.length = bs := by
  apply List.ext_getElem (by simp)
  intro i h1 h2
  simp [State.loadBytes, State.loadB_storeBytes, List.getD_eq_getElem?_getD, List.getElem?_eq_getElem h2]

/-! ### Byte order -/

@[simp] theorem bytesLE_length (n v : Nat) : (bytesLE n v).length = n := by
  induction n generalizing v with
  | zero => rfl
  | succ n ih => simp [bytesLE, ih]

/-- Splitting a value into bytes and joining them again keeps its low `8n` bits. -/
theorem valueLE_bytesLE (n v : Nat) : valueLE (bytesLE n v) = v % 2 ^ (8 * n) := by
  induction n generalizing v with
  | zero => simp [bytesLE, valueLE, Nat.mod_one]
  | succ n ih =>
    simp only [bytesLE, valueLE, ih, BitVec.toNat_ofNat]
    rw [show 8 * (n + 1) = 8 + 8 * n by ring, pow_add]
    exact (Nat.mod_mul).symm

@[simp] theorem fBytes_length (p : Precision) (x : Fp) : (fBytes p x).length = p.width := by
  simp [fBytes]

@[simp] theorem cBytes_length (p : Precision) (z : Cx) : (cBytes p z).length = 2 * p.width := by
  simp [cBytes]; ring

theorem flatMap_length_const {α : Type} (f : α → List Byte) (n : Nat) (h : ∀ a, (f a).length = n)
    (xs : List α) : (xs.flatMap f).length = n * xs.length := by
  induction xs with
  | nil => simp
  | cons x xs ih => simp [ih, h]; ring

theorem cBytes_flatMap_length (p : Precision) (zs : List Cx) :
    (zs.flatMap (cBytes p)).length = 2 * p.width * zs.length :=
  flatMap_length_const _ _ (cBytes_length p) zs

theorem fBytes_flatMap_length (p : Precision) (xs : List Fp) :
    (xs.flatMap (fBytes p)).length = p.width * xs.length :=
  flatMap_length_const _ _ (fBytes_length p) xs

end Sys2Proof.Machine
end

