-- ==== Sys2Proof/Laws/Ops.lean ====
section
/-! SUPPORT. What each shared operation can do, said once. -/

namespace Sys2Proof.Machine

/-! ### Performing and completing a command -/

theorem State.perform_pending {s : State} {q : Pending} (h : s.pending = some q) (body : Pending → Result) :
    s.perform body = .next (s.complete (body q)) := by
  simp [State.perform, h]

theorem State.perform_idle {s : State} (h : s.pending = none) (body : Pending → Result) :
    s.perform body = .next s := by
  simp [State.perform, h]

/-- All that performing a command can do: nothing when idle, else complete. -/
theorem State.perform_cases {s t : State} {body : Pending → Result} (h : s.perform body = .next t) :
    (s.pending = none ∧ t = s) ∨ ∃ q, s.pending = some q ∧ t = s.complete (body q) := by
  unfold State.perform at h
  split at h
  · rename_i hp; cases h; exact Or.inl ⟨hp, rfl⟩
  · rename_i q hp; cases h; exact Or.inr ⟨q, hp, rfl⟩

/-- All that completion can do (60_exceptions.md R240). -/
theorem State.complete_cases (s : State) (r : Result) :
    (∃ t, r = .done t ∧ s.complete r = { t with code := .ok, info := 0, pending := none }) ∨
    (∃ e i, r = .raise e i ∧ s.complete r = { s with code := e, info := i, pending := none }) := by
  cases r with
  | done t => exact Or.inl ⟨t, rfl, rfl⟩
  | raise e i => exact Or.inr ⟨e, i, rfl, rfl⟩

/-! ### The ring file -/

theorem State.withRing_some {s : State} {q : Pending} {r : Fin 16} {g : Ring} (h : s.rings[r.val]? = some g)
    (k : Ring → Result) : s.withRing q r k = k g := by
  simp [State.withRing, h]

theorem State.withRing_cases (s : State) (q : Pending) (r : Fin 16) (k : Ring → Result) :
    (s.rings[r.val]? = none ∧ s.withRing q r k = .raise .illegalCmd q.c) ∨
    (∃ g, s.rings[r.val]? = some g ∧ s.withRing q r k = k g) := by
  unfold State.withRing
  cases h : s.rings[r.val]? with
  | none => exact Or.inl ⟨rfl, rfl⟩
  | some g => exact Or.inr ⟨g, rfl, rfl⟩

theorem State.withValidRing_some {s : State} {q : Pending} {r : Fin 16} {g : Ring}
    (h : s.rings[r.val]? = some g) (hv : g.valid = true) (k : Ring → Result) :
    s.withValidRing q r k = k g := by
  simp [State.withValidRing, State.withRing, h, hv]

theorem State.withValidRing_cases (s : State) (q : Pending) (r : Fin 16) (k : Ring → Result) :
    (s.rings[r.val]? = none ∧ s.withValidRing q r k = .raise .illegalCmd q.c) ∨
    (∃ g, s.rings[r.val]? = some g ∧ g.valid = false ∧
      s.withValidRing q r k = .raise .notInit (BitVec.ofNat 32 r.val)) ∨
    (∃ g, s.rings[r.val]? = some g ∧ g.valid = true ∧ s.withValidRing q r k = k g) := by
  unfold State.withValidRing
  rcases State.withRing_cases s q r
    (fun g => if g.valid then k g else .raise .notInit (BitVec.ofNat 32 r.val)) with ⟨h, e⟩ | ⟨g, h, e⟩
  · exact Or.inl ⟨h, e⟩
  · right
    cases hv : g.valid with
    | false => exact Or.inl ⟨g, h, hv, by simp [e, hv]⟩
    | true => exact Or.inr ⟨g, h, hv, by simp [e, hv]⟩

/-- A command's own writes keep the host-visible registers it may not write. -/
theorem State.writeSlots_same (old : State) (g : Ring) (src : Nat) (ks : List Nat) (s : State) :
    old.writeSlots g src ks s = { s with lmem := (old.writeSlots g src ks s).lmem } := by
  induction ks generalizing s with
  | nil => rfl
  | cons k ks ih => rw [State.writeSlots, ih]; rfl

theorem State.writeSlots_lmem_wf (old : State) (g : Ring) (src : Nat) (ks : List Nat) (s : State)
    (h : s.lmem.wf = true) : (old.writeSlots g src ks s).lmem.wf = true := by
  induction ks generalizing s with
  | nil => exact h
  | cons k ks ih => exact ih _ (Memory.wf_putAll _ _ _ h)

/-! ### The region checks -/

theorem State.misaligned_eq_false {s : State} {a : Word} : s.misaligned a = false ↔ a.toNat % s.w = 0 := by
  simp [State.misaligned]

theorem State.outside_eq_false {s : State} {a : Word} {n : Nat} :
    s.outside a n = false ↔ a.toNat + n ≤ s.build.memBytes := by
  simp [State.outside]

/-! ### Every command answers a next state -/

/-- No command faults or is refused (60_exceptions.md R249). -/
theorem exec_next (i : Instr) (s : State) : ∃ t, exec i s = .next t := by
  have key : ∀ body : Pending → Result, ∃ t, s.perform body = .next t := by
    intro body
    cases h : s.pending with
    | none => exact ⟨s, State.perform_idle h body⟩
    | some q => exact ⟨_, State.perform_pending h body⟩
  cases i <;> exact key _

end Sys2Proof.Machine
end

