-- ==== Sys2Proof/Laws/PerInstr.lean ====
section
/-! SUPPORT. One lemma for each command, over its syntax: the fields of its encoded word (30_encoding.md R80). -/

namespace Sys2Proof.Laws.Fields

/-- The word `encode i` has the command's OPC, RS and FL in their places and 0 in RSV. -/
def Statement (i : Instr) : Prop :=
  opcField (encode i) = i.opc ∧ rsField (encode i) = i.rs ∧ flField (encode i) = i.fl ∧
    rsvField (encode i) = 0

theorem ringNew (r : Fin 16) (kind : RingKind) : Statement (.ringNew r kind) := by
  unfold Statement; cases kind <;> (revert r; decide)
theorem ringSize (r : Fin 16) : Statement (.ringSize r) := by unfold Statement; revert r; decide
theorem ringAt (r : Fin 16) : Statement (.ringAt r) := by unfold Statement; revert r; decide
theorem ringPush1 (r : Fin 16) : Statement (.ringPush1 r) := by unfold Statement; revert r; decide
theorem ringPushN (r : Fin 16) : Statement (.ringPushN r) := by unfold Statement; revert r; decide
theorem ringRead (r : Fin 16) : Statement (.ringRead r) := by unfold Statement; revert r; decide
theorem fft : Statement .fft := by unfold Statement; decide
theorem ifft : Statement .ifft := by unfold Statement; decide
theorem ofdmTx : Statement .ofdmTx := by unfold Statement; decide
theorem ofdmRx : Statement .ofdmRx := by unfold Statement; decide
theorem qamEnc : Statement .qamEnc := by unfold Statement; decide
theorem qamDecHard : Statement .qamDecHard := by unfold Statement; decide
theorem qamDecSoft : Statement .qamDecSoft := by unfold Statement; decide
theorem qamLlr : Statement .qamLlr := by unfold Statement; decide
theorem awgnInit (seedGiven : Bool) : Statement (.awgnInit seedGiven) := by
  unfold Statement; revert seedGiven; decide
theorem awgnSnr : Statement .awgnSnr := by unfold Statement; decide
theorem awgnApply (unitPower : Bool) : Statement (.awgnApply unitPower) := by
  unfold Statement; revert unitPower; decide

end Sys2Proof.Laws.Fields
end

