-- ==== Sys2Proof/Tests/Slice0.lean ====
section
/-! SUPPORT. Tests, and a witness for the hypotheses of every statement that has some. Expected values come from
spec/95_test_vectors.md (the id stands in each docstring) or from the rule named. -/

namespace Sys2Proof.Tests
open Sys2Proof.Machine

/-! ### Helpers -/

/-- The build of 95_test_vectors.md just after reset. -/
def base (p : Precision) : State := State.resetOf (vectorBuild p) 0

/-- F words, least significant byte first, at rising addresses from `a`. -/
def State.putF (s : State) (a : Nat) (ws : List Nat) : State := s.storeBytes a (ws.flatMap (bytesLE s.w))

def State.putB (s : State) (a : Nat) (bs : List Nat) : State := s.storeBytes a (bs.map (BitVec.ofNat 8))

def cmdOf (c a0 a1 a2 a3 : Word) : Pending := ⟨c, a0, a1, a2, a3, 0, 0⟩

/-- `s` with the command accepted and pending, nothing else to come. -/
def State.ready (s : State) (q : Pending) : State := { s with pending := some q, cmd := q.c }

def nextOf : Host.Outcome State Fault Refusal → Option State
  | .next t => some t
  | _ => none

def run (s : State) (q : Pending) : Option State := nextOf (step (State.ready s q))

def bytesAt (t : State) (a n : Nat) : List Nat := (t.loadBytes a n).map BitVec.toNat

def wordsAt (t : State) (a n : Nat) : List Nat := (List.range n).map fun k => t.memRead (a + t.w * k) t.w

def codeInfo (t : State) : StatusCode × Nat := (t.code, t.info.toNat)

def status (s : State) (q : Pending) : Option (StatusCode × Nat) := (run s q).map codeInfo

def words (s : State) (q : Pending) (a n : Nat) : Option (StatusCode × List Nat) :=
  (run s q).map fun t => (t.code, wordsAt t a n)

def bytes (s : State) (q : Pending) (a n : Nat) : Option (StatusCode × List Nat) :=
  (run s q).map fun t => (t.code, bytesAt t a n)

/-- Byte ring 0 at 0x500 with capacity 5, its data and cursor (V-RING-1 and after it). -/
def ring5 (p : Precision) (data : List Nat) (cur : Word) : State :=
  State.putB ((base p).setRing 0 ⟨true, .byte, 0x500, 5, cur⟩) 0x500 data

/-! ### Ill-formed commands (30_encoding.md R81, R87 item 4) -/

theorem test_illformed_ring_new : (Instr.ringNew 5 .byte).wf 4 = false := by decide
theorem test_illformed_ring_size : (Instr.ringSize 4).wf 4 = false := by decide
theorem test_illformed_ring_at : (Instr.ringAt 4).wf 4 = false := by decide
theorem test_illformed_ring_push1 : (Instr.ringPush1 15).wf 4 = false := by decide
theorem test_illformed_ring_pushN : (Instr.ringPushN 1).wf 1 = false := by decide
theorem test_illformed_ring_read : (Instr.ringRead 15).wf 15 = false := by decide
theorem test_wellformed_last_ring : (Instr.ringRead 15).wf 16 = true ∧ (Instr.ringAt 3).wf 4 = true := by decide

/-! ### Decoding: words written out field by field, RSV ‖ FL ‖ RS ‖ OPC (R80, R84) -/

theorem test_decode_ring_words :
    decode (0b000#19 ++ 1#1 ++ 0x3#4 ++ 0x01#8) = .ok (.ringNew 3 .byte) ∧
    decode (0b000#19 ++ 0#1 ++ 0x0#4 ++ 0x01#8) = .ok (.ringNew 0 .complex) ∧
    decode (0b000#19 ++ 0#1 ++ 0x2#4 ++ 0x02#8) = .ok (.ringSize 2) ∧
    decode (0b000#19 ++ 0#1 ++ 0x1#4 ++ 0x03#8) = .ok (.ringAt 1) ∧
    decode (0b000#19 ++ 0#1 ++ 0xF#4 ++ 0x04#8) = .ok (.ringPush1 15) ∧
    decode (0b000#19 ++ 0#1 ++ 0x4#4 ++ 0x05#8) = .ok (.ringPushN 4) ∧
    decode (0b000#19 ++ 0#1 ++ 0x8#4 ++ 0x06#8) = .ok (.ringRead 8) := by decide

theorem test_decode_fft_ofdm_words :
    decode (0b000#19 ++ 0#1 ++ 0x0#4 ++ 0x10#8) = .ok .fft ∧
    decode (0b000#19 ++ 0#1 ++ 0x0#4 ++ 0x11#8) = .ok .ifft ∧
    decode (0b000#19 ++ 0#1 ++ 0x0#4 ++ 0x20#8) = .ok .ofdmTx ∧
    decode (0b000#19 ++ 0#1 ++ 0x0#4 ++ 0x21#8) = .ok .ofdmRx := by decide

theorem test_decode_qam_words :
    decode (0b000#19 ++ 0#1 ++ 0x0#4 ++ 0x30#8) = .ok .qamEnc ∧
    decode (0b000#19 ++ 0#1 ++ 0x0#4 ++ 0x31#8) = .ok .qamDecHard ∧
    decode (0b000#19 ++ 0#1 ++ 0x0#4 ++ 0x32#8) = .ok .qamDecSoft ∧
    decode (0b000#19 ++ 0#1 ++ 0x0#4 ++ 0x33#8) = .ok .qamLlr := by decide

theorem test_decode_awgn_words :
    decode (0b000#19 ++ 1#1 ++ 0x0#4 ++ 0x40#8) = .ok (.awgnInit true) ∧
    decode (0b000#19 ++ 0#1 ++ 0x0#4 ++ 0x40#8) = .ok (.awgnInit false) ∧
    decode (0b000#19 ++ 0#1 ++ 0x0#4 ++ 0x41#8) = .ok .awgnSnr ∧
    decode (0b000#19 ++ 0#1 ++ 0x0#4 ++ 0x42#8) = .ok (.awgnApply false) ∧
    decode (0b000#19 ++ 1#1 ++ 0x0#4 ++ 0x42#8) = .ok (.awgnApply true) := by decide

/-- V-ERR-1, V-ERR-2, V-ERR-18, V-ERR-21, V-ERR-22, V-ERR-23. -/
theorem test_illegal_words :
    [0x0, 0x12, 0x502, 0x1010, 0x110, 0x2001].map (fun c => status (base .f64) (cmdOf (BitVec.ofNat 32 c) 0 0 0 0)) =
      [0x0, 0x12, 0x502, 0x1010, 0x110, 0x2001].map (fun c => some (.illegalCmd, c)) := by decide

/-- R89: a word longer than 32 bits is no command; shorter ones are zero-extended. -/
theorem test_decodeTableWord :
    decodeTableWord 32 0x1042 = some (.awgnApply true) ∧ decodeTableWord 8 0x10 = some .fft ∧
    decodeTableWord 64 0x100000010 = none := by decide

/-- The first step after reset performs every row of the opcode table (reset arguments: all 0). -/
theorem test_every_row_runs_from_reset :
    [0x01, 0x02, 0x03, 0x04, 0x05, 0x06, 0x10, 0x11, 0x20, 0x21, 0x30, 0x31, 0x32, 0x33, 0x40, 0x41, 0x42].map
      (fun w => (nextOf (step (State.reset.withFetchWord 32 w))).map (·.code)) =
    ([.badSize, .notInit, .notInit, .notInit, .notInit, .notInit, .badSize, .badSize, .badSize, .badSize,
      .ok, .ok, .ok, .ok, .ok, .notInit, .notInit] : List StatusCode).map some := by decide

/-! ### Ring commands -/

/-- V-RING-1, over bytes that were not 0. -/
theorem test_ring_new :
    (run (State.putB (base .f64) 0x4FF [7, 7, 7, 7, 7, 7, 7]) (cmdOf 0x1001 0x500 0 5 0)).map
      (fun t => (t.code, t.rings[0]?, bytesAt t 0x4FF 7)) =
    some (.ok, some ⟨true, .byte, 0x500, 5, 0⟩, [7, 0, 0, 0, 0, 0, 7]) := by decide

/-- V-ERR-14, V-ERR-15, V-ERR-16. -/
theorem test_ring_new_checks :
    status (base .f64) (cmdOf 0x1001 0 0 0 0) = some (.badSize, 0) ∧
    status (base .f64) (cmdOf 0x0001 4 0 2 0) = some (.badAlign, 4) ∧
    status (base .f64) (cmdOf 0x1001 4 0 2 0) = some (.ok, 0) := by decide

/-- V-RING-2, V-ERR-17. -/
theorem test_ring_size :
    (run (ring5 .f64 [0, 0, 0, 0, 0] 0) (cmdOf 0x0002 0 0 0 0)).map (fun t => (codeInfo t, t.res.toNat)) =
      some ((.ok, 0), 5) ∧
    status (base .f64) (cmdOf 0x0202 0 0 0 0) = some (.notInit, 2) := by decide

/-- V-RING-8. -/
theorem test_ring_at :
    bytes (ring5 .f64 [6, 7, 3, 4, 5] 2) (cmdOf 0x0003 0 0x610 0 4) 0x610 1 = some (.ok, [7]) := by decide

/-- V-RING-9, V-ERR-20. -/
theorem test_ring_at_checks :
    status (ring5 .f64 [6, 7, 3, 4, 5] 2) (cmdOf 0x0003 0 0x610 0 5) = some (.outOfRange, 5) ∧
    status (base .f64) (cmdOf 0x0103 0 0 0 99) = some (.notInit, 1) := by decide

/-- V-RING-3. -/
theorem test_ring_push1 :
    (run (State.putB (ring5 .f64 [0, 0, 0, 0, 0] 0) 0x400 [9]) (cmdOf 0x0004 0x400 0 0 0)).map
      (fun t => (bytesAt t 0x500 5, t.rings[0]?)) =
    some ([9, 0, 0, 0, 0], some ⟨true, .byte, 0x500, 5, 1⟩) := by decide

/-- V-RING-10. -/
theorem test_ring_push1_complex :
    (run (State.putF (State.putF ((base .f64).setRing 0 ⟨true, .complex, 0x800, 2, 0⟩) 0x800 [0, 0, 0, 0]) 0x400
        [0x3FF0000000000000, 0x4000000000000000]) (cmdOf 0x0004 0x400 0 0 0)).map
      (fun t => (wordsAt t 0x800 4, t.rings[0]?)) =
    some ([0x3FF0000000000000, 0x4000000000000000, 0, 0], some ⟨true, .complex, 0x800, 2, 1⟩) := by decide

/-- V-RING-5. -/
theorem test_ring_pushN_longer_than_ring :
    (run (State.putB (ring5 .f64 [0, 0, 0, 0, 0] 0) 0x400 [1, 2, 3, 4, 5, 6, 7, 8, 9, 10, 11, 12])
        (cmdOf 0x0005 0x400 0 12 0)).map (fun t => (bytesAt t 0x500 5, t.rings[0]?)) =
    some ([11, 12, 8, 9, 10], some ⟨true, .byte, 0x500, 5, 2⟩) := by decide

/-- V-RING-4's second push, and V-RING-12, whose source lies in the backing region. -/
theorem test_ring_pushN :
    (run (State.putB (ring5 .f64 [1, 2, 3, 4, 0] 4) 0x404 [5, 6, 7]) (cmdOf 0x0005 0x404 0 3 0)).map
      (fun t => (bytesAt t 0x500 5, t.rings[0]?)) =
      some ([6, 7, 3, 4, 5], some ⟨true, .byte, 0x500, 5, 2⟩) ∧
    (run (ring5 .f64 [6, 7, 3, 4, 5] 2) (cmdOf 0x0005 0x502 0 2 0)).map
      (fun t => (bytesAt t 0x500 5, t.rings[0]?)) =
      some ([6, 7, 3, 4, 5], some ⟨true, .byte, 0x500, 5, 4⟩) := by decide

/-- V-RING-4. -/
theorem test_ring_read :
    bytes (ring5 .f64 [6, 7, 3, 4, 5] 2) (cmdOf 0x0006 0 0x600 0 0) 0x600 5 = some (.ok, [3, 4, 5, 6, 7]) := by
  decide

/-! ### Transforms -/

/-- V-FFT-5: samples 1, 2, 3, 4. -/
theorem test_fft :
    words (State.putF (base .f64) 0x100 [0x3FF0000000000000, 0, 0x4000000000000000, 0, 0x4008000000000000, 0,
        0x4010000000000000, 0]) (cmdOf 0x10 0x100 0 4 0) 0x100 8 =
    some (.ok, [0x4024000000000000, 0, 0xC000000000000000, 0x4000000000000000, 0xC000000000000000, 0,
      0xC000000000000000, 0xC000000000000000]) := by decide +kernel

/-- V-FFT-17: the impulse at index 1, N = 8, in f32. -/
theorem test_fft_impulse_f32 :
    words (State.putF (base .f32) 0 [0, 0, 0x3F800000, 0, 0, 0, 0, 0, 0, 0, 0, 0, 0, 0, 0, 0])
      (cmdOf 0x10 0 0 8 0) 0 16 =
    some (.ok, [0x3F800000, 0x00000000, 0x3F3504F3, 0xBF3504F3, 0x00000000, 0xBF7FFFFF, 0xBF3504F2, 0xBF3504F2,
      0xBF800000, 0x00000000, 0xBF3504F3, 0x3F3504F3, 0x00000000, 0x3F7FFFFF, 0x3F3504F2, 0x3F3504F2]) := by
  decide +kernel

/-- V-FFT-8. -/
theorem test_ifft :
    words (State.putF (base .f64) 0 [0, 0, 0x4010000000000000, 0, 0, 0, 0, 0]) (cmdOf 0x11 0 0 4 0) 0 8 =
    some (.ok, [0x3FF0000000000000, 0, 0, 0x3FF0000000000000, 0xBFF0000000000000, 0, 0, 0xBFF0000000000000]) := by
  decide +kernel

/-- V-OFDM-1. -/
theorem test_ofdm_tx :
    words (State.putF (base .f64) 0 [0, 0, 0x4010000000000000, 0, 0, 0, 0, 0]) (cmdOf 0x20 0 0x200 4 2) 0x200 12 =
    some (.ok, [0xBFF0000000000000, 0, 0, 0xBFF0000000000000, 0x3FF0000000000000, 0, 0, 0x3FF0000000000000,
      0xBFF0000000000000, 0, 0, 0xBFF0000000000000]) := by decide +kernel

/-- V-ERR-9, V-ERR-10, V-ERR-11, V-ERR-13. -/
theorem test_ofdm_sizes :
    status (base .f64) (cmdOf 0x20 0 0 4 5) = some (.badSize, 5) ∧
    status (base .f64) (cmdOf 0x20 0 0 6 2) = some (.badSize, 6) ∧
    status (base .f64) (cmdOf 0x21 0 0 5 2) = some (.badSize, 5) ∧
    status (base .f64) (cmdOf 0x21 0 0 4 4) = some (.badSize, 4) := by decide

/-- V-OFDM-5, with `y` of V-OFDM-1. -/
theorem test_ofdm_rx :
    words (State.putF (base .f64) 0 [0xBFF0000000000000, 0, 0, 0xBFF0000000000000, 0x3FF0000000000000, 0, 0,
        0x3FF0000000000000, 0xBFF0000000000000, 0, 0, 0xBFF0000000000000]) (cmdOf 0x21 0 0x200 6 4) 0x200 4 =
    some (.ok, [0xBFF0000000000000, 0xBFF0000000000000, 0xBFF0000000000000, 0x3FF0000000000000]) := by
  decide +kernel

/-! ### 16-QAM -/

/-- The symbols of V-QAM-1, in f64. -/
def hiSymbols : List Nat := [0xBFD43D136248490F, 0xBFEE5B9D136C6D96, 0x3FEE5B9D136C6D96, 0xBFEE5B9D136C6D96,
  0xBFD43D136248490F, 0x3FEE5B9D136C6D96, 0x3FEE5B9D136C6D96, 0xBFD43D136248490F]

/-- A command with an F operand, in f64. -/
def cmdF (c a0 a1 a2 a3 lo hi : Word) : Pending := ⟨c, a0, a1, a2, a3, lo, hi⟩

/-- V-QAM-1. -/
theorem test_qam_enc :
    words (State.putB (base .f64) 0x100 [0x48, 0x69]) (cmdOf 0x30 0x100 0x200 2 0) 0x200 8 = some (.ok, hiSymbols) := by
  decide +kernel

/-- V-QAM-4. -/
theorem test_qam_dec_hard :
    bytes (State.putF (base .f64) 0x200 hiSymbols) (cmdOf 0x31 0x200 0x300 4 0) 0x300 2 =
      some (.ok, [0x48, 0x69]) := by decide +kernel

/-- V-QAM-14. -/
theorem test_qam_dec_hard_nearest :
    status (State.putF (base .f64) 0 [0x3FD43D136248490F, 0x3FD43D136248490F, 0x7FF0000000000000, 0])
      (cmdOf 0x31 0 0x300 2 0) = some (.nearest, 1) := by decide +kernel

/-- V-QAM-5: the variance is 0.3. -/
theorem test_qam_dec_soft :
    bytes (State.putF (base .f64) 0x200 hiSymbols) (cmdF 0x32 0x200 0x300 4 0 0x33333333 0x3FD33333) 0x300 2 =
      some (.ok, [0x48, 0x69]) := by decide +kernel

/-- V-QAM-15: the real part of the first symbol is a NaN. -/
theorem test_qam_dec_soft_nan :
    bytes (State.putF (base .f64) 0 [0x7FF8000000000000, 0, 0x3FD43D136248490F, 0x3FD43D136248490F])
      (cmdF 0x32 0 0x300 2 0 0 0x3FF00000) 0x300 1 = some (.ok, [0x0F]) := by decide +kernel

/-- V-QAM-6: the variance is 0.5. -/
theorem test_qam_llr :
    words (State.putF (base .f64) 0 [0x3FE3333333333333, 0xBFF6666666666666]) (cmdF 0x33 0 0x400 1 0 0 0x3FE00000)
      0x400 4 =
    some (.ok, [0xC0336AE1EBFE7FDA, 0xC04B6AE1EBFE7FDA, 0x3FEA462EC93926A8, 0x402E5B9D136C6D96]) := by
  decide +kernel

/-- V-QAM-20 for infinity's sign: the variance is +0. -/
theorem test_qam_llr_zero_variance :
    words (State.putF (base .f64) 0 [0x3FE3333333333333, 0xBFF6666666666666]) (cmdF 0x33 0 0x400 1 0 0 0) 0x400 4 =
    some (.ok, [0xFFF0000000000000, 0xFFF0000000000000, 0x7FF0000000000000, 0x7FF0000000000000]) := by
  decide +kernel

/-! ### AWGN -/

/-- V-AWGN-1: POW10_F is asked for `10 ÷ F(10) = 1`, and the seed is A3. -/
theorem test_awgn_init :
    (fdiv .f64 (Fp.ofBits .f64 0x4024000000000000) (ofInt .f64 10) 0).1 = ofInt .f64 1 ∧
    (run (base .f64) (cmdF 0x1040 0 0 0 1234 0 0x40240000)).map (fun t => (codeInfo t, t.awgn.valid)) =
      some ((.ok, 0), true) ∧
    (run (base .f64) (cmdF 0x1040 0 0 0 1234 0 0x40240000)).map (fun t => t.awgn.gen) =
      some (Config.awgnSeed 1234) := ⟨by decide +kernel, by decide, rfl⟩

/-- V-AWGN-4: POW10_F is asked for `20 ÷ F(10) = 2`, and the generator stays; V-ERR-24. -/
theorem test_awgn_snr :
    (fdiv .f32 (Fp.ofBits .f32 0x41A00000) (ofInt .f32 10) 0).1 = ofInt .f32 2 ∧
    (run { base .f32 with awgn := ⟨true, 0x41200000, 77⟩ } (cmdF 0x41 0 0 0 0 0x41A00000 0)).map (·.awgn.gen) =
      some 77 ∧
    status (base .f64) (cmdOf 0x41 0 0 0 0) = some (.notInit, 0) := ⟨by decide +kernel, by decide, by decide⟩

/-- V-ERR-25, V-ERR-26, V-AWGN-5. -/
theorem test_awgn_apply_checks :
    let s : State := { base .f64 with awgn := ⟨true, 0x4024000000000000, 77⟩ }
    status (base .f64) (cmdOf 0x42 0 0 0 0) = some (.notInit, 0) ∧
    (run s (cmdOf 0x42 0 8 1 0)).map (fun t => (codeInfo t, t.awgn.gen)) = some ((.badOverlap, 8), 77) ∧
    (run s (cmdOf 0x42 0 8 0 0)).map (fun t => (codeInfo t, t.awgn.gen)) = some ((.ok, 0), 77) := by decide

/-- V-AWGN-3: the measured power of `(1, 1), (−1, −1)` is 2, and at snr 10 the deviation is 3FD43D136248490F. -/
theorem test_awgn_measured_power :
    (sigPow .f64 [⟨ofInt .f64 1, ofInt .f64 1⟩, ⟨ofInt .f64 (-1), ofInt .f64 (-1)⟩] 0).1 = ofInt .f64 2 ∧
    (noiseStd .f64 (ofInt .f64 2) (ofInt .f64 10) 0).1 = Fp.ofBits .f64 0x3FD43D136248490F := by decide +kernel

/-! ### The host's accesses -/

/-- The state after the outside's first `n` events. -/
def runs : Nat → State → Option State
  | 0, s => some s
  | n + 1, s => (nextOf (step s)).bind (runs n)

/-- Programs P1 and P2 in small: the host stores two bytes, reads them as a halfword, and reads MEMSIZE. -/
theorem test_host_lmem_and_registers :
    (runs 3 { base .f64 with inbox := [.write 0x100300 1 0x48, .write 0x100301 1 0x69, .read 0x100300 2] }).map
      (·.rdata.toNat) = some 0x6948 ∧
    (runs 1 { base .f64 with inbox := [.read 4 4] }).map (·.rdata.toNat) = some 0x10000 ∧
    (runs 1 { base .f64 with inbox := [.read 0 4] }).map (·.rdata.toNat) = some 0x401 ∧
    (runs 1 { base .f32 with inbox := [.read 0x30 4] }).map (·.rdata.toNat) = some 0x400 := by decide

/-- Program P5 line 8 in its two outcomes: the second CMD write finds the block busy, or idle. -/
theorem test_dropped_command :
    let s : State := { base .f32 with a2 := 1 }
    (runs 4 { s with inbox := [.write 0x14 4 0x10, .write 0x14 4 0x11, .engine, .read 8 4] }).map
      (fun t => (t.rdata.toNat, t.cmd.toNat)) = some (0x2, 0x10) ∧
    (runs 5 { s with inbox := [.write 0x14 4 0x10, .engine, .write 0x14 4 0x11, .engine, .read 8 4] }).map
      (fun t => (t.rdata.toNat, t.cmd.toNat)) = some (0x0, 0x11) := by decide

/-- R20, R66, R68, R69: the accesses without a step. -/
theorem test_refused_accesses :
    let s := State.ready (base .f64) (cmdOf 0x10 0 0 1 0)
    step { s with inbox := [.read 0x100000 1] } = .refused .lmemWhileBusy ∧
    step { base .f64 with inbox := [.read 0x100002 4] } = .refused .lmemAccessShape ∧
    step { base .f64 with inbox := [.write 0x0 2 0] } = .refused .regAccessShape ∧
    step { base .f64 with inbox := [.read 0x40 4] } = .refused .busOutsideWindows := ⟨rfl, rfl, rfl, rfl⟩

/-! ### Witnesses: a state and operands that meet the hypotheses, for each clause of each statement that has some.
The statements not named here have no hypotheses. -/

theorem pow2 (n : Nat) (h : isPow2 n = true) : IsPow2 n := (isPow2_iff n).1 h

theorem not_pow2 (n : Nat) (h : isPow2 n = false) : ¬ IsPow2 n := fun hp => by
  rw [(isPow2_iff n).2 hp] at h; cases h

theorem witness_StepPerformsTheDecodedCommand :
    (∃ (s : State) (q : Pending) (rest : List Event) (i : Instr), s.EngineNext rest ∧ s.inbox = [] ∧
      s.pending = some q ∧ decodeLegal s.build.numRings q.c = some i) ∧
    (∃ (s : State) (q : Pending) (rest : List Event) (i : Instr), s.EngineNext rest ∧ rest = [.reset] ∧
      s.pending = some q ∧ decodeLegal s.build.numRings q.c = some i ∧ i = .ringRead 3) ∧
    (∃ (s : State) (i : Instr), i.wf s.build.numRings = true ∧ i = .ringRead 3) :=
  ⟨⟨State.ready (base .f64) (cmdOf 0x10 0 0 2 0), _, [], .fft, by decide, rfl, rfl, rfl⟩,
   ⟨{ State.ready (base .f64) (cmdOf 0x306 0 0 2 0) with inbox := [.engine, .reset] }, _, [.reset], .ringRead 3,
    by decide, rfl, rfl, rfl, rfl⟩,
   ⟨base .f64, .ringRead 3, rfl, rfl⟩⟩

theorem witness_IllegalWordCompletesWithIllegalCmd :
    ∀ c ∈ ([0, 0x12, 0x406, 0x1010, 0x110, 0x2001] : List Word), ∃ (s : State) (q : Pending), q.c = c ∧
      s.EngineNext [] ∧ s.pending = some q ∧ ¬ LegalWord s.build.numRings q.c := by
  intro c hc
  refine ⟨State.ready (base .f64) (cmdOf c 0 0 0 0), _, rfl, Or.inr ⟨rfl, rfl⟩, rfl, ?_⟩
  show ¬ LegalWord 4 c
  simp only [List.mem_cons, List.not_mem_nil, or_false] at hc
  rcases hc with rfl | rfl | rfl | rfl | rfl | rfl <;> decide

theorem witness_EveryIssuedCommandCompletes :
    ∃ (s : State) (q : Pending), s.EngineNext [] ∧ s.pending = some q :=
  ⟨State.ready (base .f64) (cmdOf 0x42 0 0 0 0), _, by decide, rfl⟩

theorem witness_IdleEngineKeepsAllState :
    (∃ s : State, s.EngineNext [] ∧ s.pending = none) ∧
    ∃ s : State, s.EngineNext [.read 0 4] ∧ s.pending = none :=
  ⟨⟨State.reset, by decide, rfl⟩, ⟨{ State.reset with inbox := [.engine, .read 0 4] }, by decide, rfl⟩⟩

theorem witness_FailedCommandChangesOnlyCodeAndInfo :
    (∃ (s t : State) (q : Pending), s.pending = some q ∧ exec .fft s = .next t ∧ t.code ≠ .ok) ∧
    ∃ (s t : State) (q : Pending), s.pending = some q ∧ exec .fft s = .next t ∧ t.code = .ok :=
  ⟨⟨State.ready (base .f64) (cmdOf 0x10 0 0 3 0), _, _, rfl, rfl, by decide⟩,
   ⟨State.ready (base .f64) (cmdOf 0x10 0 0 1 0), _, _, rfl, rfl, by decide⟩⟩

theorem witness_CommandsLeaveHostRegistersAlone : ∃ (s t : State), exec .qamLlr s = .next t ∧ s.pending ≠ none :=
  ⟨State.ready (base .f64) (cmdOf 0x33 0 0 1 0), _, rfl, by decide⟩

theorem witness_RingAndAwgnStateAreIndependent :
    (∃ (s t : State), exec (.awgnInit true) s = .next t ∧ t.awgn ≠ s.awgn) ∧
    ∃ (s t : State), exec (.ringNew 3 .byte) s = .next t ∧ t.rings ≠ s.rings :=
  ⟨⟨State.ready (base .f64) (cmdF 0x1040 0 0 0 0 0 0x40240000), _, rfl,
     fun h => absurd (congrArg Awgn.valid h) (by decide)⟩,
   ⟨State.ready (base .f64) (cmdOf 0x1301 0x500 0 5 0), _, rfl, by decide⟩⟩

theorem witness_ResIsWrittenOnlyByRingSize :
    (∃ (s t : State), step s = .next t ∧ t.res ≠ s.res ∧ s.EngineNext []) ∧
    ∃ (s t : State), step s = .next t ∧ t.res ≠ s.res ∧ s.inbox = [.reset] :=
  ⟨⟨State.ready (ring5 .f64 [] 0) (cmdOf 0x2 0 0 0 0), _, rfl, by decide, by decide⟩,
   ⟨{ base .f64 with res := 5, inbox := [.reset] }, _, rfl, by decide, rfl⟩⟩

theorem witness_PendingCommandIgnoresLaterRegisterWrites :
    ∀ off ∈ [0x18, 0x1C, 0x20, 0x24, 0x28, 0x2C, 0x30], ∃ (s : State) (addr : Nat), s.pending ≠ none ∧
      s.inbox = .write addr 4 9 :: [.engine] ∧ placeOf s.build addr = .reg off := by
  intro off h
  refine ⟨{ State.ready (base .f64) (cmdOf 0x10 0 0 1 0) with inbox := [.write off 4 9, .engine] }, off,
    by simp [State.ready], rfl, ?_⟩
  revert off h
  decide

theorem witness_ResetValues :
    (vectorBuild .f32).Valid ∧ (vectorBuild .f64).Valid ∧
    ({ vectorBuild .f32 with memBytes := 8, numRings := 16 } : Build).Valid ∧
    ({ vectorBuild .f64 with memBytes := 2 ^ 31, numRings := 1 } : Build).Valid := by decide

theorem witness_ResetAbandonsThePendingCommand :
    ∃ (s : State) (rest : List Event), s.inbox = .reset :: rest ∧ s.pending ≠ none :=
  ⟨{ State.ready (base .f64) (cmdOf 0x10 0 0 1 0) with inbox := [.reset] }, _, rfl, by decide⟩

/-- A write and a read of the register at an offset, on an idle and on a busy block. -/
def RegisterAccess (off : Nat) : Prop :=
  ∃ (s b r : State) (addr : Nat) (data : BitVec 64), placeOf s.build addr = .reg off ∧
    placeOf b.build addr = .reg off ∧ placeOf r.build addr = .reg off ∧ r.build.Valid ∧
    s.pending = none ∧ b.pending ≠ none ∧ s.inbox = .write addr 4 data :: [] ∧
    b.inbox = .write addr 4 data :: [] ∧ r.inbox = .read addr 4 :: []

theorem registerAccess (off : Nat) (h : off < 64) : RegisterAccess off := by
  have hp : placeOf (base .f64).build off = .reg off := by
    show (if 0 ≤ off ∧ off < 0 + 64 then Place.reg (off - 0) else _) = _
    rw [if_pos ⟨Nat.zero_le _, by omega⟩, Nat.sub_zero]
  have hv : (base .f64).build.Valid := by decide
  exact ⟨{ base .f64 with inbox := [.write off 4 0x1042] },
    { State.ready (base .f64) (cmdOf 0x10 0 0 1 0) with inbox := [.write off 4 0x1042] },
    { base .f64 with inbox := [.read off 4] }, off, 0x1042, hp, hp, hp, hv, rfl, by simp [State.ready], rfl, rfl, rfl⟩

theorem witness_CmdWriteIssuesOrIsDropped : RegisterAccess 0x14 := registerAccess _ (by decide)

theorem witness_StatusFieldsAndWriteOneToClear : RegisterAccess 0x08 := registerAccess _ (by decide)

theorem witness_ArgumentRegistersTakeAndReadBack :
    ∀ off ∈ [0x18, 0x1C, 0x20, 0x24, 0x28, 0x2C, 0x30, 0x0C, 0x10], RegisterAccess off :=
  fun off h => registerAccess off (by revert off h; decide)

theorem witness_ReadOnlyAndUnmappedWritesAreIgnored :
    ∀ off ∈ [0x00, 0x04, 0x08, 0x0C, 0x10, 0x34, 0x38, 0x3C], RegisterAccess off :=
  fun off h => registerAccess off (by revert off h; decide)

theorem witness_CfgAndMemsizeReportTheBuild : ∀ off ∈ [0x00, 0x04], RegisterAccess off :=
  fun off h => registerAccess off (by revert off h; decide)

theorem witness_OvrIsSetOnlyByADroppedCommand :
    (∃ (s t : State), step s = .next t ∧ s.ovr = false ∧ t.ovr = true) ∧
    (∃ (s t : State), step s = .next t ∧ s.ovr = true ∧ t.ovr = false ∧ s.inbox = [.reset]) ∧
    ∃ (s t : State), step s = .next t ∧ s.ovr = true ∧ t.ovr = false ∧ s.inbox = [.write 8 4 2] :=
  ⟨⟨{ State.ready (base .f64) (cmdOf 0x10 0 0 1 0) with inbox := [.write 0x14 4 0] }, _, rfl, rfl, rfl⟩,
   ⟨{ base .f64 with ovr := true, inbox := [.reset] }, _, rfl, rfl, rfl, rfl⟩,
   ⟨{ base .f64 with ovr := true, inbox := [.write 8 4 2] }, _, rfl, rfl, rfl, rfl⟩⟩

theorem witness_CodeAndInfoChangeOnlyAtCompletion :
    (∃ (s t : State), step s = .next t ∧ t.code ≠ s.code) ∧
    ∃ (s t : State), step s = .next t ∧ t.info ≠ s.info ∧ s.inbox = [.reset] :=
  ⟨⟨State.ready (base .f64) (cmdOf 0x10 0 0 3 0), _, rfl, by decide⟩,
   ⟨{ base .f64 with code := .badSize, info := 3, inbox := [.reset] }, _, rfl, by decide, rfl⟩⟩

/-- Each width at the last address it fits at. -/
theorem witness_HostLmemAccessesAreLittleEndian :
    ∀ n ∈ [1, 2, 4, 8], ∃ (s r : State) (a : Nat) (data : BitVec 64), s.build.Valid ∧ r.build.Valid ∧
      a % n = 0 ∧ a + n = s.build.memBytes ∧ a + n ≤ r.build.memBytes ∧ s.pending = none ∧ r.pending = none ∧
      s.inbox = .write (s.build.lmemBase + a) n data :: [] ∧ r.inbox = .read (r.build.lmemBase + a) n :: [] := by
  intro n h
  have hv : (base .f64).build.Valid := by decide
  refine ⟨{ base .f64 with inbox := [.write (0x100000 + (0x10000 - n)) n 0x1234] },
    { base .f64 with inbox := [.read (0x100000 + (0x10000 - n)) n] }, 0x10000 - n, 0x1234, hv, hv, ?_, ?_, ?_,
    rfl, rfl, rfl, rfl⟩ <;> (revert n h; decide)

/-- An encoding for each case of the fields: a zero, the greatest subnormal, the least normal, an infinity, a NaN. -/
theorem witness_HostLmemAccessesAreLittleEndian_fields :
    let exp := fun e : Nat => e / 2 ^ 23 % 2 ^ 8
    let frac := fun e : Nat => e % 2 ^ 23
    (∀ e ∈ [0, 0x7FFFFF, 0x800000, 0xFF800000, 0xFFFFFFFF], e < 2 ^ Precision.f32.bits) ∧
    exp 0 = 0 ∧ exp 0x7FFFFF = 0 ∧ exp 0x800000 = 1 ∧ (exp 0xFF800000 = 255 ∧ frac 0xFF800000 = 0) ∧
    exp 0xFFFFFFFF = 255 ∧ frac 0xFFFFFFFF ≠ 0 := by decide +kernel

theorem witness_RefusedHostAccesses :
    (∃ (s : State) (addr a : Nat), s.inbox = .read addr 2 :: [] ∧ placeOf s.build addr = .lmem a ∧
      ¬ (a % 2 = 0 ∧ a + 2 ≤ s.build.memBytes)) ∧
    (∃ (s : State) (addr a : Nat), s.inbox = .read addr 2 :: [] ∧ placeOf s.build addr = .lmem a ∧
      (a % 2 = 0 ∧ a + 2 ≤ s.build.memBytes) ∧ s.pending ≠ none) ∧
    (∃ (s : State) (addr off : Nat), s.inbox = .write addr 4 0 :: [] ∧ placeOf s.build addr = .reg off ∧
      ¬ off % 4 = 0) ∧
    ∃ (s : State) (addr : Nat), s.inbox = .read addr 4 :: [] ∧ placeOf s.build addr = .neither :=
  ⟨⟨{ base .f64 with inbox := [.read 0x10FFFF 2] }, _, 0xFFFF, rfl, by decide, by decide⟩,
   ⟨{ State.ready (base .f64) (cmdOf 0x10 0 0 1 0) with inbox := [.read 0x10FFFE 2] }, _, 0xFFFE, rfl, by decide,
    by decide, by decide⟩,
   ⟨{ base .f64 with inbox := [.write 0x3E 4 0] }, _, 0x3E, rfl, by decide, by decide⟩,
   ⟨{ base .f64 with inbox := [.read 0x110000 4] }, _, rfl, by decide⟩⟩

/-- Just past the register window, and on both sides of the LMEM window. -/
theorem witness_RefusedHostAccesses_outside : ∀ addr ∈ [0x40, 0xFFFFF, 0x110000],
    let b := (base .f64).build
    (addr < b.regBase ∨ b.regBase + 64 ≤ addr) ∧ (addr < b.lmemBase ∨ b.lmemBase + b.memBytes ≤ addr) := by decide

/-! #### Rings -/

/-- A byte ring and a complex ring as descriptors. -/
def gB : Ring := ⟨true, .byte, 0x500, 5, 2⟩
def gC : Ring := ⟨true, .complex, 0x800, 2, 1⟩

/-- The base state with ring 3 holding `g` and a pending command. -/
def withG (g : Ring) (a0 a1 a2 a3 : Word) : State :=
  State.ready ((base .f64).setRing 3 g) (cmdOf 0 a0 a1 a2 a3)

theorem witness_RingNewMakesAZeroedRing :
    (∃ (s : State) (q : Pending), s.pending = some q ∧ 3 < s.rings.length ∧ q.a2 = 0) ∧
    (∃ (s : State) (q : Pending), s.pending = some q ∧ 3 < s.rings.length ∧ q.a2 ≠ 0 ∧
      ¬ s.ElemAligned .complex q.a0) ∧
    (∃ (s : State) (q : Pending), s.pending = some q ∧ 3 < s.rings.length ∧ q.a2 ≠ 0 ∧
      s.ElemAligned .byte q.a0 ∧ ¬ s.InRange q.a0 (s.elemBytes .byte * q.a2.toNat)) ∧
    ∃ (s : State) (q : Pending), s.pending = some q ∧ 3 < s.rings.length ∧ q.a2 ≠ 0 ∧
      s.ElemAligned .complex q.a0 ∧ s.InRange q.a0 (s.elemBytes .complex * q.a2.toNat) :=
  ⟨⟨withG gB 0 0 0 0, _, rfl, by decide, by decide⟩,
   ⟨withG gB 4 0 2 0, _, rfl, by decide, by decide, by decide⟩,
   ⟨withG gB 0xFFFF 0 2 0, _, rfl, by decide, by decide, by decide, by decide⟩,
   ⟨withG gB 0xFFF0 0 1 0, _, rfl, by decide, by decide, by decide, by decide⟩⟩

theorem witness_RingSizeReturnsTheCapacity :
    (∃ (s : State) (q : Pending) (g : Ring), s.pending = some q ∧ s.rings[3]? = some g ∧ g.valid = false) ∧
    ∃ (s : State) (q : Pending) (g : Ring), s.pending = some q ∧ s.rings[3]? = some g ∧ g.valid = true :=
  ⟨⟨withG Ring.reset 0 0 0 0, _, _, rfl, rfl, rfl⟩, ⟨withG gB 0 0 0 0, _, _, rfl, rfl, rfl⟩⟩

theorem witness_RingAtCopiesTheLogicalElement :
    (∃ (s : State) (q : Pending) (g : Ring), s.pending = some q ∧ s.rings[3]? = some g ∧ g.valid = false) ∧
    (∃ (s : State) (q : Pending) (g : Ring), s.pending = some q ∧ s.rings[3]? = some g ∧ g.valid = true ∧
      g.cap.toNat ≤ q.a3.toNat) ∧
    (∃ (s : State) (q : Pending) (g : Ring), s.pending = some q ∧ s.rings[3]? = some g ∧ g.valid = true ∧
      q.a3.toNat < g.cap.toNat ∧ ¬ s.ElemAligned g.kind q.a1) ∧
    (∃ (s : State) (q : Pending) (g : Ring), s.pending = some q ∧ s.rings[3]? = some g ∧ g.valid = true ∧
      q.a3.toNat < g.cap.toNat ∧ s.ElemAligned g.kind q.a1 ∧ ¬ s.InRange q.a1 (s.elemBytes g.kind)) ∧
    ∃ (s : State) (q : Pending) (g : Ring), s.pending = some q ∧ s.rings[3]? = some g ∧ g.valid = true ∧
      q.a3.toNat < g.cap.toNat ∧ s.ElemAligned g.kind q.a1 ∧ s.InRange q.a1 (s.elemBytes g.kind) :=
  ⟨⟨withG Ring.reset 0 0 0 99, _, _, rfl, rfl, rfl⟩,
   ⟨withG gB 0 0 0 5, _, _, rfl, rfl, rfl, by decide⟩,
   ⟨withG gC 0 4 0 1, _, _, rfl, rfl, rfl, by decide, by decide⟩,
   ⟨withG gB 0 0x10000 0 4, _, _, rfl, rfl, rfl, by decide, by decide, by decide⟩,
   ⟨withG gB 0 0xFFFF 0 4, _, _, rfl, rfl, rfl, by decide, by decide, by decide⟩⟩

theorem witness_RingPush1WritesAtTheCursor :
    (∃ (s : State) (q : Pending) (g : Ring), s.pending = some q ∧ s.rings[3]? = some g ∧ g.valid = false) ∧
    (∃ (s : State) (q : Pending) (g : Ring), s.pending = some q ∧ s.rings[3]? = some g ∧ g.valid = true ∧
      ¬ s.ElemAligned g.kind q.a0) ∧
    (∃ (s : State) (q : Pending) (g : Ring), s.pending = some q ∧ s.rings[3]? = some g ∧ g.valid = true ∧
      s.ElemAligned g.kind q.a0 ∧ ¬ s.InRange q.a0 (s.elemBytes g.kind)) ∧
    ∃ (s : State) (q : Pending) (g : Ring), s.pending = some q ∧ s.rings[3]? = some g ∧ g.valid = true ∧
      s.ElemAligned g.kind q.a0 ∧ s.InRange q.a0 (s.elemBytes g.kind) :=
  ⟨⟨withG Ring.reset 0 0 0 0, _, _, rfl, rfl, rfl⟩,
   ⟨withG gC 4 0 0 0, _, _, rfl, rfl, rfl, by decide⟩,
   ⟨withG gB 0x10000 0 0 0, _, _, rfl, rfl, rfl, by decide, by decide⟩,
   ⟨withG gC 0xFFF0 0 0 0, _, _, rfl, rfl, rfl, by decide, by decide⟩⟩

/-- Length 0, and a length above the capacity. -/
theorem witness_RingPushNKeepsTheLastElements :
    (∃ (s : State) (q : Pending) (g : Ring), s.pending = some q ∧ s.rings[3]? = some g ∧ g.valid = false) ∧
    (∃ (s : State) (q : Pending) (g : Ring), s.pending = some q ∧ s.rings[3]? = some g ∧ g.valid = true ∧
      ¬ s.ElemAligned g.kind q.a0) ∧
    (∃ (s : State) (q : Pending) (g : Ring), s.pending = some q ∧ s.rings[3]? = some g ∧ g.valid = true ∧
      s.ElemAligned g.kind q.a0 ∧ ¬ s.InRange q.a0 (s.elemBytes g.kind * q.a2.toNat)) ∧
    ∀ len ∈ ([0, 1, 5, 12] : List Word), ∃ (s : State) (q : Pending) (g : Ring), q.a2 = len ∧
      s.pending = some q ∧ s.rings[3]? = some g ∧ g.valid = true ∧
      s.ElemAligned g.kind q.a0 ∧ s.InRange q.a0 (s.elemBytes g.kind * q.a2.toNat) := by
  refine ⟨⟨withG Ring.reset 0 0 0 0, _, _, rfl, rfl, rfl⟩,
    ⟨withG gC 4 0 0 0, _, _, rfl, rfl, rfl, by decide⟩,
    ⟨withG gB 0xFFFF 0 2 0, _, _, rfl, rfl, rfl, by decide, by decide⟩, ?_⟩
  intro len h
  simp only [List.mem_cons, List.not_mem_nil, or_false] at h
  rcases h with rfl | rfl | rfl | rfl <;>
    exact ⟨withG gB 0x502 0 _ 0, _, _, rfl, rfl, rfl, rfl, by decide, by decide⟩

theorem witness_RingPushNEqualsPushingOneByOne :
    ∃ (s t : State) (q : Pending) (g : Ring), s.pending = some q ∧ s.rings[3]? = some g ∧ g.valid = true ∧
      g.cur.toNat < g.cap.toNat ∧ exec (.ringPushN 3) s = .next t ∧ t.code = .ok ∧ q.a2 = 12 :=
  ⟨withG gB 0x502 0 12 0, _, _, _, rfl, rfl, rfl, by decide, rfl, rfl, rfl⟩

theorem witness_RingHoldsTheLastPushedElements :
    (∃ (s t : State) (q : Pending), s.pending = some q ∧ 3 < s.rings.length ∧
      exec (.ringNew 3 .complex) s = .next t ∧ t.code = .ok) ∧
    (∃ (s t : State) (q : Pending) (g : Ring), s.pending = some q ∧ s.rings[3]? = some g ∧ g.valid = true ∧
      g.cur.toNat < g.cap.toNat ∧ exec (.ringPush1 3) s = .next t ∧ t.code = .ok) ∧
    ∃ (s t : State) (q : Pending) (g : Ring), s.pending = some q ∧ s.rings[3]? = some g ∧ g.valid = true ∧
      g.cur.toNat < g.cap.toNat ∧ exec (.ringPushN 3) s = .next t ∧ t.code = .ok ∧ q.a2 = 12 :=
  ⟨⟨withG gB 0x500 0 2 0, _, _, rfl, by decide, rfl, rfl⟩,
   ⟨withG gC 0x800 0 0 0, _, _, _, rfl, rfl, rfl, by decide, rfl, rfl⟩,
   ⟨withG gB 0x502 0 12 0, _, _, _, rfl, rfl, rfl, by decide, rfl, rfl, rfl⟩⟩

theorem witness_RingReadCopiesTheLogicalSequence :
    (∃ (s : State) (q : Pending) (g : Ring), s.pending = some q ∧ s.rings[3]? = some g ∧ g.valid = false) ∧
    (∃ (s : State) (q : Pending) (g : Ring), s.pending = some q ∧ s.rings[3]? = some g ∧ g.valid = true ∧
      ¬ s.ElemAligned g.kind q.a1) ∧
    (∃ (s : State) (q : Pending) (g : Ring), s.pending = some q ∧ s.rings[3]? = some g ∧ g.valid = true ∧
      s.ElemAligned g.kind q.a1 ∧ ¬ s.InRange q.a1 (s.elemBytes g.kind * g.cap.toNat)) ∧
    ∃ (s : State) (q : Pending) (g : Ring), s.pending = some q ∧ s.rings[3]? = some g ∧ g.valid = true ∧
      s.ElemAligned g.kind q.a1 ∧ s.InRange q.a1 (s.elemBytes g.kind * g.cap.toNat) :=
  ⟨⟨withG Ring.reset 0 0 0 0, _, _, rfl, rfl, rfl⟩,
   ⟨withG gC 0 4 0 0, _, _, rfl, rfl, rfl, by decide⟩,
   ⟨withG gB 0 0xFFFC 0 0, _, _, rfl, rfl, rfl, by decide, by decide⟩,
   ⟨withG gB 0 0xFFFB 0 0, _, _, rfl, rfl, rfl, by decide, by decide⟩⟩

/-! #### Transforms -/

/-- The base state with a pending command. -/
def with4 (a0 a1 a2 a3 : Word) : State := State.ready (base .f64) (cmdOf 0 a0 a1 a2 a3)

/-- The hypotheses of both transform statements. -/
def TransformOperands : Prop :=
  (∃ (s : State) (q : Pending), s.pending = some q ∧ ¬ IsPow2 q.a2.toNat) ∧
  (∃ (s : State) (q : Pending), s.pending = some q ∧ IsPow2 q.a2.toNat ∧ ¬ s.Aligned q.a0) ∧
  (∃ (s : State) (q : Pending), s.pending = some q ∧ IsPow2 q.a2.toNat ∧ s.Aligned q.a0 ∧
    ¬ s.InRange q.a0 (2 * s.w * q.a2.toNat)) ∧
  ∃ (s : State) (q : Pending), s.pending = some q ∧ IsPow2 q.a2.toNat ∧ s.Aligned q.a0 ∧
    s.InRange q.a0 (2 * s.w * q.a2.toNat)

theorem transformOperands : TransformOperands :=
  ⟨⟨with4 4 0 0 0, _, rfl, not_pow2 _ (by decide)⟩,
   ⟨with4 4 0 2 0, _, rfl, pow2 _ (by decide), by decide⟩,
   ⟨with4 0xFFF0 0 2 0, _, rfl, pow2 _ (by decide), by decide, by decide⟩,
   ⟨with4 0xFFF0 0 1 0, _, rfl, pow2 _ (by decide), by decide, by decide⟩⟩

theorem witness_FftTransformsItsRegion : TransformOperands := transformOperands

theorem witness_IfftTransformsItsRegion : TransformOperands := transformOperands

theorem witness_BitReversalLoopGivesReversedIndexes :
    (∃ buf : List Cx, buf.length = 2 ^ 0) ∧ ∃ buf : List Cx, buf.length = 2 ^ 3 :=
  ⟨⟨[Cx.zero], rfl⟩, ⟨List.replicate 8 Cx.zero, rfl⟩⟩

theorem witness_FftCoreFollowsTheWrittenLoops :
    (∃ buf : List Cx, buf.length = 2 ^ 0) ∧ ∃ buf : List Cx, buf.length = 2 ^ 3 :=
  witness_BitReversalLoopGivesReversedIndexes

theorem witness_TransformOfOneSampleIsIdentity :
    ∃ (rm jm : Nat), FiniteMag .f32 rm ∧ FiniteMag .f32 jm ∧ rm = 0 ∧ jm = 0x7F7FFFFF :=
  ⟨0, 0x7F7FFFFF, by decide +kernel, by decide +kernel, rfl, rfl⟩

/-- A length that is no power of two, a prefix above the length, a source and a destination misaligned, a source
and a destination out of range, and good operands with the prefix 0 and as long as the symbol. -/
theorem witness_OfdmTxPrependsTheCyclicPrefix :
    (∃ (s : State) (q : Pending), s.pending = some q ∧ ¬ IsPow2 q.a2.toNat) ∧
    (∃ (s : State) (q : Pending), s.pending = some q ∧ IsPow2 q.a2.toNat ∧ q.a2.toNat < q.a3.toNat) ∧
    (∃ (s : State) (q : Pending), s.pending = some q ∧ IsPow2 q.a2.toNat ∧ q.a3.toNat ≤ q.a2.toNat ∧
      ¬ s.Aligned q.a0) ∧
    (∃ (s : State) (q : Pending), s.pending = some q ∧ IsPow2 q.a2.toNat ∧ q.a3.toNat ≤ q.a2.toNat ∧
      s.Aligned q.a0 ∧ ¬ s.Aligned q.a1) ∧
    (∃ (s : State) (q : Pending), s.pending = some q ∧ IsPow2 q.a2.toNat ∧ q.a3.toNat ≤ q.a2.toNat ∧
      s.Aligned q.a0 ∧ s.Aligned q.a1 ∧ ¬ s.InRange q.a0 (2 * s.w * q.a2.toNat)) ∧
    (∃ (s : State) (q : Pending), s.pending = some q ∧ IsPow2 q.a2.toNat ∧ q.a3.toNat ≤ q.a2.toNat ∧
      s.Aligned q.a0 ∧ s.Aligned q.a1 ∧ s.InRange q.a0 (2 * s.w * q.a2.toNat) ∧
      ¬ s.InRange q.a1 (2 * s.w * (q.a2.toNat + q.a3.toNat))) ∧
    ∀ l ∈ ([0, 4] : List Word), ∃ (s : State) (q : Pending), q.a3 = l ∧ s.pending = some q ∧
      IsPow2 q.a2.toNat ∧ q.a3.toNat ≤ q.a2.toNat ∧ s.Aligned q.a0 ∧ s.Aligned q.a1 ∧
      s.InRange q.a0 (2 * s.w * q.a2.toNat) ∧ s.InRange q.a1 (2 * s.w * (q.a2.toNat + q.a3.toNat)) := by
  refine ⟨⟨with4 0 0 6 2, _, rfl, not_pow2 _ (by decide)⟩,
    ⟨with4 0 0 4 5, _, rfl, pow2 _ (by decide), by decide⟩,
    ⟨with4 4 0 4 4, _, rfl, pow2 _ (by decide), by decide, by decide⟩,
    ⟨with4 0 4 4 4, _, rfl, pow2 _ (by decide), by decide, by decide, by decide⟩,
    ⟨with4 0xFFF0 0 2 1, _, rfl, pow2 _ (by decide), by decide, by decide, by decide, by decide⟩,
    ⟨with4 0 0xFFF0 1 1, _, rfl, pow2 _ (by decide), by decide, by decide, by decide, by decide, by decide⟩, ?_⟩
  intro l h
  simp only [List.mem_cons, List.not_mem_nil, or_false] at h
  rcases h with rfl | rfl <;>
    exact ⟨with4 0 0 4 _, _, rfl, rfl, pow2 _ (by decide), by decide, by decide, by decide, by decide, by decide⟩

/-- The same for the receiver, whose prefix may be longer than the symbol (V-OFDM-5). -/
theorem witness_OfdmRxDropsThePrefixAndTransforms :
    let good := fun q : Pending => q.a3.toNat ≤ q.a2.toNat ∧ IsPow2 (q.a2.toNat - q.a3.toNat)
    (∃ (s : State) (q : Pending), s.pending = some q ∧ ¬ good q) ∧
    (∃ (s : State) (q : Pending), s.pending = some q ∧ good q ∧ ¬ s.Aligned q.a0) ∧
    (∃ (s : State) (q : Pending), s.pending = some q ∧ good q ∧ s.Aligned q.a0 ∧ ¬ s.Aligned q.a1) ∧
    (∃ (s : State) (q : Pending), s.pending = some q ∧ good q ∧ s.Aligned q.a0 ∧ s.Aligned q.a1 ∧
      ¬ s.InRange q.a0 (2 * s.w * q.a2.toNat)) ∧
    (∃ (s : State) (q : Pending), s.pending = some q ∧ good q ∧ s.Aligned q.a0 ∧ s.Aligned q.a1 ∧
      s.InRange q.a0 (2 * s.w * q.a2.toNat) ∧ ¬ s.InRange q.a1 (2 * s.w * (q.a2.toNat - q.a3.toNat))) ∧
    ∃ (s : State) (q : Pending), s.pending = some q ∧ good q ∧ s.Aligned q.a0 ∧ s.Aligned q.a1 ∧
      s.InRange q.a0 (2 * s.w * q.a2.toNat) ∧ s.InRange q.a1 (2 * s.w * (q.a2.toNat - q.a3.toNat)) :=
  ⟨⟨with4 0 0 4 4, _, rfl, fun h => not_pow2 _ (by decide) h.2⟩,
   ⟨with4 4 0 6 2, _, rfl, ⟨by decide, pow2 _ (by decide)⟩, by decide⟩,
   ⟨with4 0 4 6 2, _, rfl, ⟨by decide, pow2 _ (by decide)⟩, by decide, by decide⟩,
   ⟨with4 0xFFF0 0 2 0, _, rfl, ⟨by decide, pow2 _ (by decide)⟩, by decide, by decide, by decide⟩,
   ⟨with4 0 0xFFF0 6 4, _, rfl, ⟨by decide, pow2 _ (by decide)⟩, by decide, by decide, by decide, by decide⟩,
   ⟨with4 0 0xFFF0 6 5, _, rfl, ⟨by decide, pow2 _ (by decide)⟩, by decide, by decide, by decide, by decide⟩⟩

theorem witness_OfdmRxReadsTheSliceTxProduced :
    ∃ (s t : State) (q d : Pending), s.pending = some q ∧ exec .ofdmTx s = .next t ∧ t.code = .ok ∧ q.a3 = 2 ∧
      d.a0 = q.a1 ∧ d.a3 = q.a3 ∧ d.a2.toNat = q.a2.toNat + q.a3.toNat ∧ s.Aligned d.a1 ∧
      s.InRange d.a1 (2 * s.w * q.a2.toNat) :=
  ⟨with4 0 0x100 4 2, _, _, cmdOf 0x21 0x100 0xFFC0 6 2, rfl, rfl, rfl, rfl, rfl, rfl, by decide, by decide, by decide⟩

/-! #### Arithmetic -/

/-- The value of 1.0 in f32, with either sign. -/
theorem value_one (neg : Bool) : ((finValue .f32 neg 0x3F800000 : ℚ) : ℝ) = if neg then -1 else 1 := by
  cases neg <;> norm_num [finValue, magValue, Precision.fracBits, expBias]

/-- The value of both zeros. -/
theorem value_zero (p : Precision) (neg : Bool) : ((finValue p neg 0 : ℚ) : ℝ) = 0 := by
  cases p <;> cases neg <;> norm_num [finValue, magValue, Precision.fracBits, expBias]

/-- The least subnormal and the greatest finite value; 1 and −1, and zeros of both signs, for the clauses about exact
zeros and zero divisors. -/
theorem witness_ArithmeticIsRoundedToNearestEven :
    (FiniteMag .f64 1 ∧ FiniteMag .f64 0x7FEFFFFFFFFFFFFF) ∧
    ∃ x z, FiniteMag .f32 x ∧ FiniteMag .f32 z ∧
      let v : Bool → Nat → ℝ := fun neg mag => (finValue .f32 neg mag : ℚ)
      v true x ≠ 0 ∧ v false x + v true x = 0 ∧ v true z + v true z = 0 ∧ v true x - v true x = 0 ∧
        v true z - v false z = 0 ∧ v true x * v false z = 0 ∧ v true z = 0 := by
  refine ⟨by decide +kernel, 0x3F800000, 0, by decide +kernel, by decide +kernel, ?_⟩
  simp [value_one, value_zero]

theorem witness_SquareRootAndIntegersAreRoundedToNearest :
    FiniteMag .f32 0 ∧ FiniteMag .f32 0x7F7FFFFF ∧ ∃ x : Nat, x ≠ 0 := ⟨by decide +kernel, by decide +kernel, 1, by decide⟩

/-- The least and the greatest finite magnitude, and an encoding that is a NaN. -/
theorem witness_LessThanIsOfTheValues :
    FiniteMag .f64 0 ∧ FiniteMag .f64 0x7FEFFFFFFFFFFFFF ∧ 0xFFFFFFFF < 2 ^ Precision.f32.bits := by decide +kernel

theorem witness_NanDrawsRangeOverAllNans :
    ∃ e : Enc, e.toNat < 2 ^ Precision.f32.bits ∧ Fp.ofBits .f32 e.toNat = .nan e ∧ e = 0xFFFFFFFF := by
  exact ⟨0xFFFFFFFF, by decide +kernel, by decide +kernel, rfl⟩

/-! #### 16-QAM -/

/-- A state with the symbols of V-QAM-1 at 0x200 and a pending command with variance 0.3. -/
def withSymbols (a0 a1 a2 : Word) : State :=
  State.ready (State.putF (base .f64) 0x200 hiSymbols) (cmdF 0 a0 a1 a2 0 0x33333333 0x3FD33333)

theorem witness_ConstellationTableIsGray :
    ∃ i ∈ List.range 16, ∃ j ∈ List.range 16, (pointX i - pointX j).natAbs = 2 ∧ pointY i = pointY j := by decide

theorem witness_QamEncMapsNibblesToSymbols :
    (∃ (s : State) (q : Pending), s.pending = some q ∧ ¬ s.Aligned q.a1) ∧
    (∃ (s : State) (q : Pending), s.pending = some q ∧ s.Aligned q.a1 ∧ ¬ s.InRange q.a0 q.a2.toNat) ∧
    (∃ (s : State) (q : Pending), s.pending = some q ∧ s.Aligned q.a1 ∧ s.InRange q.a0 q.a2.toNat ∧
      ¬ s.InRange q.a1 (2 * s.w * (2 * q.a2.toNat))) ∧
    (∃ (s : State) (q : Pending), s.pending = some q ∧ s.Aligned q.a1 ∧ s.InRange q.a0 q.a2.toNat ∧
      s.InRange q.a1 (2 * s.w * (2 * q.a2.toNat)) ∧ q.a2 = 0) ∧
    ∃ (s : State) (q : Pending), s.pending = some q ∧ s.Aligned q.a1 ∧ s.InRange q.a0 q.a2.toNat ∧
      s.InRange q.a1 (2 * s.w * (2 * q.a2.toNat)) ∧ q.a2 = 1 :=
  ⟨⟨with4 0 4 1 0, _, rfl, by decide⟩, ⟨with4 0xFFFF 0 2 0, _, rfl, by decide, by decide⟩,
   ⟨with4 0xFFFF 0xFFF0 1 0, _, rfl, by decide, by decide, by decide⟩,
   ⟨with4 0x10000 0x10000 0 0, _, rfl, by decide, by decide, by decide, rfl⟩,
   ⟨with4 0xFFFF 0xFFE0 1 0, _, rfl, by decide, by decide, by decide, rfl⟩⟩

/-- The distances of V-QAM-9: labels 5 and 7 tie, and 5 is found; and none when all are infinite. -/
theorem witness_NearestIsTheLowestClosestLabel :
    (let two := ofInt .f32 2
     let ten := ofInt .f32 10
     nearestScan .f32 0 (.inf false) none [ten, ten, ten, ten, ten, two, ten, two] = some 5) ∧
    nearestScan .f32 0 (.inf false) none (List.replicate 16 (.inf false)) = none := by decide +kernel

theorem witness_QamDecHardPacksNearestLabels :
    let good := fun (s : State) (q : Pending) => s.Aligned q.a0 ∧ s.InRange q.a0 (2 * s.w * q.a2.toNat) ∧
      s.InRange q.a1 (q.a2.toNat / 2)
    let out := fun (s : State) (q : Pending) =>
      (Draw.each (nearest s.prec) (s.loadCs q.a0.toNat (2 * (q.a2.toNat / 2))) s.draws).1
    (∃ (s : State) (q : Pending), s.pending = some q ∧ ¬ s.Aligned q.a0) ∧
    (∃ (s : State) (q : Pending), s.pending = some q ∧ s.Aligned q.a0 ∧
      ¬ s.InRange q.a0 (2 * s.w * q.a2.toNat)) ∧
    (∃ (s : State) (q : Pending), s.pending = some q ∧ s.Aligned q.a0 ∧ s.InRange q.a0 (2 * s.w * q.a2.toNat) ∧
      ¬ s.InRange q.a1 (q.a2.toNat / 2)) ∧
    (∃ (s : State) (q : Pending), s.pending = some q ∧ good s q ∧ (out s q)[1]? = some none ∧
      ∀ j < 1, (out s q)[j]? ≠ some none) ∧
    ∃ (s : State) (q : Pending) (lab : Nat → Nat), s.pending = some q ∧ good s q ∧ q.a2 = 4 ∧
      ∀ i < 2 * (q.a2.toNat / 2), (out s q)[i]? = some (some (lab i)) := by
  refine ⟨⟨withSymbols 4 0 2, _, rfl, by decide⟩, ⟨withSymbols 0xFFF0 0 2, _, rfl, by decide, by decide⟩,
    ⟨withSymbols 0xFFE0 0x10000 2, _, rfl, by decide, by decide, by decide⟩,
    ⟨State.ready (State.putF (base .f64) 0 [0x3FD43D136248490F, 0x3FD43D136248490F, 0x7FF0000000000000, 0])
      (cmdOf 0 0 0x300 2 0), _, rfl, by decide, by decide +kernel, by decide +kernel⟩,
    ⟨withSymbols 0x200 0x300 4, _, fun i => [4, 8, 6, 9].getD i 0, rfl, by decide, rfl, by decide +kernel⟩⟩

theorem witness_QamDecSoftPacksLlrSigns :
    (∃ (s : State) (q : Pending), s.pending = some q ∧ ¬ s.Aligned q.a0) ∧
    (∃ (s : State) (q : Pending), s.pending = some q ∧ s.Aligned q.a0 ∧
      ¬ s.InRange q.a0 (2 * s.w * q.a2.toNat)) ∧
    (∃ (s : State) (q : Pending), s.pending = some q ∧ s.Aligned q.a0 ∧ s.InRange q.a0 (2 * s.w * q.a2.toNat) ∧
      ¬ s.InRange q.a1 (q.a2.toNat / 2)) ∧
    ∀ m ∈ ([0, 1, 4] : List Word), ∃ (s : State) (q : Pending), q.a2 = m ∧ s.pending = some q ∧ s.Aligned q.a0 ∧
      s.InRange q.a0 (2 * s.w * q.a2.toNat) ∧ s.InRange q.a1 (q.a2.toNat / 2) := by
  refine ⟨⟨withSymbols 4 0 2, _, rfl, by decide⟩, ⟨withSymbols 0xFFF0 0 2, _, rfl, by decide, by decide⟩,
    ⟨withSymbols 0xFFE0 0x10000 2, _, rfl, by decide, by decide, by decide⟩, ?_⟩
  intro m h
  simp only [List.mem_cons, List.not_mem_nil, or_false] at h
  rcases h with rfl | rfl | rfl <;>
    exact ⟨withSymbols 0x200 0xFFFE _, _, rfl, rfl, by decide, by decide, by decide⟩

theorem witness_LlrIsTheScaledDifferenceOfMinima :
    ∃ (j : Nat) (dj : Fp), (List.replicate 16 Fp.zero)[j]? = some dj ∧ j.testBit 3 = true ∧ j = 15 :=
  ⟨15, _, rfl, by decide, rfl⟩

/-- Both cases of the minimum: a NaN and an infinity are never taken, and the first of equal distances is. -/
theorem witness_LlrIsTheScaledDifferenceOfMinima_minimum :
    let two := ofInt .f32 2
    minWithBit .f32 0 true 0 (.inf false) [two, .nan 0x7FC00000, two, .inf false] = .inf false ∧
    minWithBit .f32 0 true 0 (.inf false) [Fp.zero, .nan 0x7FC00000, two, two, two, ofInt .f32 3] = two ∧
    flt .f32 two (.inf false) = true := by decide +kernel

theorem witness_QamLlrWritesFourLlrsASymbol :
    (∃ (s : State) (q : Pending), s.pending = some q ∧ ¬ s.Aligned q.a0) ∧
    (∃ (s : State) (q : Pending), s.pending = some q ∧ s.Aligned q.a0 ∧ ¬ s.Aligned q.a1) ∧
    (∃ (s : State) (q : Pending), s.pending = some q ∧ s.Aligned q.a0 ∧ s.Aligned q.a1 ∧
      ¬ s.InRange q.a0 (2 * s.w * q.a2.toNat)) ∧
    (∃ (s : State) (q : Pending), s.pending = some q ∧ s.Aligned q.a0 ∧ s.Aligned q.a1 ∧
      s.InRange q.a0 (2 * s.w * q.a2.toNat) ∧ ¬ s.InRange q.a1 (4 * s.w * q.a2.toNat)) ∧
    ∃ (s : State) (q : Pending), s.pending = some q ∧ s.Aligned q.a0 ∧ s.Aligned q.a1 ∧
      s.InRange q.a0 (2 * s.w * q.a2.toNat) ∧ s.InRange q.a1 (4 * s.w * q.a2.toNat) ∧ q.a2 = 1 :=
  ⟨⟨withSymbols 4 0 2, _, rfl, by decide⟩, ⟨withSymbols 0 4 2, _, rfl, by decide, by decide⟩,
   ⟨withSymbols 0xFFF0 0 2, _, rfl, by decide, by decide, by decide⟩,
   ⟨withSymbols 0x200 0xFFE8 1, _, rfl, by decide, by decide, by decide, by decide⟩,
   ⟨withSymbols 0x200 0xFFE0 1, _, rfl, by decide, by decide, by decide, by decide, rfl⟩⟩

theorem witness_HardDecodingInvertsEncoding :
    ∃ (s t : State) (q d : Pending), s.pending = some q ∧ exec .qamEnc s = .next t ∧ t.code = .ok ∧
      d.a0 = q.a1 ∧ d.a2.toNat = 2 * q.a2.toNat ∧ s.InRange d.a1 q.a2.toNat ∧ q.a2 = 2 :=
  ⟨with4 0x100 0x200 2 0, _, _, cmdOf 0x31 0x200 0xFFFE 4 0, rfl, rfl, rfl, rfl, by decide, by decide, rfl⟩

theorem witness_SoftDecisionEqualsHardOnCleanSymbols :
    ∃ j v, j < 16 ∧ 0 < v ∧ FiniteMag .f64 v ∧ j = 15 ∧ v = 0x7FEFFFFFFFFFFFFF :=
  ⟨15, 0x7FEFFFFFFFFFFFFF, by decide, by decide, by decide +kernel, rfl, rfl⟩

/-! #### AWGN -/

/-- An initialised channel with a pending command. -/
def withAwgn (a0 a1 a2 : Word) : State :=
  State.ready { base .f64 with awgn := ⟨true, 0x4024000000000000, 77⟩ } (cmdOf 0 a0 a1 a2 0)

theorem witness_AwgnInitSetsSnrAndSeed : ∃ (s : State) (q : Pending), s.pending = some q := ⟨with4 0 0 0 0, _, rfl⟩

theorem witness_AwgnSnrKeepsTheGenerator :
    (∃ (s : State) (q : Pending), s.pending = some q ∧ s.awgn.valid = false) ∧
    ∃ (s : State) (q : Pending), s.pending = some q ∧ s.awgn.valid = true :=
  ⟨⟨with4 0 0 0 0, _, rfl, rfl⟩, ⟨withAwgn 0 0 0, _, rfl, rfl⟩⟩

theorem witness_AwgnApplyAddsAndReturnsNoise :
    let share := fun (s : State) (q : Pending) => ∃ x,
      (q.a0.toNat ≤ x ∧ x < q.a0.toNat + 2 * s.w * q.a2.toNat) ∧
      (q.a1.toNat ≤ x ∧ x < q.a1.toNat + 2 * s.w * q.a2.toNat)
    let good := fun (s : State) (q : Pending) => s.awgn.valid = true ∧ s.Aligned q.a0 ∧ s.Aligned q.a1 ∧
      s.InRange q.a0 (2 * s.w * q.a2.toNat) ∧ s.InRange q.a1 (2 * s.w * q.a2.toNat)
    (∃ (s : State) (q : Pending), s.pending = some q ∧ s.awgn.valid = false) ∧
    (∃ (s : State) (q : Pending), s.pending = some q ∧ s.awgn.valid = true ∧ ¬ s.Aligned q.a0) ∧
    (∃ (s : State) (q : Pending), s.pending = some q ∧ s.awgn.valid = true ∧ s.Aligned q.a0 ∧
      ¬ s.Aligned q.a1) ∧
    (∃ (s : State) (q : Pending), s.pending = some q ∧ s.awgn.valid = true ∧ s.Aligned q.a0 ∧ s.Aligned q.a1 ∧
      ¬ s.InRange q.a0 (2 * s.w * q.a2.toNat)) ∧
    (∃ (s : State) (q : Pending), s.pending = some q ∧ s.awgn.valid = true ∧ s.Aligned q.a0 ∧ s.Aligned q.a1 ∧
      s.InRange q.a0 (2 * s.w * q.a2.toNat) ∧ ¬ s.InRange q.a1 (2 * s.w * q.a2.toNat)) ∧
    (∃ (s : State) (q : Pending), s.pending = some q ∧ good s q ∧ share s q) ∧
    (∃ (s : State) (q : Pending), s.pending = some q ∧ good s q ∧ q.a2.toNat = 0) ∧
    ∃ (s : State) (q : Pending), s.pending = some q ∧ good s q ∧ ¬ share s q ∧ 0 < q.a2.toNat := by
  refine ⟨⟨with4 0 0 0 0, _, rfl, rfl⟩, ⟨withAwgn 4 0 1, _, rfl, rfl, by decide⟩,
    ⟨withAwgn 0 4 1, _, rfl, rfl, by decide, by decide⟩,
    ⟨withAwgn 0xFFF8 0 1, _, rfl, rfl, by decide, by decide, by decide⟩,
    ⟨withAwgn 0 0xFFF8 1, _, rfl, rfl, by decide, by decide, by decide, by decide⟩,
    ⟨withAwgn 0 8 1, _, rfl, by decide, 8, by decide⟩, ⟨withAwgn 0 0 0, _, rfl, by decide, by decide⟩,
    ⟨withAwgn 0 16 1, _, rfl, by decide, ?_, by decide⟩⟩
  rintro ⟨x, ⟨_, h⟩, h', _⟩
  have lo : 16 ≤ x := h'
  have hi : x < 16 := h
  omega

/-- Two regions that touch, the second at the end of LMEM, and the other way round. -/
theorem witness_NoiseTakesTwoDrawsASample :
    let good := fun (s : State) (q : Pending) => s.pending = some q ∧ s.awgn.valid = true ∧ s.Aligned q.a0 ∧
      s.Aligned q.a1 ∧ s.InRange q.a0 (2 * s.w * q.a2.toNat) ∧ s.InRange q.a1 (2 * s.w * q.a2.toNat) ∧
      0 < q.a2.toNat
    (∃ (s : State) (q : Pending), good s q ∧ q.a0.toNat + 2 * s.w * q.a2.toNat ≤ q.a1.toNat) ∧
    ∃ (s : State) (q : Pending), good s q ∧ q.a1.toNat + 2 * s.w * q.a2.toNat ≤ q.a0.toNat :=
  ⟨⟨withAwgn 0xFFC0 0xFFE0 2, _, ⟨rfl, by decide⟩, by decide⟩,
   ⟨withAwgn 0xFFE0 0xFFC0 2, _, ⟨rfl, by decide⟩, by decide⟩⟩

/-! #### The invariant -/

theorem witness_ResetMeetsTheInvariant : ∃ b : Build, b.Valid := ⟨vectorBuild .f32, by decide⟩

theorem witness_EveryStepKeepsTheInvariant : ∃ s t : State, s.Inv ∧ step s = .next t ∧ t.rings ≠ s.rings := by
  refine ⟨State.ready (base .f64) (cmdOf 0x1301 0x500 0 5 0), _, ?_, rfl, by decide⟩
  decide

end Sys2Proof.Tests
end

section
/-! PROOF of O60. What a command's effect must keep for the invariant to hold after it: one rule for each shared
operation, then one lemma for each command, each a chain of guards and a composition of those rules. -/

namespace Sys2Proof.Machine

/-! ### The part of the invariant a command's own effect can break -/

/-- The clauses of `State.Inv` about the ring file, LMEM and the SNR. The others are settled by completion. -/
structure State.DataInv (s : State) : Prop where
  rings_length : s.rings.length = s.build.numRings
  rings_ok : ∀ g ∈ s.rings, RingOk s g
  lmem_wf : s.lmem.wf = true
  lmem_addr : ∀ c ∈ s.lmem.cells, c.1 < s.build.memBytes
  snr_reset : s.awgn.valid = false → s.awgn.snr = 0

theorem State.inv_iff (s : State) :
    s.Inv ↔ s.build.Valid ∧ s.DataInv ∧ (s.code = .ok → s.info = 0) ∧ ∀ q ∈ s.pending, q.c = s.cmd := by
  constructor
  · rintro ⟨hv, hlen, hok, hwf, haddr, hinfo, hcmd, hsnr⟩
    exact ⟨hv, ⟨hlen, hok, hwf, haddr, hsnr⟩, hinfo, hcmd⟩
  · rintro ⟨hv, ⟨hlen, hok, hwf, haddr, hsnr⟩, hinfo, hcmd⟩
    exact ⟨hv, hlen, hok, hwf, haddr, hinfo, hcmd, hsnr⟩

/-- What makes a descriptor good depends on the build alone. -/
theorem RingOk.congr {s t : State} {g : Ring} (h : RingOk s g) (hb : t.build = s.build) : RingOk t g := by
  simpa only [RingOk, State.elemBytes, State.w, hb] using h

/-- The data clauses depend on no register, count or event. -/
theorem State.DataInv.congr {s t : State} (h : s.DataInv) (hb : t.build = s.build) (hr : t.rings = s.rings)
    (hl : t.lmem = s.lmem) (ha : t.awgn = s.awgn) : t.DataInv where
  rings_length := by rw [hr, hb, h.rings_length]
  rings_ok g hg := (h.rings_ok g (hr ▸ hg)).congr hb
  lmem_wf := hl ▸ h.lmem_wf
  lmem_addr c hc := hb ▸ h.lmem_addr c (hl ▸ hc)
  snr_reset hv := by rw [ha] at hv ⊢; exact h.snr_reset hv

/-! ### One rule for each update of the state -/

theorem State.DataInv.storeBytes {s : State} (h : s.DataInv) {a : Nat} {bs : List Byte}
    (hin : a + bs.length ≤ s.build.memBytes) : (s.storeBytes a bs).DataInv where
  rings_length := h.rings_length
  rings_ok := h.rings_ok
  lmem_wf := Memory.wf_putAll _ _ _ h.lmem_wf
  lmem_addr c hc := by
    rcases Memory.mem_putAll hc with hnew | hold
    · exact hnew.2.trans_le hin
    · exact h.lmem_addr c hold
  snr_reset := h.snr_reset

theorem State.DataInv.storeCs {s : State} (h : s.DataInv) {a : Nat} {zs : List Cx}
    (hin : a + s.cxBytes zs.length ≤ s.build.memBytes) : (s.storeCs a zs).DataInv :=
  h.storeBytes (by rwa [cBytes_flatMap_length])

theorem State.DataInv.storeFs {s : State} (h : s.DataInv) {a : Nat} {xs : List Fp}
    (hin : a + s.w * xs.length ≤ s.build.memBytes) : (s.storeFs a xs).DataInv :=
  h.storeBytes (by rwa [fBytes_flatMap_length])

theorem State.DataInv.setRing {s : State} (h : s.DataInv) (r : Fin 16) {g : Ring} (hg : RingOk s g) :
    (s.setRing r g).DataInv where
  rings_length := by simpa using h.rings_length
  rings_ok g' hg' := by
    rcases List.mem_or_eq_of_mem_set hg' with hold | rfl
    · exact h.rings_ok g' hold
    · exact hg
  lmem_wf := h.lmem_wf
  lmem_addr := h.lmem_addr
  snr_reset := h.snr_reset

theorem State.DataInv.drawing {s : State} (h : s.DataInv) {α : Type} (c : Draw α) : (s.drawing c).2.DataInv :=
  h.congr rfl rfl rfl rfl

theorem State.DataInv.setAwgn {s : State} (h : s.DataInv) {w : Awgn} (hw : w.valid = false → w.snr = 0) :
    State.DataInv { s with awgn := w } where
  rings_length := h.rings_length
  rings_ok := h.rings_ok
  lmem_wf := h.lmem_wf
  lmem_addr := h.lmem_addr
  snr_reset := hw

theorem State.DataInv.resetOf (b : Build) (n : Nat) : (State.resetOf b n).DataInv where
  rings_length := List.length_replicate
  rings_ok g hg := by
    rw [List.eq_of_mem_replicate hg]
    simp [RingOk, Ring.reset]
  lmem_wf := rfl
  lmem_addr := by simp [State.resetOf]
  snr_reset _ := rfl

/-! ### Rings -/

/-- What the invariant says of a valid descriptor (40_ring.md R100). -/
theorem State.DataInv.ring {s : State} (h : s.DataInv) {r : Fin 16} {g : Ring} (hr : s.rings[r.val]? = some g)
    (hv : g.valid = true) :
    g.cur.toNat < g.cap.toNat ∧ g.base.toNat + s.elemBytes g.kind * g.cap.toNat ≤ s.build.memBytes ∧
      (g.kind = .complex → g.base.toNat % s.w = 0) := by
  have hok := h.rings_ok g (List.mem_of_getElem? hr)
  simp only [RingOk, hv, if_true] at hok
  exact hok.2

/-- Moving the cursor on keeps a descriptor good. -/
theorem State.DataInv.ringOk_advance {s : State} (h : s.DataInv) {r : Fin 16} {g : Ring}
    (hr : s.rings[r.val]? = some g) (hv : g.valid = true) (n : Nat) : RingOk s (g.advance n) := by
  obtain ⟨hcur, hin, hal⟩ := h.ring hr hv
  have hlt : (g.cur.toNat + n) % g.cap.toNat < g.cap.toNat := Nat.mod_lt _ (by omega)
  have hcap := g.cap.isLt
  simp only [RingOk, Ring.advance, hv, if_true, BitVec.toNat_ofNat]
  exact ⟨by omega, by rwa [Nat.mod_eq_of_lt (hlt.trans hcap)], hin, hal⟩

/-- A slot of a region of `cap` elements lies in the region. -/
theorem slot_in_region {base es i cap m : Nat} (hi : i < cap) (hin : base + es * cap ≤ m) :
    base + es * i + es ≤ m := by
  have : es * (i + 1) ≤ es * cap := Nat.mul_le_mul_left es hi
  rw [Nat.mul_succ] at this
  omega

theorem State.DataInv.writeSlots {old s : State} {g : Ring} (src : Nat) (ks : List Nat) (h : s.DataInv)
    (hb : s.build = old.build) (hcap : 0 < g.cap.toNat)
    (hin : g.base.toNat + old.elemBytes g.kind * g.cap.toNat ≤ old.build.memBytes) :
    (old.writeSlots g src ks s).DataInv := by
  induction ks generalizing s with
  | nil => exact h
  | cons k ks ih =>
    have hslot := slot_in_region (Nat.mod_lt (g.cur.toNat + k) hcap) hin
    exact ih (h.storeBytes (by rw [State.loadBytes_length, hb]; exact hslot)) hb

@[simp] theorem State.writeSlots_build (old : State) (g : Ring) (src : Nat) (ks : List Nat) (s : State) :
    (old.writeSlots g src ks s).build = s.build := by
  rw [State.writeSlots_same]

/-! ### What performing a command may come to -/

/-- An error has a code other than OK; an end keeps the build parameters, and the data clauses. -/
def Result.Keeps (s : State) : Result → Prop
  | .done t => t.build = s.build ∧ (s.DataInv → t.DataInv)
  | .raise e _ => e ≠ .ok

/-- A check that raises an error may stand before what keeps the invariant. -/
theorem Result.Keeps.guard {s : State} {c : Prop} [Decidable c] {e : StatusCode} {i : Word} {k : Result}
    (he : e ≠ .ok) (hk : ¬ c → k.Keeps s) : Result.Keeps s (if c then .raise e i else k) := by
  split
  · exact he
  · exact hk ‹_›

theorem State.withRing_keeps {s : State} {q : Pending} {r : Fin 16} {k : Ring → Result}
    (hk : ∀ g, s.rings[r.val]? = some g → (k g).Keeps s) : (s.withRing q r k).Keeps s := by
  rcases s.withRing_cases q r k with ⟨_, e⟩ | ⟨g, hg, e⟩ <;> rw [e]
  · exact StatusCode.noConfusion
  · exact hk g hg

theorem State.withValidRing_keeps {s : State} {q : Pending} {r : Fin 16} {k : Ring → Result}
    (hk : ∀ g, s.rings[r.val]? = some g → g.valid = true → (k g).Keeps s) : (s.withValidRing q r k).Keeps s :=
  State.withRing_keeps fun g hg => by
    cases hv : g.valid with
    | false => exact StatusCode.noConfusion
    | true => exact hk g hg hv

/-- Completion of what keeps the data clauses keeps the invariant (60_exceptions.md R240). -/
theorem State.complete_keeps {s : State} {r : Result} (h : r.Keeps s) :
    (s.complete r).build = s.build ∧ (s.Inv → (s.complete r).Inv) := by
  cases r with
  | done t =>
    obtain ⟨hb, hd⟩ := h
    refine ⟨hb, fun hs => ?_⟩
    obtain ⟨hv, hdata, -, -⟩ := s.inv_iff.1 hs
    exact (State.inv_iff _).2 ⟨hb ▸ hv, (hd hdata).congr rfl rfl rfl rfl, by simp, by simp⟩
  | raise e i =>
    refine ⟨rfl, fun hs => ?_⟩
    obtain ⟨hv, hdata, -, -⟩ := s.inv_iff.1 hs
    exact (State.inv_iff _).2 ⟨hv, hdata.congr rfl rfl rfl rfl, fun he => absurd he h, by simp⟩

theorem State.perform_keeps {s t : State} {body : Pending → Result} (hb : ∀ q, (body q).Keeps s)
    (h : s.perform body = .next t) : t.build = s.build ∧ (s.Inv → t.Inv) := by
  rcases State.perform_cases h with ⟨-, rfl⟩ | ⟨q, -, rfl⟩
  · exact ⟨rfl, id⟩
  · exact State.complete_keeps (hb q)

/-! ### Each command -/

theorem State.inRange_of_not_outside {s : State} {a : Word} {n : Nat} (h : ¬ s.outside a n = true) :
    a.toNat + n ≤ s.build.memBytes :=
  State.outside_eq_false.1 (Bool.eq_false_of_not_eq_true h)

theorem State.aligned_of_not_misaligned {s : State} {k : RingKind} {a : Word} (h : ¬ s.elemMisaligned k a = true)
    (hk : k = .complex) : a.toNat % s.w = 0 := by
  subst hk
  exact State.misaligned_eq_false.1 (Bool.eq_false_of_not_eq_true h)

theorem ringNewResult_keeps (s : State) (r : Fin 16) (kind : RingKind) (q : Pending) :
    (ringNewResult s r kind q).Keeps s :=
  State.withRing_keeps fun _ _ =>
    .guard (by decide) fun hcap => .guard (by decide) fun hal => .guard (by decide) fun hin =>
      ⟨rfl, fun h => by
        have hin := State.inRange_of_not_outside hin
        refine (h.storeBytes (by rwa [List.length_replicate])).setRing r ?_
        have hpos : 0 < q.a2.toNat := Nat.pos_of_ne_zero fun h0 => hcap (BitVec.eq_of_toNat_eq h0)
        exact ⟨hpos, hpos, hin, State.aligned_of_not_misaligned hal⟩⟩

theorem ringSizeResult_keeps (s : State) (r : Fin 16) (q : Pending) : (ringSizeResult s r q).Keeps s :=
  State.withValidRing_keeps fun _ _ _ => ⟨rfl, fun h => h.congr rfl rfl rfl rfl⟩

theorem ringAtResult_keeps (s : State) (r : Fin 16) (q : Pending) : (ringAtResult s r q).Keeps s :=
  State.withValidRing_keeps fun _ _ _ =>
    .guard (by decide) fun _ => .guard (by decide) fun _ => .guard (by decide) fun hin =>
      ⟨rfl, fun h => h.storeBytes (by
        rw [State.loadBytes_length]; exact State.inRange_of_not_outside hin)⟩

theorem ringPush1Result_keeps (s : State) (r : Fin 16) (q : Pending) : (ringPush1Result s r q).Keeps s :=
  State.withValidRing_keeps fun _ hr hv => .guard (by decide) fun _ => .guard (by decide) fun _ =>
    ⟨rfl, fun h => by
      obtain ⟨hcur, hin, -⟩ := h.ring hr hv
      refine (h.storeBytes ?_).setRing r (h.ringOk_advance hr hv 1)
      rw [State.loadBytes_length]
      exact slot_in_region hcur hin⟩

theorem ringPushNResult_keeps (s : State) (r : Fin 16) (q : Pending) : (ringPushNResult s r q).Keeps s :=
  State.withValidRing_keeps fun g hr hv => .guard (by decide) fun _ => .guard (by decide) fun _ =>
    ⟨by simp, fun h => by
      obtain ⟨hcur, hin, -⟩ := h.ring hr hv
      exact (h.writeSlots _ _ rfl (by omega) hin).setRing r
        ((h.ringOk_advance hr hv q.a2.toNat).congr (State.writeSlots_build ..))⟩

theorem ringReadResult_keeps (s : State) (r : Fin 16) (q : Pending) : (ringReadResult s r q).Keeps s :=
  State.withValidRing_keeps fun g _ _ => .guard (by decide) fun _ => .guard (by decide) fun hin =>
    ⟨rfl, fun h => h.storeBytes (by
      rw [flatMap_length_const _ (s.elemBytes g.kind) fun i => State.loadBytes_length _ _ _, List.length_range]
      exact State.inRange_of_not_outside hin)⟩

/-- A transform of a power of two samples, read from LMEM, has as many. -/
theorem fftCore_loadCs_length {s : State} (inverse : Bool) (a : Nat) {n : Nat} (hn : ¬ (!isPow2 n) = true) (d : Nat) :
    (fftCore s.build inverse (s.loadCs a n) d).1.length = n := by
  obtain ⟨k, rfl⟩ := (isPow2_iff n).1 (by simpa using hn)
  rw [fftCore_length _ _ k _ _ (State.loadCs_length ..), State.loadCs_length]

theorem transformResult_keeps (s : State) (inverse : Bool) (q : Pending) : (transformResult s inverse q).Keeps s :=
  .guard (by decide) fun hn => .guard (by decide) fun _ => .guard (by decide) fun hin =>
    ⟨rfl, fun h => (h.drawing _).storeCs (by
      rw [State.drawing_fst, fftCore_loadCs_length inverse _ hn]
      exact State.inRange_of_not_outside hin)⟩

/-- A block is `l` samples longer than its symbol, `l` at most the symbol's length (42_ofdm.md R160). -/
theorem withPrefix_length {l : Nat} {x : List Cx} (h : l ≤ x.length) : (withPrefix l x).length = x.length + l := by
  simp only [withPrefix, List.length_append, List.length_drop]
  omega

theorem ofdmTxResult_keeps (s : State) (q : Pending) : (ofdmTxResult s q).Keeps s :=
  .guard (by decide) fun hn => .guard (by decide) fun hl => .guard (by decide) fun _ => .guard (by decide) fun _ =>
    .guard (by decide) fun _ => .guard (by decide) fun hin =>
      ⟨rfl, fun h => (h.drawing _).storeCs (by
        have hlen := fftCore_loadCs_length (s := s) true q.a0.toNat hn s.draws
        rw [State.drawing_fst, withPrefix_length (by omega), hlen]
        exact State.inRange_of_not_outside hin)⟩

theorem ofdmRxResult_keeps (s : State) (q : Pending) : (ofdmRxResult s q).Keeps s :=
  .guard (by decide) fun hn => .guard (by decide) fun _ => .guard (by decide) fun _ => .guard (by decide) fun _ =>
    .guard (by decide) fun hin =>
      ⟨rfl, fun h => (h.drawing _).storeCs (by
        rw [State.drawing_fst, fftCore_loadCs_length false _ (not_or.1 hn).2]
        exact State.inRange_of_not_outside hin)⟩

theorem qamEncResult_keeps (s : State) (q : Pending) : (qamEncResult s q).Keeps s :=
  .guard (by decide) fun _ => .guard (by decide) fun _ => .guard (by decide) fun hin =>
    ⟨rfl, fun h => (h.drawing _).storeCs (by
      rw [State.drawing_fst, Draw.each_length, nibbles_length, State.loadBytes_length]
      exact State.inRange_of_not_outside hin)⟩

theorem qamDecHardResult_keeps (s : State) (q : Pending) : (qamDecHardResult s q).Keeps s :=
  .guard (by decide) fun _ => .guard (by decide) fun _ => .guard (by decide) fun hin => by
    dsimp only
    split
    · exact StatusCode.noConfusion
    · refine ⟨rfl, fun h => (h.drawing _).storeBytes ?_⟩
      have hin := State.inRange_of_not_outside hin
      simpa using hin

theorem qamDecSoftResult_keeps (s : State) (q : Pending) : (qamDecSoftResult s q).Keeps s :=
  .guard (by decide) fun _ => .guard (by decide) fun _ => .guard (by decide) fun hin =>
    ⟨rfl, fun h => (h.drawing _).storeBytes (by
      have hin := State.inRange_of_not_outside hin
      simpa using hin)⟩

theorem qamLlrResult_keeps (s : State) (q : Pending) : (qamLlrResult s q).Keeps s :=
  .guard (by decide) fun _ => .guard (by decide) fun _ => .guard (by decide) fun _ => .guard (by decide) fun hin =>
    ⟨rfl, fun h => (h.drawing _).storeFs (by
      rw [State.drawing_fst, each_llr_flatten_length, State.loadCs_length, ← Nat.mul_assoc, Nat.mul_comm _ 4]
      exact State.inRange_of_not_outside hin)⟩

theorem awgnInitResult_keeps (s : State) (seedGiven : Bool) (q : Pending) : (awgnInitResult s seedGiven q).Keeps s :=
  ⟨rfl, fun h => ((h.drawing _).drawing _).setAwgn nofun⟩

theorem awgnSnrResult_keeps (s : State) (q : Pending) : (awgnSnrResult s q).Keeps s :=
  .guard (by decide) fun hv => ⟨rfl, fun h => (h.drawing _).setAwgn fun hv' => absurd hv' (by simpa using hv)⟩

theorem awgnApplyResult_keeps (s : State) (unit : Bool) (q : Pending) : (awgnApplyResult s unit q).Keeps s :=
  .guard (by decide) fun _ => .guard (by decide) fun _ => .guard (by decide) fun _ => .guard (by decide) fun hin0 =>
    .guard (by decide) fun hin1 => .guard (by decide) fun _ => by
      split
      · exact ⟨rfl, id⟩
      · refine ⟨rfl, fun h => (((h.drawing _).setAwgn ?_).storeCs ?_).storeCs ?_⟩
        · exact h.snr_reset
        · rw [State.drawing_fst, (applyNoise_lengths ..).1, State.loadCs_length]
          exact State.inRange_of_not_outside hin0
        · rw [State.drawing_fst, (applyNoise_lengths ..).2, State.loadCs_length]
          exact State.inRange_of_not_outside hin1

theorem exec_keeps_inv {i : Instr} {s t : State} (h : exec i s = .next t) :
    t.build = s.build ∧ (s.Inv → t.Inv) := by
  cases i with
  | ringNew r kind => exact State.perform_keeps (ringNewResult_keeps s r kind) h
  | ringSize r => exact State.perform_keeps (ringSizeResult_keeps s r) h
  | ringAt r => exact State.perform_keeps (ringAtResult_keeps s r) h
  | ringPush1 r => exact State.perform_keeps (ringPush1Result_keeps s r) h
  | ringPushN r => exact State.perform_keeps (ringPushNResult_keeps s r) h
  | ringRead r => exact State.perform_keeps (ringReadResult_keeps s r) h
  | fft => exact State.perform_keeps (transformResult_keeps s false) h
  | ifft => exact State.perform_keeps (transformResult_keeps s true) h
  | ofdmTx => exact State.perform_keeps (ofdmTxResult_keeps s) h
  | ofdmRx => exact State.perform_keeps (ofdmRxResult_keeps s) h
  | qamEnc => exact State.perform_keeps (qamEncResult_keeps s) h
  | qamDecHard => exact State.perform_keeps (qamDecHardResult_keeps s) h
  | qamDecSoft => exact State.perform_keeps (qamDecSoftResult_keeps s) h
  | qamLlr => exact State.perform_keeps (qamLlrResult_keeps s) h
  | awgnInit seedGiven => exact State.perform_keeps (awgnInitResult_keeps s seedGiven) h
  | awgnSnr => exact State.perform_keeps (awgnSnrResult_keeps s) h
  | awgnApply unitPower => exact State.perform_keeps (awgnApplyResult_keeps s unitPower) h

/-! ### The engine's turn, the host and reset -/

theorem engineTurn_keeps_inv {s t : State} (h : s.engineTurn = .next t) :
    t.build = s.build ∧ (s.Inv → t.Inv) := by
  unfold State.engineTurn at h
  split at h
  · cases h; exact ⟨rfl, id⟩
  · split at h
    · cases h
      exact State.complete_keeps (r := .raise .illegalCmd _) StatusCode.noConfusion
    · exact exec_keeps_inv h

/-- The invariant depends on no register but CODE, INFO and CMD. -/
theorem State.Inv.congr {s t : State} (h : s.Inv) (hb : t.build = s.build) (hr : t.rings = s.rings)
    (hl : t.lmem = s.lmem) (ha : t.awgn = s.awgn) (hc : t.code = s.code) (hi : t.info = s.info)
    (hp : ∀ q ∈ t.pending, q.c = t.cmd) : t.Inv := by
  obtain ⟨hv, hdata, hinfo, -⟩ := s.inv_iff.1 h
  exact t.inv_iff.2 ⟨hb ▸ hv, hdata.congr hb hr hl ha, by rwa [hc, hi], hp⟩

/-- The pending word is the last accepted one: an accepted CMD write latches the word it records (10_state.md R26). -/
theorem State.writeCmd_keeps_inv (s : State) (c : Word) (h : s.Inv) : (s.writeCmd c).Inv := by
  unfold State.writeCmd
  split
  · exact h
  · exact h.congr rfl rfl rfl rfl rfl rfl (by simp [State.latch])

theorem State.writeCmd_build (s : State) (c : Word) : (s.writeCmd c).build = s.build := by
  unfold State.writeCmd
  split <;> rfl

theorem State.writeReg_build (s : State) (off : Nat) (v : Word) : (s.writeReg off v).build = s.build := by
  unfold State.writeReg
  split
  case h_2 => exact s.writeCmd_build v
  all_goals rfl

theorem State.writeReg_keeps_inv (s : State) (off : Nat) (v : Word) (h : s.Inv) : (s.writeReg off v).Inv := by
  unfold State.writeReg
  split
  case h_2 => exact s.writeCmd_keeps_inv v h
  all_goals exact h

theorem hostRead_keeps_inv {s t : State} {addr n : Nat} (h : s.hostRead addr n = .next t) :
    t.build = s.build ∧ (s.Inv → t.Inv) := by
  have key : ∃ d, t = { s with rdata := d } := by
    unfold State.hostRead at h
    split at h
    · cases h
    · split at h <;> cases h
      exact ⟨_, rfl⟩
    · split at h
      · cases h
      · split at h <;> cases h
        exact ⟨_, rfl⟩
  obtain ⟨d, rfl⟩ := key
  exact ⟨rfl, id⟩

theorem hostWrite_keeps_inv {s t : State} {addr n : Nat} {data : BitVec 64}
    (h : s.hostWrite addr n data = .next t) : t.build = s.build ∧ (s.Inv → t.Inv) := by
  unfold State.hostWrite at h
  split at h
  · cases h
  · split at h <;> cases h
    exact ⟨s.writeReg_build _ _, s.writeReg_keeps_inv _ _⟩
  · split at h
    · cases h
    · rename_i hshape
      split at h <;> cases h
      simp only [lmemShapeOk, Bool.not_eq_true', Bool.and_eq_false_iff, not_or, Bool.not_eq_false,
        decide_eq_true_eq] at hshape
      refine ⟨rfl, fun hs => ?_⟩
      obtain ⟨hv, hdata, hinfo, hcmd⟩ := s.inv_iff.1 hs
      exact (State.inv_iff _).2 ⟨hv, hdata.storeBytes (by simpa using hshape.2), hinfo, hcmd⟩

theorem hostReset_keeps_inv (s : State) (h : s.Inv) : s.hostReset.Inv := by
  obtain ⟨hv, -, -, -⟩ := s.inv_iff.1 h
  refine (State.inv_iff _).2 ⟨hv, (State.DataInv.resetOf s.build (s.epoch + 1)).congr rfl rfl rfl rfl, ?_, ?_⟩ <;>
    simp [State.hostReset, State.resetOf]

/-- Settles O60: the step is the engine's turn, a host access or a reset, from a state with one event fewer, and each
keeps the invariant. -/
theorem everyStepKeepsTheInvariant : Obligations.EveryStepKeepsTheInvariant := by
  unfold Obligations.EveryStepKeepsTheInvariant
  intro s t h
  unfold step at h
  split at h
  · exact engineTurn_keeps_inv h
  · exact (engineTurn_keeps_inv h :)
  · exact (hostRead_keeps_inv h :)
  · exact (hostWrite_keeps_inv h :)
  · cases h
    exact ⟨rfl, (hostReset_keeps_inv _ :)⟩

end Sys2Proof.Machine
end

section
/-! The values of F as whole numbers of quanta. The quanta of a magnitude rise with it, so the value nearest a real is
found between two neighbouring magnitudes; `finish_isRounded` says when a magnitude with a sign is a real rounded. -/

namespace Sys2Proof.Machine

/-! ### The quanta of a magnitude -/

/-- `k` units of weight `2 ^ s`, the significand `k` normalised or `s` the least exponent. -/
theorem units_shift (p : Precision) {s k : Nat} (hk : k ≤ 2 ^ (p.fracBits + 1))
    (hs : s = 0 ∨ 2 ^ p.fracBits ≤ k) : units p (s * 2 ^ p.fracBits + k) = k * 2 ^ s := by
  have hF : 0 < 2 ^ p.fracBits := by positivity
  rw [pow_succ] at hk
  unfold units
  generalize 2 ^ p.fracBits = F at *
  rcases lt_or_ge k F with hlt | hge
  · obtain rfl : s = 0 := by omega
    simp [hlt]
  · rw [if_neg (not_lt.2 (hge.trans (Nat.le_add_left ..)))]
    rcases hk.lt_or_eq with hlt | rfl
    · obtain ⟨r, rfl⟩ := Nat.exists_eq_add_of_le hge
      have hr : r < F := by omega
      rw [show s * F + (F + r) = r + F * (s + 1) by ring, Nat.add_mul_mod_self_left, Nat.add_mul_div_left _ _ hF,
        Nat.mod_eq_of_lt hr, Nat.div_eq_of_lt hr]
      simp
    · rw [show s * F + F * 2 = F * (s + 1 + 1) by ring, Nat.mul_mod_right, Nat.mul_div_cancel_left _ hF,
        Nat.add_sub_cancel, pow_succ]
      ring

/-- Every magnitude is a significand and an exponent as in `units_shift`. -/
theorem exists_shift (p : Precision) (m : Nat) :
    ∃ s k, m = s * 2 ^ p.fracBits + k ∧ k < 2 ^ (p.fracBits + 1) ∧ (s = 0 ∨ 2 ^ p.fracBits ≤ k) := by
  have hdiv := Nat.div_add_mod' m (2 ^ p.fracBits)
  have hmod := Nat.mod_lt m (show 0 < 2 ^ p.fracBits by positivity)
  rw [pow_succ]
  cases he : m / 2 ^ p.fracBits with
  | zero => exact ⟨0, m, by simp, by rw [he] at hdiv; omega, .inl rfl⟩
  | succ e =>
    rw [he, Nat.succ_mul] at hdiv
    exact ⟨e, 2 ^ p.fracBits + m % 2 ^ p.fracBits, by omega, by omega, .inr (by omega)⟩

theorem units_strictMono (p : Precision) : StrictMono (units p) := by
  refine strictMono_nat_of_lt_succ fun m => ?_
  obtain ⟨s, k, rfl, hk, hs⟩ := exists_shift p m
  rw [units_shift p hk.le hs, Nat.add_assoc, units_shift p hk (by omega)]
  exact Nat.mul_lt_mul_of_pos_right (by omega) (by positivity)

@[simp] theorem units_zero (p : Precision) : units p 0 = 0 := by simp [units]

theorem units_eq_zero {p : Precision} {m : Nat} : units p m = 0 ↔ m = 0 :=
  (units_strictMono p).injective.eq_iff' (units_zero p)

/-! ### Values in quanta -/

/-- The least subnormal. -/
noncomputable def quantum (p : Precision) : ℝ := (2 ^ p.scale)⁻¹

theorem quantum_pos (p : Precision) : 0 < quantum p := by unfold quantum; positivity

theorem two_pow_scale_mul_quantum (p : Precision) : (2 : ℝ) ^ p.scale * quantum p = 1 :=
  mul_inv_cancel₀ (by positivity)

/-- The quantum is the unit in the last place of the least exponent. -/
theorem scale_eq (p : Precision) : (p.scale : ℤ) = expBias p - 1 + p.fracBits := by cases p <;> rfl

theorem magValue_eq (p : Precision) (m : Nat) : (magValue p m : ℝ) = units p m * quantum p := by
  have hq : quantum p = (2 : ℝ) ^ (1 - expBias p) / 2 ^ p.fracBits := by
    rw [quantum, ← zpow_natCast, ← zpow_natCast, ← zpow_neg, ← zpow_sub₀ two_ne_zero, scale_eq]
    congr 1; ring
  have hF : (2 : ℝ) ^ p.fracBits ≠ 0 := by positivity
  have hzero : m / 2 ^ p.fracBits = 0 ↔ m < 2 ^ p.fracBits := by
    rw [Nat.div_eq_zero_iff]; simp
  rw [hq]
  unfold magValue units
  by_cases hm : m < 2 ^ p.fracBits
  · simp only [hzero.2 hm, Nat.mod_eq_of_lt hm, hm, if_true, Nat.cast_zero]
    push_cast
    ring
  · obtain ⟨e, he⟩ := Nat.exists_eq_succ_of_ne_zero (mt hzero.1 hm)
    have hexp : ((e + 1 : ℤ)) - expBias p = 1 - expBias p + e := by ring
    simp only [he, hm, if_false, Nat.succ_eq_add_one, Nat.cast_add, Nat.cast_one, Nat.add_sub_cancel]
    rw [if_neg (by omega), hexp, zpow_add₀ two_ne_zero, zpow_natCast]
    push_cast
    field_simp

theorem finValue_eq (p : Precision) (neg : Bool) (m : Nat) :
    (finValue p neg m : ℝ) = signedUnits p neg m * quantum p := by
  cases neg <;> simp [finValue, signedUnits, magValue_eq]

theorem abs_finValue (p : Precision) (neg : Bool) (m : Nat) : |(finValue p neg m : ℝ)| = units p m * quantum p := by
  have := quantum_pos p
  rw [finValue_eq, abs_mul, abs_of_pos this]
  cases neg <;> simp [signedUnits]

theorem finValue_not (p : Precision) (neg : Bool) (m : Nat) : finValue p (!neg) m = -finValue p neg m := by
  cases neg <;> simp [finValue]

theorem finValue_eq_zero {p : Precision} {neg : Bool} {m : Nat} : (finValue p neg m : ℝ) = 0 ↔ m = 0 := by
  rw [← abs_eq_zero, abs_finValue, mul_eq_zero, Nat.cast_eq_zero, units_eq_zero, or_iff_left (quantum_pos p).ne']

/-- The sign bit of a value that is not zero is its sign. -/
theorem finValue_neg_iff {p : Precision} {neg : Bool} {m : Nat} (h : (finValue p neg m : ℝ) ≠ 0) :
    neg = true ↔ (finValue p neg m : ℝ) < 0 := by
  have hpos : 0 < units p m * quantum p := by
    rw [← abs_finValue p neg]; exact abs_pos.2 h
  rw [finValue_eq]
  cases neg with
  | false => simpa [signedUnits] using hpos.le
  | true => simpa [signedUnits] using hpos

/-! ### The nearest magnitude -/

/-- `m` is the magnitude nearest `X` quanta, ties to even, with no upper bound. -/
def IsNearest (p : Precision) (X : ℝ) (m : Nat) : Prop :=
  ∀ m', |(units p m : ℝ) - X| ≤ |(units p m' : ℝ) - X| ∧
    (|(units p m : ℝ) - X| = |(units p m' : ℝ) - X| → m' ≠ m → m % 2 = 0)

/-- Between two neighbouring magnitudes the nearer is the nearest, the even one at the middle. -/
theorem isNearest_of_between {p : Precision} {X : ℝ} {c m : Nat} (hlo : (units p c : ℝ) ≤ X)
    (hhi : X < units p (c + 1))
    (hm : (m = c ∧ 2 * X ≤ units p c + units p (c + 1) ∧ (2 * X = units p c + units p (c + 1) → c % 2 = 0)) ∨
      (m = c + 1 ∧ units p c + units p (c + 1) ≤ 2 * X ∧
        (2 * X = units p c + units p (c + 1) → (c + 1) % 2 = 0))) : IsNearest p X m := by
  have hmono : StrictMono fun n => (units p n : ℝ) := Nat.strictMono_cast.comp (units_strictMono p)
  have hbelow : |(units p c : ℝ) - X| = X - units p c := by rw [abs_of_nonpos (by linarith)]; ring
  have habove : |(units p (c + 1) : ℝ) - X| = units p (c + 1) - X := abs_of_pos (by linarith)
  intro m'
  have hfar : (m' = c ∨ m' = c + 1) ∨ X - units p c < |(units p m' : ℝ) - X| ∧ m' < c ∨
      units p (c + 1) - X < |(units p m' : ℝ) - X| ∧ c + 1 < m' := by
    rcases lt_or_ge m' c with h | h
    · have : (units p m' : ℝ) < units p c := hmono h
      exact .inr (.inl ⟨by rw [abs_of_nonpos (by linarith)]; linarith, h⟩)
    · rcases lt_or_ge (c + 1) m' with h' | h'
      · have : (units p (c + 1) : ℝ) < units p m' := hmono h'
        exact .inr (.inr ⟨by rw [abs_of_pos (by linarith)]; linarith, h'⟩)
      · exact .inl (by omega)
  rcases hm with ⟨rfl, hle, heven⟩ | ⟨rfl, hle, heven⟩
  · rw [hbelow]
    rcases hfar with (rfl | rfl) | ⟨h, -⟩ | ⟨h, -⟩
    · exact ⟨hbelow.ge, fun _ hne => absurd rfl hne⟩
    · rw [habove]
      exact ⟨by linarith, fun heq _ => heven (by linarith)⟩
    · exact ⟨h.le, fun heq _ => absurd heq h.ne⟩
    · exact ⟨by linarith, fun heq _ => heven (by linarith)⟩
  · rw [habove]
    rcases hfar with (rfl | rfl) | ⟨h, -⟩ | ⟨h, -⟩
    · rw [hbelow]
      exact ⟨by linarith, fun heq _ => heven (by linarith)⟩
    · exact ⟨habove.ge, fun _ hne => absurd rfl hne⟩
    · exact ⟨by linarith, fun heq _ => heven (by linarith)⟩
    · exact ⟨h.le, fun heq _ => absurd heq h.ne⟩

/-- The exponent part of a magnitude is even, so its parity is that of its significand. -/
theorem two_dvd_mul_two_pow_fracBits (p : Precision) (s : Nat) : 2 ∣ s * 2 ^ p.fracBits :=
  Dvd.dvd.mul_left (dvd_pow_self 2 (by cases p <;> decide)) s

/-- The form in which the machine rounds: `k` units of weight `2 ^ s` below `X`, and one more when the rest is above
half a unit, or half of one and `k` is odd. -/
theorem isNearest_of_keep {p : Precision} {X : ℝ} {s k : Nat} {up : Prop} [Decidable up]
    (hk : k < 2 ^ (p.fracBits + 1)) (hs : s = 0 ∨ 2 ^ p.fracBits ≤ k)
    (hlo : (k * 2 ^ s : ℝ) ≤ X) (hhi : X < (k + 1) * 2 ^ s)
    (hup : up ↔ ((2 * k + 1) * 2 ^ s : ℝ) < 2 * X ∨ ((2 * k + 1) * 2 ^ s : ℝ) = 2 * X ∧ k % 2 = 1) :
    IsNearest p X (s * 2 ^ p.fracBits + k + if up then 1 else 0) := by
  have hc : (units p (s * 2 ^ p.fracBits + k) : ℝ) = k * 2 ^ s := by
    rw [units_shift p hk.le hs]; push_cast; rfl
  have hc1 : (units p (s * 2 ^ p.fracBits + k + 1) : ℝ) = (k + 1) * 2 ^ s := by
    rw [Nat.add_assoc, units_shift p hk (by omega)]; push_cast; rfl
  have hsum : (k * 2 ^ s : ℝ) + (k + 1) * 2 ^ s = (2 * k + 1) * 2 ^ s := by ring
  have hparity : (s * 2 ^ p.fracBits + k) % 2 = k % 2 := by
    have := two_dvd_mul_two_pow_fracBits p s
    omega
  refine isNearest_of_between (c := s * 2 ^ p.fracBits + k) (hc ▸ hlo) (hc1 ▸ hhi) ?_
  rw [hc, hc1, hsum]
  by_cases h : up
  · rw [if_pos h]
    rcases hup.1 h with hlt | ⟨heq, hodd⟩
    · exact .inr ⟨rfl, hlt.le, fun h' => absurd h' hlt.ne'⟩
    · exact .inr ⟨rfl, heq.le, fun _ => by omega⟩
  · rw [if_neg h]
    obtain ⟨hle, hodd⟩ := not_or.1 (mt hup.2 h)
    exact .inl ⟨rfl, not_lt.1 hle, fun h' => by have := not_and.1 hodd h'.symm; omega⟩

/-- A number cut to its leading `f + 1` binary digits, as far as it has them. -/
theorem keep_bounds (f n : Nat) : n / 2 ^ (Nat.log2 n - f) < 2 ^ (f + 1) ∧
    (Nat.log2 n - f = 0 ∨ 2 ^ f ≤ n / 2 ^ (Nat.log2 n - f)) := by
  constructor
  · rw [Nat.div_lt_iff_lt_mul (by positivity), ← pow_add]
    exact Nat.lt_log2_self.trans_le (Nat.pow_le_pow_right two_pos (by omega))
  · rw [or_iff_not_imp_left, Nat.le_div_iff_mul_le (by positivity), ← pow_add]
    intro h
    rw [show f + (Nat.log2 n - f) = Nat.log2 n by omega]
    exact Nat.log2_self_le fun h0 => h (by simp [h0])

theorem roundMag_isNearest (p : Precision) (num : Nat) {den : Nat} (hden : 0 < den) :
    IsNearest p (num / den) (roundMag p num den) := by
  have hd : (0 : ℝ) < den := by exact_mod_cast hden
  obtain ⟨hk, hs⟩ := keep_bounds p.fracBits (num / den)
  unfold roundMag
  generalize Nat.log2 (num / den) - p.fracBits = s at *
  have hsplit : den * 2 ^ s * (num / (den * 2 ^ s)) + num % (den * 2 ^ s) = num := Nat.div_add_mod ..
  have hrest : num % (den * 2 ^ s) < den * 2 ^ s := Nat.mod_lt _ (by positivity)
  rw [Nat.div_div_eq_div_mul] at hk hs
  dsimp only
  generalize num / (den * 2 ^ s) = k at *
  generalize num % (den * 2 ^ s) = r at *
  subst hsplit
  refine isNearest_of_keep hk hs ?_ ?_ (or_congr ?_ (and_congr_left' ?_))
  · rw [le_div_iff₀ hd]
    norm_cast
    linarith
  · rw [div_lt_iff₀ hd]
    norm_cast
    linarith
  · rw [← mul_div_assoc, lt_div_iff₀ hd]
    norm_cast
    constructor <;> intro h <;> linarith
  · rw [← mul_div_assoc, eq_div_iff hd.ne']
    norm_cast
    constructor <;> intro h <;> linarith

@[simp] theorem roundMag_zero (p : Precision) (den : Nat) : roundMag p 0 den = 0 := by
  simp [roundMag]

/-! ### The nearest magnitude to a square root -/

theorem sqrtDigits_eq_sqrt (n k r : Nat) (hlo : r * r ≤ n) (hhi : n < (r + 2 ^ k) * (r + 2 ^ k)) :
    sqrtDigits n k r = Nat.sqrt n := by
  induction k generalizing r with
  | zero => exact Nat.eq_sqrt.2 ⟨hlo, hhi⟩
  | succ k ih =>
    rw [sqrtDigits]
    split
    · exact ih _ ‹_› (by rwa [Nat.add_assoc, ← Nat.two_mul, ← pow_succ'])
    · exact ih _ hlo (not_le.1 ‹_›)

theorem sqrt_div_mul_self (n : Nat) {d : Nat} (hd : 0 < d) : Nat.sqrt (n / (d * d)) = Nat.sqrt n / d :=
  eq_of_forall_le_iff fun k => by
    rw [Nat.le_sqrt, Nat.le_div_iff_mul_le (Nat.mul_pos hd hd), Nat.mul_mul_mul_comm, ← Nat.le_sqrt,
      Nat.le_div_iff_mul_le hd]

theorem log2_sqrt {n : Nat} (hn : n ≠ 0) : Nat.log2 (Nat.sqrt n) = Nat.log2 n / 2 := by
  have hlo := Nat.log2_self_le hn
  have hhi := Nat.lt_log2_self (n := n)
  rw [Nat.log2_eq_iff (Nat.sqrt_pos.2 (Nat.pos_of_ne_zero hn)).ne', Nat.le_sqrt, Nat.sqrt_lt, ← pow_add, ← pow_add]
  exact ⟨(Nat.pow_le_pow_right two_pos (by omega)).trans hlo,
    hhi.trans_le (Nat.pow_le_pow_right two_pos (by omega))⟩

theorem sqrtMag_isNearest (p : Precision) {u : Nat} (hu : u ≠ 0) :
    IsNearest p (√(u * 2 ^ p.scale)) (sqrtMag p u) := by
  have hx : u * 2 ^ p.scale ≠ 0 := by positivity
  rw [show (u * 2 ^ p.scale : ℝ) = (u * 2 ^ p.scale : ℕ) by push_cast; rfl]
  unfold sqrtMag
  generalize u * 2 ^ p.scale = x at *
  obtain ⟨hk, hs⟩ := keep_bounds p.fracBits (Nat.sqrt x)
  rw [log2_sqrt hx] at hk hs
  dsimp only
  generalize Nat.log2 x / 2 - p.fracBits = s at *
  have hkeep : sqrtDigits (x / 2 ^ (2 * s)) (p.fracBits + 1) 0 = Nat.sqrt x / 2 ^ s := by
    rw [Nat.two_mul, pow_add, ← sqrt_div_mul_self x (by positivity)] at *
    exact sqrtDigits_eq_sqrt _ _ _ (Nat.zero_le _) (by rwa [Nat.zero_add, ← Nat.sqrt_lt])
  rw [hkeep]
  have hlo : Nat.sqrt x / 2 ^ s * 2 ^ s ≤ Nat.sqrt x := Nat.div_mul_le_self ..
  have hhi : Nat.sqrt x < (Nat.sqrt x / 2 ^ s + 1) * 2 ^ s := Nat.lt_mul_of_div_lt (Nat.lt_succ_self _) (by positivity)
  generalize Nat.sqrt x / 2 ^ s = k at *
  rw [Nat.le_sqrt'] at hlo
  rw [Nat.sqrt_lt'] at hhi
  have htwo : 2 * √(x : ℝ) = √(4 * x : ℝ) := by
    rw [Real.sqrt_mul (by norm_num), show (4 : ℝ) = 2 ^ 2 by norm_num, Real.sqrt_sq (by norm_num)]
  have hmid : ((2 * k + 1) * 2 ^ s : ℝ) = ((2 * k + 1) * 2 ^ s : ℕ) := by push_cast; rfl
  refine isNearest_of_keep hk hs ?_ ?_ ?_
  · exact Real.le_sqrt_of_sq_le (by exact_mod_cast hlo)
  · exact (Real.sqrt_lt' (by positivity)).2 (by exact_mod_cast hhi)
  · rw [htwo, hmid, Real.lt_sqrt (by positivity), eq_comm (b := √_),
      Real.sqrt_eq_iff_eq_sq (by positivity) (by positivity), ← Nat.pow_two, eq_comm (b := 4 * x)]
    norm_cast

/-! ### Overflow -/

/-- The exponent field of infinity. -/
def infExp : Precision → Nat
  | .f32 => 255
  | .f64 => 2047

theorem infMag_eq (p : Precision) : p.infMag = infExp p * 2 ^ p.fracBits := by
  cases p <;> simp [Precision.infMag, Precision.bits, Precision.width, Precision.fracBits, infExp]

theorem infExp_eq (p : Precision) : (infExp p : ℤ) = 2 * expBias p + 1 := by cases p <;> rfl

theorem three_le_infExp (p : Precision) : 3 ≤ infExp p := by cases p <;> decide

theorem infMag_pos (p : Precision) : 0 < p.infMag := by
  have := three_le_infExp p
  rw [infMag_eq]; positivity

theorem pred_infMag_odd (p : Precision) : (p.infMag - 1) % 2 = 1 := by
  have h2 : 2 ∣ p.infMag := infMag_eq p ▸ two_dvd_mul_two_pow_fracBits p _
  have := infMag_pos p
  omega

/-- Overflow starts half way between the greatest finite value and what would come next. -/
theorem overflowAt_eq (p : Precision) :
    2 * (overflowAt p : ℝ) = (units p (p.infMag - 1) + units p p.infMag) * quantum p := by
  obtain ⟨e, he⟩ := Nat.exists_eq_add_of_le (three_le_infExp p)
  have hF : 0 < 2 ^ p.fracBits := by positivity
  have hinf : p.infMag = (e + 2) * 2 ^ p.fracBits + 2 ^ p.fracBits := by rw [infMag_eq, he]; ring
  have hpred : p.infMag - 1 = (e + 1) * 2 ^ p.fracBits + (2 ^ (p.fracBits + 1) - 1) := by
    rw [hinf, pow_succ, Nat.succ_mul (e + 1)]; omega
  have hexp : expBias p = p.fracBits + 1 + e - p.scale := by
    have := infExp_eq p
    have := scale_eq p
    omega
  rw [hpred, hinf, units_shift p (by omega) (.inr (by rw [pow_succ]; omega)),
    units_shift p (by rw [pow_succ]; omega) (.inr le_rfl)]
  rw [overflowAt, quantum, hexp]
  push_cast [Nat.one_le_two_pow]
  rw [zpow_sub₀ two_ne_zero, zpow_add₀ two_ne_zero, zpow_add₀ two_ne_zero]
  simp only [zpow_natCast, zpow_one, one_div, inv_pow]
  field_simp
  ring

/-- The nearest magnitude is a finite one exactly below the overflow point, where the even neighbour is infinity's. -/
theorem IsNearest.lt_infMag_iff {p : Precision} {X : ℝ} {m : Nat} (h : IsNearest p X m) :
    m < p.infMag ↔ 2 * X < units p (p.infMag - 1) + units p p.infMag := by
  have hmono : StrictMono fun n => (units p n : ℝ) := Nat.strictMono_cast.comp (units_strictMono p)
  have hpos := infMag_pos p
  have hstep : (units p (p.infMag - 1) : ℝ) < units p p.infMag := hmono (by omega)
  constructor
  · intro hm
    have hle : (units p m : ℝ) ≤ units p (p.infMag - 1) := hmono.monotone (by omega)
    by_contra hX
    obtain ⟨hnear, htie⟩ := h p.infMag
    rcases le_or_gt X (units p p.infMag) with hX' | hX'
    · rw [abs_of_nonpos (by linarith), abs_of_nonneg (by linarith)] at hnear htie
      have hlast : m = p.infMag - 1 := by
        by_contra hne
        have : (units p m : ℝ) < units p (p.infMag - 1) := hmono (by omega)
        linarith
      subst hlast
      have := htie (by linarith) (by omega)
      have := pred_infMag_odd p
      omega
    · rw [abs_of_nonpos (by linarith), abs_of_nonpos (by linarith)] at hnear
      linarith
  · intro hX
    by_contra hm
    have hge : (units p p.infMag : ℝ) ≤ units p m := hmono.monotone (by omega)
    have hnear := (h (p.infMag - 1)).1
    rw [abs_of_nonneg (by linarith)] at hnear
    rcases abs_cases ((units p (p.infMag - 1) : ℝ) - X) with ⟨he, -⟩ | ⟨he, -⟩ <;> rw [he] at hnear <;> linarith

/-! ### A rounded magnitude with its sign is the rounded value -/

/-- The value with the sign of `x` is as far from `x` as the magnitude from that of `x`. -/
theorem abs_finValue_sub {p : Precision} {x X : ℝ} {neg : Bool} {m : Nat} (hx : |x| = X * quantum p)
    (hneg : x ≠ 0 → (neg = true ↔ x < 0)) : |(finValue p neg m : ℝ) - x| = |(units p m : ℝ) - X| * quantum p := by
  have hq := quantum_pos p
  have habs : |(units p m : ℝ) - X| * quantum p = |(units p m * quantum p - |x|)| := by
    rw [hx, ← sub_mul, abs_mul, abs_of_pos hq]
  rw [habs, finValue_eq]
  rcases eq_or_ne x 0 with rfl | hne
  · cases neg <;> simp [signedUnits]
  · cases neg with
    | false =>
      have : 0 ≤ x := not_lt.1 fun h => by simpa using (hneg hne).2 h
      simp [signedUnits, abs_of_nonneg this]
    | true =>
      have : x < 0 := (hneg hne).1 rfl
      rw [abs_of_neg this, abs_sub_comm]
      simp only [signedUnits, if_true]
      push_cast
      congr 1; ring

/-- Any value is at least as far. -/
theorem abs_finValue_sub_ge {p : Precision} {x X : ℝ} (neg : Bool) (m : Nat) (hx : |x| = X * quantum p) :
    |(units p m : ℝ) - X| * quantum p ≤ |(finValue p neg m : ℝ) - x| := by
  have hq := quantum_pos p
  calc |(units p m : ℝ) - X| * quantum p = |(|(finValue p neg m : ℝ)| - |x|)| := by
        rw [abs_finValue, hx, ← sub_mul, abs_mul, abs_of_pos hq]
    _ ≤ _ := abs_abs_sub_abs_le ..

/-- Of two values that differ in their sign alone, the one with the sign of `x` is nearer, unless they are the zeros. -/
theorem IsNearest.eq_zero_of_flip_tie {p : Precision} {x X : ℝ} {neg neg' : Bool} {m : Nat} (hm : IsNearest p X m)
    (hx : |x| = X * quantum p) (hneg : x ≠ 0 → (neg = true ↔ x < 0)) (hne : finValue p neg' m ≠ finValue p neg m)
    (heq : |(units p m : ℝ) - X| * quantum p = |(finValue p neg' m : ℝ) - x|) : m = 0 := by
  have hflip : finValue p neg' m = -finValue p neg m := by
    rw [← finValue_not, Bool.eq_not_of_ne fun h : neg' = neg => hne (h ▸ rfl)]
  rw [← abs_finValue_sub hx hneg, hflip, Rat.cast_neg] at heq
  rcases abs_eq_abs.1 heq with h | h
  · exact finValue_eq_zero.1 (show (finValue p neg m : ℝ) = 0 by linarith)
  · obtain rfl : x = 0 := by linarith
    obtain rfl : X = 0 := by simpa [(quantum_pos p).ne'] using hx.symm
    simpa [units_eq_zero] using (hm 0).1

theorem finish_isRounded {p : Precision} {x X : ℝ} {neg : Bool} {m : Nat} (hm : IsNearest p X m)
    (hx : |x| = X * quantum p) (hneg : x ≠ 0 → (neg = true ↔ x < 0)) : IsRounded p x (finish p neg m) := by
  have hq := quantum_pos p
  have hover : m < p.infMag ↔ ¬ (overflowAt p : ℝ) ≤ |x| := by
    rw [hm.lt_infMag_iff, not_le, hx, ← mul_lt_mul_iff_left₀ hq,
      ← mul_lt_mul_iff_right₀ (show (0 : ℝ) < 2 by norm_num) (b := X * quantum p), overflowAt_eq, mul_assoc]
  unfold IsRounded finish
  by_cases hfin : m < p.infMag
  · rw [if_pos hfin, if_neg (hover.1 hfin)]
    refine ⟨neg, m, rfl, hfin, hneg, fun neg' m' _ => ?_⟩
    obtain ⟨hnear, htie⟩ := hm m'
    rw [abs_finValue_sub hx hneg]
    have hge := abs_finValue_sub_ge neg' m' hx
    refine ⟨(mul_le_mul_of_nonneg_right hnear hq.le).trans hge, fun heq hne => ?_⟩
    by_cases hm' : m' = m
    · subst hm'
      obtain rfl := hm.eq_zero_of_flip_tie hx hneg hne heq
      rfl
    · refine htie (hnear.antisymm ?_) hm'
      exact le_of_mul_le_mul_right (heq ▸ hge) hq
  · have hle := not_not.1 (mt hover.2 hfin)
    have hpos : 0 < (overflowAt p : ℝ) := by
      have := overflowAt_eq p
      have hinf : 0 < units p p.infMag := Nat.pos_of_ne_zero (mt units_eq_zero.1 (infMag_pos p).ne')
      have : 0 < (units p (p.infMag - 1) + units p p.infMag : ℝ) * quantum p := by positivity
      linarith
    have hx0 : x ≠ 0 := abs_pos.1 (hpos.trans_le hle)
    rw [if_neg hfin, if_pos hle, Bool.eq_iff_iff.2 ((hneg hx0).trans decide_eq_true_iff.symm)]

/-- `z` quanta with their sign, rounded. -/
theorem finish_int_isRounded (p : Precision) (z : ℤ) :
    IsRounded p (z * quantum p) (finish p (decide (z < 0)) (roundMag p z.natAbs 1)) := by
  have hq := quantum_pos p
  refine finish_isRounded (roundMag_isNearest p z.natAbs one_pos) ?_ fun _ => ?_
  · rw [abs_mul, abs_of_pos hq, Nat.cast_natAbs, Int.cast_abs, Nat.cast_one, div_one]
  · rw [decide_eq_true_iff, ← not_le, ← not_le, mul_nonneg_iff_of_pos_right hq, Int.cast_nonneg_iff]

@[simp] theorem finish_zero (p : Precision) (neg : Bool) : finish p neg 0 = .fin neg 0 := if_pos (infMag_pos p)

/-- Either zero is 0 rounded. -/
theorem isRounded_zero (p : Precision) (neg : Bool) : IsRounded p 0 (.fin neg 0) := by
  rw [← finish_zero]
  exact finish_isRounded (X := 0) (fun m' => by simp) (by simp) (absurd rfl)

end Sys2Proof.Machine
end

section
/-! PROOFS of O41 and O42: every operation rounds one exact real, given in quanta. -/

namespace Sys2Proof.Machine

/-! ### Sum and difference -/

theorem addFp_fin (p : Precision) (a b : Bool) (x y : Nat) :
    addFp p (.fin a x) (.fin b y) =
      if (finValue p a x : ℝ) + finValue p b y = 0 then some (.fin (a && b) 0)
      else some (finish p (decide (signedUnits p a x + signedUnits p b y < 0))
        (roundMag p (signedUnits p a x + signedUnits p b y).natAbs 1)) := by
  have : (finValue p a x : ℝ) + finValue p b y = 0 ↔ signedUnits p a x + signedUnits p b y = 0 := by
    rw [finValue_eq, finValue_eq, ← add_mul, mul_eq_zero, or_iff_left (quantum_pos p).ne']
    norm_cast
  simp only [this]
  rfl

theorem addFp_isRounded (p : Precision) (a b : Bool) (x y : Nat) :
    ∃ r, addFp p (.fin a x) (.fin b y) = some r ∧ IsRounded p (finValue p a x + finValue p b y) r := by
  rw [addFp_fin]
  split
  · rename_i h
    exact ⟨_, rfl, h ▸ isRounded_zero p _⟩
  · refine ⟨_, rfl, ?_⟩
    have := finish_int_isRounded p (signedUnits p a x + signedUnits p b y)
    rwa [Int.cast_add, add_mul, ← finValue_eq, ← finValue_eq] at this

theorem subFp_fin (p : Precision) (a b : Bool) (x y : Nat) :
    subFp p (.fin a x) (.fin b y) = addFp p (.fin a x) (.fin (!b) y) := rfl

theorem subFp_isRounded (p : Precision) (a b : Bool) (x y : Nat) :
    ∃ r, subFp p (.fin a x) (.fin b y) = some r ∧ IsRounded p (finValue p a x - finValue p b y) r := by
  have := addFp_isRounded p a (!b) x y
  rwa [finValue_not, Rat.cast_neg, ← sub_eq_add_neg] at this

/-! ### Product and quotient -/

/-- The sign of a product. -/
theorem xor_iff_mul_neg {a b : Bool} {v w : ℝ} (hv : v ≠ 0 → (a = true ↔ v < 0)) (hw : w ≠ 0 → (b = true ↔ w < 0))
    (h : v * w ≠ 0) : (a ^^ b) = true ↔ v * w < 0 := by
  obtain ⟨hv0, hw0⟩ := mul_ne_zero_iff.1 h
  have ha := hv hv0
  have hb := hw hw0
  rw [mul_neg_iff, ← ha, ← hb]
  have hva : 0 < v ↔ ¬ a = true := by rw [ha, not_lt]; exact ⟨le_of_lt, fun h => h.lt_of_ne hv0.symm⟩
  have hwb : 0 < w ↔ ¬ b = true := by rw [hb, not_lt]; exact ⟨le_of_lt, fun h => h.lt_of_ne hw0.symm⟩
  rw [hva, hwb]
  cases a <;> cases b <;> decide

theorem mulFp_fin (p : Precision) (a b : Bool) (x y : Nat) :
    mulFp p (.fin a x) (.fin b y) =
      some (finish p (a ^^ b) (roundMag p (units p x * units p y) (2 ^ p.scale))) := rfl

theorem mulFp_isRounded (p : Precision) (a b : Bool) (x y : Nat) :
    IsRounded p (finValue p a x * finValue p b y)
      (finish p (a ^^ b) (roundMag p (units p x * units p y) (2 ^ p.scale))) := by
  refine finish_isRounded (roundMag_isNearest p _ (by positivity)) ?_
    (xor_iff_mul_neg finValue_neg_iff finValue_neg_iff)
  rw [abs_mul, abs_finValue, abs_finValue]
  push_cast
  rw [div_eq_mul_inv, ← quantum]
  ring

theorem divFp_fin (p : Precision) (a b : Bool) (x : Nat) {y : Nat} (hy : y ≠ 0) :
    divFp p (.fin a x) (.fin b y) =
      some (finish p (a ^^ b) (roundMag p (units p x * 2 ^ p.scale) (units p y))) := if_neg hy

theorem divFp_isRounded (p : Precision) (a b : Bool) (x : Nat) {y : Nat} (hy : y ≠ 0) :
    IsRounded p (finValue p a x / finValue p b y)
      (finish p (a ^^ b) (roundMag p (units p x * 2 ^ p.scale) (units p y))) := by
  have hpos : 0 < units p y := Nat.pos_of_ne_zero (mt units_eq_zero.1 hy)
  rw [div_eq_mul_inv]
  refine finish_isRounded (roundMag_isNearest p _ hpos) ?_ (xor_iff_mul_neg finValue_neg_iff fun h => ?_)
  · have hq := quantum_pos p
    have hy' : (units p y : ℝ) ≠ 0 := by positivity
    rw [abs_mul, abs_inv, abs_finValue, abs_finValue]
    push_cast
    rw [quantum]
    field_simp
  · rw [inv_lt_zero]
    exact finValue_neg_iff fun h0 => h (by rw [h0, inv_zero])

/-! ### The primitives -/

/-- A primitive draws exactly where its result is a NaN. -/
theorem settle_run (p : Precision) (o : Option Fp) (n : Nat) : settle p o n = match o with
    | some v => (v, n)
    | none => (.nan (nanPattern p (Config.nanBits n)), n + 1) := by
  cases o <;> rfl

/-- Settles O41: the value of each operation is found exactly in quanta and rounded once; the special values are the
machine's own cases. -/
theorem arithmeticIsRoundedToNearestEven : Obligations.ArithmeticIsRoundedToNearestEven := by
  unfold Obligations.ArithmeticIsRoundedToNearestEven
  refine ⟨fun p a b x y _ _ => ?_, fun p a b => ?_, fun p e v => ?_, fun p x y n => ?_⟩
  · dsimp only
    simp only [finValue_eq_zero, ne_eq, mul_eq_zero]
    refine ⟨addFp_isRounded p a b x y, subFp_isRounded p a b x y, ⟨_, mulFp_fin .., mulFp_isRounded p a b x y⟩,
      fun hy => ⟨_, divFp_fin p a b x hy, divFp_isRounded p a b x hy⟩, fun h => ?_, fun h => ?_, fun h => ?_,
      fun hx hy => ?_, fun hx hy => ?_, fun hx hy => ?_, rfl, rfl, rfl, rfl, rfl, rfl, rfl, rfl⟩
    · rw [addFp_fin, if_pos h]
    · rw [subFp_fin, addFp_fin, if_pos (by rwa [finValue_not, Rat.cast_neg, ← sub_eq_add_neg])]
    · rcases h with rfl | rfl <;> simp [mulFp_fin]
    · subst hx
      simp [divFp_fin p a b 0 hy]
    · simp [divFp, hx, hy]
    · simp [divFp, hx, hy]
  · cases a <;> cases b <;> simp [addFp, subFp, mulFp, divFp, Fp.flip]
  · cases v <;> simp [addFp, subFp, mulFp, divFp, Fp.flip]
  · exact ⟨settle_run .., settle_run .., settle_run .., settle_run ..⟩

/-! ### Square root and integers -/

theorem sqrtFp_fin (p : Precision) {x : Nat} (hx : x ≠ 0) :
    sqrtFp p (.fin false x) = some (finish p false (sqrtMag p (units p x))) := if_neg hx

theorem sqrtFp_isRounded (p : Precision) {x : Nat} (hx : x ≠ 0) :
    IsRounded p (√(finValue p false x : ℝ)) (finish p false (sqrtMag p (units p x))) := by
  have hq := quantum_pos p
  refine finish_isRounded (sqrtMag_isNearest p (mt units_eq_zero.1 hx)) ?_ fun _ => ?_
  · have hval : (finValue p false x : ℝ) = units p x * 2 ^ p.scale * quantum p ^ 2 := by
      rw [sq, ← mul_assoc, mul_assoc (units p x : ℝ), two_pow_scale_mul_quantum, mul_one]
      exact magValue_eq p x
    rw [abs_of_nonneg (Real.sqrt_nonneg _), hval, Real.sqrt_mul (by positivity), Real.sqrt_sq hq.le]
  · simp

theorem ofInt_isRounded (p : Precision) (n : ℤ) : IsRounded p n (ofInt p n) := by
  have h := finish_int_isRounded p (n * 2 ^ p.scale)
  have hscale : (0 : ℤ) < 2 ^ p.scale := by positivity
  rw [Int.natAbs_mul, Int.natAbs_pow] at h
  push_cast at h
  rw [mul_assoc, two_pow_scale_mul_quantum, mul_one] at h
  have hneg : n * 2 ^ p.scale < 0 ↔ n < 0 := by rw [← not_le, mul_nonneg_iff_of_pos_right hscale, not_le]
  simpa only [ofInt, hneg] using h

/-- Settles O42: the root is found in quanta by its digits and rounded once; an integer is a whole number of quanta. -/
theorem squareRootAndIntegersAreRoundedToNearest : Obligations.SquareRootAndIntegersAreRoundedToNearest := by
  unfold Obligations.SquareRootAndIntegersAreRoundedToNearest
  refine ⟨fun p x _ => ?_, ofInt_isRounded, fun p => ⟨fun a => rfl, rfl, rfl, fun x hx => ?_, fun e => rfl,
    fun x n => ?_⟩⟩
  · rcases eq_or_ne x 0 with rfl | hx
    · refine ⟨_, rfl, ?_⟩
      rw [finValue_eq_zero.2 rfl, Real.sqrt_zero]
      exact isRounded_zero p false
    · exact ⟨_, sqrtFp_fin p hx, sqrtFp_isRounded p hx⟩
  · simp [sqrtFp, hx]
  · exact settle_run ..

end Sys2Proof.Machine
end

section
/-! PROOF of O43: the order of the values is that of their signed magnitudes, and negation is of the sign bit. -/

namespace Sys2Proof.Machine

/-! ### Less-than -/

theorem finValue_lt_iff (p : Precision) (a b : Bool) (x y : Nat) :
    finValue p a x < finValue p b y ↔ signedUnits p a x < signedUnits p b y := by
  rw [← Rat.cast_lt (K := ℝ), finValue_eq, finValue_eq, mul_lt_mul_iff_left₀ (quantum_pos p), Int.cast_lt]

theorem flt_iff {p : Precision} {v w : Fp} {a b : ℤ} (hv : v.key p = some a) (hw : w.key p = some b) :
    flt p v w = true ↔ a < b := by
  simp [flt, hv, hw]

/-- The key of a finite value lies between those of the infinities. -/
theorem key_fin_bounds {p : Precision} (a : Bool) {x : Nat} (hx : FiniteMag p x) :
    -(p.infMag : ℤ) < (if a then -(x : ℤ) else x) ∧ (if a then -(x : ℤ) else x) < p.infMag := by
  have : x < p.infMag := hx
  cases a
  · simp only [Bool.false_eq_true, if_false]; omega
  · simp only [if_true]; omega

theorem flt_fin (p : Precision) (a b : Bool) (x y : Nat) :
    flt p (.fin a x) (.fin b y) = true ↔ signedUnits p a x < signedUnits p b y := by
  have hlt := (units_strictMono p).lt_iff_lt (a := x) (b := y)
  have hgt := (units_strictMono p).lt_iff_lt (a := y) (b := x)
  have hx := units_eq_zero (p := p) (m := x)
  have hy := units_eq_zero (p := p) (m := y)
  rw [flt_iff rfl rfl]
  cases a <;> cases b <;> simp [signedUnits] <;> omega

/-! ### The sign bit -/

theorem two_pow_bits (p : Precision) : 2 ^ p.bits = 2 * p.signWeight := by cases p <;> rfl

/-- The value of an encoding by its sign bit and its magnitude (IEEE 754, log entry 19). -/
theorem ofBits_signedBits (p : Precision) (neg : Bool) {m : Nat} (hm : m < p.signWeight) :
    Fp.ofBits p (signedBits p neg m) =
      if m < p.infMag then .fin neg m
      else if m = p.infMag then .inf neg
      else .nan (BitVec.ofNat 64 (signedBits p neg m)) := by
  have hlt : signedBits p neg m < 2 ^ p.bits := by
    rw [two_pow_bits]; cases neg <;> simp [signedBits] <;> omega
  have hneg : decide (p.signWeight ≤ signedBits p neg m) = neg := by
    cases neg <;> simp [signedBits, hm]
  have hmag : signedBits p neg m % p.signWeight = m := by
    cases neg <;> simp [signedBits, Nat.mod_eq_of_lt hm]
  unfold Fp.ofBits
  rw [Nat.mod_eq_of_lt hlt]
  simp only [hneg, hmag]

/-- An encoding below `2 ^ bits` is a sign and a magnitude. -/
theorem exists_signedBits (p : Precision) {e : Nat} (he : e < 2 ^ p.bits) :
    ∃ neg m, m < p.signWeight ∧ e = signedBits p neg m := by
  rw [two_pow_bits] at he
  rcases lt_or_ge e p.signWeight with h | h
  · exact ⟨false, e, h, by simp [signedBits]⟩
  · exact ⟨true, e - p.signWeight, by omega, by simp [signedBits]; omega⟩

/-- Flipping the sign bit. -/
theorem signedBits_xor (p : Precision) (neg : Bool) {m : Nat} (hm : m < p.signWeight) :
    signedBits p neg m ^^^ p.signWeight = signedBits p (!neg) m := by
  have hset : m ^^^ p.signWeight = p.signWeight + m := by
    unfold Precision.signWeight at *
    generalize p.bits - 1 = k at *
    rw [← Nat.div_add_mod (m ^^^ 2 ^ k) (2 ^ k), Nat.xor_div_two_pow, Nat.xor_mod_two_pow, Nat.div_eq_of_lt hm,
      Nat.mod_eq_of_lt hm, Nat.div_self (by positivity), Nat.mod_self]
    simp
  cases neg
  · simpa [signedBits] using hset
  · simp [signedBits, ← hset]

theorem fneg_ofBits (p : Precision) {e : Nat} (he : e < 2 ^ p.bits) :
    fneg p (Fp.ofBits p e) = Fp.ofBits p (e ^^^ p.signWeight) := by
  obtain ⟨neg, m, hm, rfl⟩ := exists_signedBits p he
  rw [signedBits_xor p neg hm, ofBits_signedBits p neg hm, ofBits_signedBits p _ hm, fneg]
  split
  · rfl
  · split
    · rfl
    · rw [Fp.flip, ← signedBits_xor p neg hm, BitVec.ofNat_xor]

/-- Settles O43: quanta rise with magnitudes, so the order of the signed magnitudes is that of the values. -/
theorem lessThanIsOfTheValues : Obligations.LessThanIsOfTheValues := by
  unfold Obligations.LessThanIsOfTheValues
  refine fun p => ⟨fun a b x y _ _ => by rw [flt_fin, finValue_lt_iff], fun a b x hx => ⟨?_, ?_⟩,
    fun a b => ?_, fun e v => ⟨rfl, by cases v <;> rfl⟩, fun e he => fneg_ofBits p he⟩
  · obtain ⟨hlo, hhi⟩ := key_fin_bounds a hx
    rw [flt_iff rfl rfl]
    cases b with
    | false => simpa using hhi
    | true => simpa using hlo.le
  · obtain ⟨hlo, hhi⟩ := key_fin_bounds b hx
    rw [flt_iff rfl rfl]
    cases a with
    | false => simpa using hhi.le
    | true => simpa using hlo
  · rw [flt_iff rfl rfl]
    cases a <;> cases b <;> simp [infMag_pos p]

end Sys2Proof.Machine
end

section
/-! What one step can do, said once: the writes of a command that reaches its end, the engine's turn, a host access
and a reset. PROOFS of O10, O11, O12, O18 and O19, each a short case analysis on it. -/

namespace Sys2Proof.Machine

/-! ### What a command may write -/

/-- The states in which command `i` may end when performed in `s`: it stores and draws, and beyond that writes only
the result of its unit (10_state.md R25, R35, R36). -/
inductive CommandEffect (s : State) : Instr → State → Prop where
  | stores (i : Instr) (m : Memory) (d : Nat) : CommandEffect s i { s with lmem := m, draws := d }
  | ringNew (r : Fin 16) (k : RingKind) (g : Ring) (m : Memory) :
      CommandEffect s (.ringNew r k) { s with lmem := m, rings := s.rings.set r.val g }
  | ringSize (r : Fin 16) (g : Ring) (hr : s.rings[r.val]? = some g) (hv : g.valid = true) :
      CommandEffect s (.ringSize r) { s with res := g.cap }
  | ringPush1 (r : Fin 16) (g : Ring) (m : Memory) :
      CommandEffect s (.ringPush1 r) { s with lmem := m, rings := s.rings.set r.val g }
  | ringPushN (r : Fin 16) (g : Ring) (m : Memory) :
      CommandEffect s (.ringPushN r) { s with lmem := m, rings := s.rings.set r.val g }
  | awgnInit (b : Bool) (w : Awgn) (d : Nat) : CommandEffect s (.awgnInit b) { s with awgn := w, draws := d }
  | awgnSnr (w : Awgn) (d : Nat) : CommandEffect s .awgnSnr { s with awgn := w, draws := d }
  | awgnApply (b : Bool) (w : Awgn) (m : Memory) (d : Nat) :
      CommandEffect s (.awgnApply b) { s with awgn := w, lmem := m, draws := d }

/-- A state the result hands on as the command's end meets `P`. -/
def Result.EndsIn (P : State → Prop) : Result → Prop
  | .done t => P t
  | .raise _ _ => True

section
variable {P : State → Prop}

/-- A check that raises an error may stand before what ends in `P`. -/
theorem Result.EndsIn.guard {c : Prop} [Decidable c] {e : StatusCode} {w : Word} {k : Result}
    (hk : k.EndsIn P) : Result.EndsIn P (if c then .raise e w else k) := by
  split
  · trivial
  · exact hk

theorem State.withRing_endsIn {s : State} {q : Pending} {r : Fin 16} {k : Ring → Result}
    (hk : ∀ g, s.rings[r.val]? = some g → (k g).EndsIn P) : (s.withRing q r k).EndsIn P := by
  rcases s.withRing_cases q r k with ⟨_, e⟩ | ⟨g, hg, e⟩ <;> rw [e]
  · trivial
  · exact hk g hg

theorem State.withValidRing_endsIn {s : State} {q : Pending} {r : Fin 16} {k : Ring → Result}
    (hk : ∀ g, s.rings[r.val]? = some g → g.valid = true → (k g).EndsIn P) : (s.withValidRing q r k).EndsIn P := by
  rcases s.withValidRing_cases q r k with ⟨_, e⟩ | ⟨g, _, _, e⟩ | ⟨g, hg, hv, e⟩ <;> rw [e]
  · trivial
  · trivial
  · exact hk g hg hv

end

/-- All that performing a command can come to (60_exceptions.md R240): nothing when idle, an error, or an end. -/
inductive Completes (s : State) (P : State → Prop) : State → Prop where
  | idle (hp : s.pending = none) : Completes s P s
  | failed (q : Pending) (hp : s.pending = some q) (e : StatusCode) (w : Word) : Completes s P (s.failed e w)
  | ended (q : Pending) (hp : s.pending = some q) (u : State) (hu : P u) :
      Completes s P { u with code := .ok, info := 0, pending := none }

theorem State.perform_completes {s t : State} {P : State → Prop} {body : Pending → Result}
    (hb : ∀ q, (body q).EndsIn P) (h : s.perform body = .next t) : Completes s P t := by
  rcases State.perform_cases h with ⟨hp, rfl⟩ | ⟨q, hp, rfl⟩
  · exact .idle hp
  · have hq := hb q
    cases hr : body q with
    | done u => exact .ended q hp u (by rwa [hr] at hq)
    | raise e w => exact .failed q hp e w

/-! ### Each command -/

theorem ringNewResult_effect (s : State) (r : Fin 16) (kind : RingKind) (q : Pending) :
    (ringNewResult s r kind q).EndsIn (CommandEffect s (.ringNew r kind)) :=
  State.withRing_endsIn fun _ _ => .guard <| .guard <| .guard <| .ringNew ..

theorem ringSizeResult_effect (s : State) (r : Fin 16) (q : Pending) :
    (ringSizeResult s r q).EndsIn (CommandEffect s (.ringSize r)) :=
  State.withValidRing_endsIn fun g hr hv => .ringSize r g hr hv

theorem ringAtResult_effect (s : State) (r : Fin 16) (q : Pending) :
    (ringAtResult s r q).EndsIn (CommandEffect s (.ringAt r)) :=
  State.withValidRing_endsIn fun _ _ _ => .guard <| .guard <| .guard <| .stores ..

theorem ringPush1Result_effect (s : State) (r : Fin 16) (q : Pending) :
    (ringPush1Result s r q).EndsIn (CommandEffect s (.ringPush1 r)) :=
  State.withValidRing_endsIn fun _ _ _ => .guard <| .guard <| .ringPush1 ..

theorem ringPushNResult_effect (s : State) (r : Fin 16) (q : Pending) :
    (ringPushNResult s r q).EndsIn (CommandEffect s (.ringPushN r)) :=
  State.withValidRing_endsIn fun _ _ _ => .guard <| .guard <| by
    rw [State.writeSlots_same]
    exact .ringPushN ..

theorem ringReadResult_effect (s : State) (r : Fin 16) (q : Pending) :
    (ringReadResult s r q).EndsIn (CommandEffect s (.ringRead r)) :=
  State.withValidRing_endsIn fun _ _ _ => .guard <| .guard <| .stores ..

theorem transformResult_effect (s : State) (inverse : Bool) (i : Instr) (q : Pending) :
    (transformResult s inverse q).EndsIn (CommandEffect s i) :=
  .guard <| .guard <| .guard <| .stores ..

theorem ofdmTxResult_effect (s : State) (q : Pending) : (ofdmTxResult s q).EndsIn (CommandEffect s .ofdmTx) :=
  .guard <| .guard <| .guard <| .guard <| .guard <| .guard <| .stores ..

theorem ofdmRxResult_effect (s : State) (q : Pending) : (ofdmRxResult s q).EndsIn (CommandEffect s .ofdmRx) :=
  .guard <| .guard <| .guard <| .guard <| .guard <| .stores ..

theorem qamEncResult_effect (s : State) (q : Pending) : (qamEncResult s q).EndsIn (CommandEffect s .qamEnc) :=
  .guard <| .guard <| .guard <| .stores ..

theorem qamDecHardResult_effect (s : State) (q : Pending) :
    (qamDecHardResult s q).EndsIn (CommandEffect s .qamDecHard) :=
  .guard <| .guard <| .guard <| by
    dsimp only
    split
    · trivial
    · exact .stores ..

theorem qamDecSoftResult_effect (s : State) (q : Pending) :
    (qamDecSoftResult s q).EndsIn (CommandEffect s .qamDecSoft) :=
  .guard <| .guard <| .guard <| .stores ..

theorem qamLlrResult_effect (s : State) (q : Pending) : (qamLlrResult s q).EndsIn (CommandEffect s .qamLlr) :=
  .guard <| .guard <| .guard <| .guard <| .stores ..

theorem awgnInitResult_effect (s : State) (seedGiven : Bool) (q : Pending) :
    (awgnInitResult s seedGiven q).EndsIn (CommandEffect s (.awgnInit seedGiven)) :=
  .awgnInit ..

theorem awgnSnrResult_effect (s : State) (q : Pending) : (awgnSnrResult s q).EndsIn (CommandEffect s .awgnSnr) :=
  .guard <| .awgnSnr ..

theorem awgnApplyResult_effect (s : State) (unit : Bool) (q : Pending) :
    (awgnApplyResult s unit q).EndsIn (CommandEffect s (.awgnApply unit)) :=
  .guard <| .guard <| .guard <| .guard <| .guard <| .guard <| by
    split
    · exact .stores ..
    · exact .awgnApply ..

theorem exec_completes {i : Instr} {s t : State} (h : exec i s = .next t) : Completes s (CommandEffect s i) t := by
  cases i with
  | ringNew r kind => exact State.perform_completes (ringNewResult_effect s r kind) h
  | ringSize r => exact State.perform_completes (ringSizeResult_effect s r) h
  | ringAt r => exact State.perform_completes (ringAtResult_effect s r) h
  | ringPush1 r => exact State.perform_completes (ringPush1Result_effect s r) h
  | ringPushN r => exact State.perform_completes (ringPushNResult_effect s r) h
  | ringRead r => exact State.perform_completes (ringReadResult_effect s r) h
  | fft => exact State.perform_completes (transformResult_effect s false .fft) h
  | ifft => exact State.perform_completes (transformResult_effect s true .ifft) h
  | ofdmTx => exact State.perform_completes (ofdmTxResult_effect s) h
  | ofdmRx => exact State.perform_completes (ofdmRxResult_effect s) h
  | qamEnc => exact State.perform_completes (qamEncResult_effect s) h
  | qamDecHard => exact State.perform_completes (qamDecHardResult_effect s) h
  | qamDecSoft => exact State.perform_completes (qamDecSoftResult_effect s) h
  | qamLlr => exact State.perform_completes (qamLlrResult_effect s) h
  | awgnInit seedGiven => exact State.perform_completes (awgnInitResult_effect s seedGiven) h
  | awgnSnr => exact State.perform_completes (awgnSnrResult_effect s) h
  | awgnApply unitPower => exact State.perform_completes (awgnApplyResult_effect s unitPower) h

/-- Settles O10: an end writes LMEM, the draw count and a unit's own results, an error CODE and INFO. -/
theorem commandsLeaveHostRegistersAlone : Obligations.CommandsLeaveHostRegistersAlone := by
  unfold Obligations.CommandsLeaveHostRegistersAlone
  intro i s t h
  cases exec_completes h with
  | idle => simp
  | failed => simp [State.failed]
  | ended _ _ u hu => cases hu <;> simp

/-- Settles O11: of the ends a command may have, only those of the AWGN commands write AWGN state, and only those of
RING_NEW and the pushes the ring file, at their own ring. -/
theorem ringAndAwgnStateAreIndependent : Obligations.RingAndAwgnStateAreIndependent := by
  unfold Obligations.RingAndAwgnStateAreIndependent
  intro i s t h
  have elsewhere (r : Fin 16) (g : Ring) (n : Nat) (hn : n ≠ r.val) : (s.rings.set r.val g)[n]? = s.rings[n]? :=
    List.getElem?_set_ne hn.symm
  cases exec_completes h with
  | idle => simp
  | failed => simp [State.failed]
  | ended _ _ u hu =>
    cases hu with
    | stores => simp
    | ringNew r k g => exact ⟨by simp, fun _ => ⟨r, .inl ⟨k, rfl⟩, elsewhere r g⟩⟩
    | ringSize => simp
    | ringPush1 r g => exact ⟨by simp, fun _ => ⟨r, .inr (.inl rfl), elsewhere r g⟩⟩
    | ringPushN r g => exact ⟨by simp, fun _ => ⟨r, .inr (.inr rfl), elsewhere r g⟩⟩
    | awgnInit => simp
    | awgnSnr => simp
    | awgnApply => simp

/-! ### What one step may write -/

theorem State.engineTurn_completes {s t : State} (h : s.engineTurn = .next t) :
    Completes s (fun u => ∃ q i, s.pending = some q ∧ decodeLegal s.build.numRings q.c = some i ∧
      CommandEffect s i u) t := by
  unfold State.engineTurn at h
  split at h
  · rename_i hp
    cases h
    exact .idle hp
  · rename_i q hp
    split at h
    · cases h
      exact .failed q hp .illegalCmd q.c
    · rename_i i hi
      cases exec_completes h with
      | idle hn => exact .idle hn
      | failed q hp e w => exact .failed q hp e w
      | ended q' hp' u hu => exact .ended q' hp' u ⟨q, i, hp, hi, hu⟩

/-- A host write of a register: STATUS, CMD, or one of the registers of `State.withHostRegs`, if any. -/
theorem State.writeReg_cases (s : State) (off : Nat) (v : Word) :
    (off = 0x08 ∧ s.writeReg off v = s.writeStatus v) ∨ (off = 0x14 ∧ s.writeReg off v = s.writeCmd v) ∨
    ∃ u : State, u.ovr = s.ovr ∧ s.writeReg off v = s.withHostRegs u := by
  unfold State.writeReg
  split
  case h_1 => exact .inl ⟨rfl, rfl⟩
  case h_2 => exact .inr (.inl ⟨rfl, rfl⟩)
  case h_3 => exact .inr (.inr ⟨{ s with a0 := v }, rfl, rfl⟩)
  case h_4 => exact .inr (.inr ⟨{ s with a1 := v }, rfl, rfl⟩)
  case h_5 => exact .inr (.inr ⟨{ s with a2 := v }, rfl, rfl⟩)
  case h_6 => exact .inr (.inr ⟨{ s with a3 := v }, rfl, rfl⟩)
  case h_7 => exact .inr (.inr ⟨{ s with fargLo := v }, rfl, rfl⟩)
  case h_8 => exact .inr (.inr ⟨{ s with fargHi := v }, rfl, rfl⟩)
  case h_9 => exact .inr (.inr ⟨{ s with parThresh := v }, rfl, rfl⟩)
  case h_10 => exact .inr (.inr ⟨s, rfl, rfl⟩)

/-- All that a CMD write can do (10_state.md R26). -/
theorem State.writeCmd_cases (s : State) (c : Word) :
    (s.pending ≠ none ∧ s.writeCmd c = { s with ovr := true }) ∨
    (s.pending = none ∧ s.writeCmd c = { s with cmd := c, pending := some (s.latch c) }) := by
  unfold State.writeCmd State.busy
  cases hp : s.pending <;> simp

theorem State.hostRead_cases {s t : State} {addr n : Nat} (h : s.hostRead addr n = .next t) :
    ∃ d, t = { s with rdata := d } := by
  unfold State.hostRead at h
  split at h
  · cases h
  · split at h <;> cases h
    exact ⟨_, rfl⟩
  · split at h
    · cases h
    · split at h <;> cases h
      exact ⟨_, rfl⟩

theorem State.hostWrite_cases {s t : State} {addr n : Nat} {data : BitVec 64} (h : s.hostWrite addr n data = .next t) :
    (∃ off, placeOf s.build addr = .reg off ∧ t = s.writeReg off (data.setWidth 32)) ∨
    ∃ m, t = { s with lmem := m } := by
  unfold State.hostWrite at h
  split at h
  · cases h
  · rename_i off hoff
    split at h <;> cases h
    exact .inl ⟨off, hoff, by rw [BitVec.ofNat_toNat]⟩
  · split at h
    · cases h
    · split at h <;> cases h
      exact .inr ⟨_, rfl⟩

/-- All that one step can do: the engine's turn, a host read, a host write of a register or of LMEM, or a reset. -/
inductive StepCase (s t : State) : Prop where
  | engine (rest : List Event) (hn : s.EngineNext rest) (h : ({ s with inbox := rest }).engineTurn = .next t)
  | read (addr n : Nat) (rest : List Event) (d : BitVec 64) (hev : s.inbox = .read addr n :: rest)
      (h : t = { s with inbox := rest, rdata := d })
  | writeReg (addr n : Nat) (data : BitVec 64) (rest : List Event) (off : Nat)
      (hev : s.inbox = .write addr n data :: rest) (hoff : placeOf s.build addr = .reg off)
      (h : t = ({ s with inbox := rest }).writeReg off (data.setWidth 32))
  | writeLmem (addr n : Nat) (data : BitVec 64) (rest : List Event) (m : Memory)
      (hev : s.inbox = .write addr n data :: rest) (h : t = { s with inbox := rest, lmem := m })
  | reset (rest : List Event) (hev : s.inbox = .reset :: rest) (h : t = ({ s with inbox := rest }).hostReset)

theorem step_cases {s t : State} (h : step s = .next t) : StepCase s t := by
  unfold step at h
  split at h
  · rename_i hev
    have hs : ({ s with inbox := [] } : State) = s := by rw [← hev]
    exact .engine [] (.inr ⟨hev, rfl⟩) (by rwa [hs])
  · rename_i rest hev
    exact .engine rest (.inl hev) h
  · rename_i addr n rest hev
    obtain ⟨d, rfl⟩ := State.hostRead_cases h
    exact .read addr n rest d hev rfl
  · rename_i addr n data rest hev
    rcases State.hostWrite_cases h with ⟨off, hoff, rfl⟩ | ⟨m, rfl⟩
    · exact .writeReg addr n data rest off hev hoff rfl
    · exact .writeLmem addr n data rest m hev rfl
  · rename_i rest hev
    cases h
    exact .reset rest hev rfl

/-- No host write of a register reaches CODE, INFO or RES (10_state.md R23 to R25, R30). -/
theorem State.writeReg_keeps_results (s : State) (off : Nat) (v : Word) :
    (s.writeReg off v).code = s.code ∧ (s.writeReg off v).info = s.info ∧ (s.writeReg off v).res = s.res := by
  rcases s.writeReg_cases off v with ⟨-, e⟩ | ⟨-, e⟩ | ⟨u, -, e⟩ <;> rw [e]
  · exact ⟨rfl, rfl, rfl⟩
  · rcases s.writeCmd_cases v with ⟨-, e⟩ | ⟨-, e⟩ <;> rw [e] <;> exact ⟨rfl, rfl, rfl⟩
  · exact ⟨rfl, rfl, rfl⟩

/-- Settles O12: of the ends a command may have, only that of RING_SIZE writes RES. -/
theorem resIsWrittenOnlyByRingSize : Obligations.ResIsWrittenOnlyByRingSize := by
  unfold Obligations.ResIsWrittenOnlyByRingSize
  intro s t h hres
  cases step_cases h with
  | engine rest hn h =>
    cases State.engineTurn_completes h with
    | idle => exact absurd rfl hres
    | failed => exact absurd rfl hres
    | ended _ _ u hu =>
      obtain ⟨q, i, hp, hi, hu⟩ := hu
      cases hu with
      | ringSize r g hr hv => exact .inr ⟨rest, q, r, g, hn, hp, hi, hr, hv, rfl, rfl⟩
      | _ => exact absurd rfl hres
  | read addr n rest d hev h => exact absurd (by rw [h]) hres
  | writeReg addr n data rest off hev hoff h => exact absurd (by rw [h, (State.writeReg_keeps_results ..).2.2]) hres
  | writeLmem addr n data rest m hev h => exact absurd (by rw [h]) hres
  | reset rest hev h => exact .inl ⟨rest, hev⟩

/-- Settles O19: in the engine's turn with no pending command, and in every host access, CODE and INFO stay. -/
theorem codeAndInfoChangeOnlyAtCompletion : Obligations.CodeAndInfoChangeOnlyAtCompletion := by
  unfold Obligations.CodeAndInfoChangeOnlyAtCompletion
  intro s t h hchange
  have unchanged (hc : t.code = s.code) (hi : t.info = s.info) : False := hchange.elim (· hc) (· hi)
  cases step_cases h with
  | engine rest hn h =>
    cases State.engineTurn_completes h with
    | idle => exact (unchanged rfl rfl).elim
    | failed q hp => exact .inr ⟨rest, hn, hp.trans_ne (Option.some_ne_none q), rfl⟩
    | ended q hp => exact .inr ⟨rest, hn, hp.trans_ne (Option.some_ne_none q), rfl⟩
  | read addr n rest d hev h => exact (unchanged (by rw [h]) (by rw [h])).elim
  | writeReg addr n data rest off hev hoff h =>
    obtain ⟨hc, hi, -⟩ := State.writeReg_keeps_results { s with inbox := rest } off (data.setWidth 32)
    exact (unchanged (h ▸ hc) (h ▸ hi)).elim
  | writeLmem addr n data rest m hev h => exact (unchanged (by rw [h]) (by rw [h])).elim
  | reset rest hev h => exact .inl ⟨rest, hev⟩

/-- No turn of the engine writes OVR (60_exceptions.md R242). -/
theorem State.engineTurn_ovr {s t : State} (h : s.engineTurn = .next t) : t.ovr = s.ovr := by
  cases State.engineTurn_completes h with
  | idle => rfl
  | failed => rfl
  | ended _ _ u hu =>
    obtain ⟨q, i, -, -, hu⟩ := hu
    cases hu <;> rfl

/-- Settles O18: of the steps, only register writes and a reset write OVR; of the register writes, CMD's sets it and
STATUS's clears it. -/
theorem ovrIsSetOnlyByADroppedCommand : Obligations.OvrIsSetOnlyByADroppedCommand := by
  unfold Obligations.OvrIsSetOnlyByADroppedCommand
  intro s t h
  have unchanged {p q : Prop} (ho : t.ovr = s.ovr) :
      (s.ovr = false → t.ovr = true → p) ∧ (s.ovr = true → t.ovr = false → q) := by
    cases hs : s.ovr <;> simp [ho, hs]
  cases step_cases h with
  | engine rest hn h => exact unchanged (State.engineTurn_ovr h :)
  | read addr n rest d hev h => exact unchanged (by rw [h])
  | writeReg addr n data rest off hev hoff h =>
    rcases State.writeReg_cases { s with inbox := rest } off (data.setWidth 32) with
      ⟨rfl, e⟩ | ⟨rfl, e⟩ | ⟨u, hu, e⟩ <;> rw [e] at h
    · refine ⟨fun hs ht => ?_, fun hs ht => .inr ⟨addr, n, data, rest, hev, hoff, ?_⟩⟩
      · simp [h, State.writeStatus, hs] at ht
      · simpa [h, State.writeStatus, hs] using ht
    · rcases State.writeCmd_cases { s with inbox := rest } (data.setWidth 32) with ⟨hp, e⟩ | ⟨-, e⟩ <;> rw [e] at h
      · subst h
        exact ⟨fun _ _ => ⟨addr, n, data, rest, hev, hoff, hp, rfl⟩, fun _ => nofun⟩
      · exact unchanged (by rw [h])
    · exact unchanged (by rw [h]; exact hu)
  | writeLmem addr n data rest m hev h => exact unchanged (by rw [h])
  | reset rest hev h =>
    subst h
    exact ⟨fun _ => nofun, fun _ _ => .inl ⟨rest, hev⟩⟩

end Sys2Proof.Machine
end

section
/-! The register window, forwards: what a 32-bit access of a register and its place on the bus come to. PROOFS of O16,
O17, O20, O21, O22 and O24. -/

namespace Sys2Proof.Machine

/-! ### One access -/

section
variable {s : State} {addr off : Nat} {rest : List Event}

theorem State.hostRead_reg (hoff : placeOf s.build addr = .reg off) (hal : off % 4 = 0) :
    s.hostRead addr 4 = .next { s with rdata := (s.readReg off).setWidth 64 } := by
  simp [State.hostRead, hoff, regShapeOk, hal, BitVec.ofNat_toNat]

theorem State.hostWrite_reg (hoff : placeOf s.build addr = .reg off) (hal : off % 4 = 0) (data : BitVec 64) :
    s.hostWrite addr 4 data = .next (s.writeReg off (data.setWidth 32)) := by
  simp [State.hostWrite, hoff, regShapeOk, hal, BitVec.ofNat_toNat]

theorem step_read {n : Nat} (hev : s.inbox = .read addr n :: rest) :
    step s = ({ s with inbox := rest }).hostRead addr n := by
  rw [step, hev]

theorem step_write {n : Nat} {data : BitVec 64} (hev : s.inbox = .write addr n data :: rest) :
    step s = ({ s with inbox := rest }).hostWrite addr n data := by
  rw [step, hev]

theorem step_writeReg {data : BitVec 64} (hoff : placeOf s.build addr = .reg off)
    (hev : s.inbox = .write addr 4 data :: rest) (hal : off % 4 = 0) :
    step s = .next (({ s with inbox := rest }).writeReg off (data.setWidth 32)) :=
  (step_write hev).trans (State.hostWrite_reg (s := { s with inbox := rest }) hoff hal data)

theorem step_readReg (hoff : placeOf s.build addr = .reg off) (hev : s.inbox = .read addr 4 :: rest)
    (hal : off % 4 = 0) :
    step s = .next { s with inbox := rest, rdata := (s.readReg off).setWidth 64 } :=
  (step_read hev).trans (State.hostRead_reg (s := { s with inbox := rest }) hoff hal)

end

/-! ### The fields of a register -/

theorem getLsbD_eq_decide_div (v : Word) (i : Nat) : v.getLsbD i = decide (v.toNat / 2 ^ i % 2 = 1) :=
  Nat.testBit_eq_decide_div_mod_eq

theorem extractLsb_toNat_div (v : Word) (hi lo : Nat) :
    (v.extractLsb hi lo).toNat = v.toNat / 2 ^ lo % 2 ^ (hi - lo + 1) := by
  rw [BitVec.extractLsb_toNat, Nat.shiftRight_eq_div_pow]

theorem StatusCode.bits_lt (c : StatusCode) : c.bits < 2 ^ 8 := by
  cases c <;> decide

theorem State.status_toNat (s : State) : s.status.toNat = s.busy.toNat + 2 * s.ovr.toNat + 2 ^ 8 * s.code.bits := by
  have hbusy := s.busy.toNat_lt
  have hovr := s.ovr.toNat_lt
  have hcode := s.code.bits_lt
  exact Nat.mod_eq_of_lt (by omega)

/-- BUSY in bit 0, OVR in bit 1, CODE in bits 15:8, 0 elsewhere (10_state.md R23). -/
theorem State.status_fields (s : State) :
    s.status.getLsbD 0 = s.busy ∧ s.status.getLsbD 1 = s.ovr ∧ s.status.extractLsb 7 2 = 0 ∧
      s.status.extractLsb 31 16 = 0 ∧ s.status.extractLsb 15 8 = BitVec.ofNat 8 s.code.bits := by
  have hcode := s.code.bits_lt
  refine ⟨?_, ?_, BitVec.eq_of_toNat_eq ?_, BitVec.eq_of_toNat_eq ?_, BitVec.eq_of_toNat_eq ?_⟩
  all_goals
    simp only [getLsbD_eq_decide_div, extractLsb_toNat_div, status_toNat]
    cases s.busy <;> cases s.ovr <;> simp <;> omega

theorem State.cfg_toNat {s : State} (hv : s.build.Valid) :
    s.cfg.toNat = (decide (s.build.precision = .f64)).toNat + 2 ^ 8 * s.build.numRings := by
  obtain ⟨-, ⟨-, hr⟩, -⟩ := hv
  simp only [State.cfg, State.prec, BitVec.toNat_ofNat]
  by_cases h : s.build.precision = .f64 <;> simp [h] <;> omega

/-- FP64 in bit 0, NUM_RINGS in bits 15:8, 0 elsewhere (10_state.md R21). -/
theorem State.cfg_fields {s : State} (hv : s.build.Valid) :
    (s.cfg.getLsbD 0 = true ↔ s.build.precision = .f64) ∧ s.cfg.extractLsb 7 1 = 0 ∧
      (s.cfg.extractLsb 15 8).toNat = s.build.numRings ∧ s.cfg.extractLsb 31 16 = 0 := by
  have ⟨_, ⟨_, hr⟩, _⟩ := hv
  have hbit := (decide (s.build.precision = .f64)).toNat_lt
  refine ⟨?_, BitVec.eq_of_toNat_eq ?_, ?_, BitVec.eq_of_toNat_eq ?_⟩
  · rw [getLsbD_eq_decide_div, cfg_toNat hv]
    cases s.build.precision <;> simp <;> omega
  all_goals
    rw [extractLsb_toNat_div, cfg_toNat hv]
    simp
    omega

/-- What CFG and MEMSIZE read depends on the build alone. -/
theorem readReg_of_build_eq {s t : State} (h : t.build = s.build) :
    t.readReg 0x00 = s.readReg 0x00 ∧ t.readReg 0x04 = s.readReg 0x04 := by
  simp [State.readReg, State.cfg, State.memSize, State.prec, h]

/-! ### Where an access falls, and its shape -/

theorem lmemShapeOk_iff (b : Build) (a n : Nat) :
    lmemShapeOk b a n = true ↔ n ∈ [1, 2, 4, 8] ∧ a % n = 0 ∧ a + n ≤ b.memBytes := by
  simp [lmemShapeOk, and_assoc]

theorem placeOf_reg (b : Build) {off : Nat} (h : off < 64) : placeOf b (b.regBase + off) = .reg off := by
  simp [placeOf, h]

theorem placeOf_lmem {b : Build} (hv : b.Valid) {a : Nat} (h : a < b.memBytes) :
    placeOf b (b.lmemBase + a) = .lmem a := by
  obtain ⟨-, -, -, hsep, -⟩ := hv
  have hreg : ¬ (b.regBase ≤ b.lmemBase + a ∧ b.lmemBase + a < b.regBase + 64) := by omega
  simp [placeOf, hreg, h]

theorem placeOf_neither {b : Build} {addr : Nat} (hr : addr < b.regBase ∨ b.regBase + 64 ≤ addr)
    (hl : addr < b.lmemBase ∨ b.lmemBase + b.memBytes ≤ addr) : placeOf b addr = .neither := by
  have hreg : ¬ (b.regBase ≤ addr ∧ addr < b.regBase + 64) := by omega
  have hlmem : ¬ (b.lmemBase ≤ addr ∧ addr < b.lmemBase + b.memBytes) := by omega
  rw [placeOf, if_neg hreg, if_neg hlmem]

/-! ### The statements -/

/-- Settles O16: the two cases of a CMD write are those of BUSY. -/
theorem cmdWriteIssuesOrIsDropped : Obligations.CmdWriteIssuesOrIsDropped := by
  unfold Obligations.CmdWriteIssuesOrIsDropped
  intro s addr rest hoff
  refine ⟨fun data hev => ?_, fun hev => step_readReg hoff hev rfl, fun _ _ => rfl⟩
  rw [step_writeReg hoff hev rfl]
  rcases State.writeCmd_cases { s with inbox := rest } (data.setWidth 32) with ⟨hp, e⟩ | ⟨hp, e⟩
  · exact ⟨fun hn => absurd hn hp, fun _ _ => congrArg Host.Outcome.next e⟩
  · exact ⟨fun _ => congrArg Host.Outcome.next e, fun q hq => by cases hp.symm.trans hq⟩

/-- Settles O17: STATUS is a sum of fields that do not overlap, and a write of it reads bit 1 only. -/
theorem statusFieldsAndWriteOneToClear : Obligations.StatusFieldsAndWriteOneToClear := by
  unfold Obligations.StatusFieldsAndWriteOneToClear
  intro s addr rest hoff
  refine ⟨fun hev => ?_, fun data hev => ?_⟩
  · obtain ⟨hbusy, hovr, hlo, hhi, hcode⟩ := s.status_fields
    refine ⟨s.status, step_readReg hoff hev rfl, hbusy, hovr, hlo, hhi, hcode.trans ?_⟩
    cases s.code <;> rfl
  · have hbit : (data.setWidth 32).getLsbD 1 = data.getLsbD 1 := by simp
    rw [step_writeReg hoff hev rfl]
    simp only [State.writeReg, State.writeStatus, hbit]
    cases data.getLsbD 1 <;> simp

/-- Settles O20: one write and one read of the register window, at each offset. -/
theorem argumentRegistersTakeAndReadBack : Obligations.ArgumentRegistersTakeAndReadBack := by
  unfold Obligations.ArgumentRegistersTakeAndReadBack
  intro s addr rest data
  refine ⟨fun hev => ?_, fun hev => ?_, fun c => ⟨?_, rfl⟩⟩
  · refine ⟨?_, ?_, ?_, ?_, ?_, ?_, ?_⟩ <;> exact fun hoff => step_writeReg hoff hev rfl
  · refine ⟨?_, ?_, ?_, ?_, ?_, ?_, ?_, ?_, ?_⟩ <;> exact fun hoff => step_readReg hoff hev rfl
  · rw [BitVec.toNat_append, ← Nat.shiftLeft_add_eq_or_of_lt s.fargLo.isLt, Nat.shiftLeft_eq]
    rfl

/-- Settles O21: the offsets at which a write of the register window falls through, and those of no register. -/
theorem readOnlyAndUnmappedWritesAreIgnored : Obligations.ReadOnlyAndUnmappedWritesAreIgnored := by
  unfold Obligations.ReadOnlyAndUnmappedWritesAreIgnored
  intro s addr off rest hoff
  refine ⟨fun data hev => ⟨fun hmem => ?_, ?_⟩, fun hev hmem => ?_⟩
  · simp only [List.mem_cons, List.not_mem_nil, or_false] at hmem
    rcases hmem with rfl | rfl | rfl | rfl | rfl | rfl | rfl <;> exact step_writeReg hoff hev rfl
  · rintro rfl
    exact ⟨_, step_writeReg hoff hev rfl⟩
  · simp only [List.mem_cons, List.not_mem_nil, or_false] at hmem
    rcases hmem with rfl | rfl | rfl <;> exact step_readReg hoff hev rfl

/-- Settles O22: CFG and MEMSIZE are functions of the build, which no step changes. -/
theorem cfgAndMemsizeReportTheBuild : Obligations.CfgAndMemsizeReportTheBuild := by
  unfold Obligations.CfgAndMemsizeReportTheBuild
  intro s addr rest hv
  refine ⟨fun hoff hev => ⟨s.cfg, step_readReg hoff hev rfl, State.cfg_fields hv⟩,
    fun hoff hev => ⟨s.memSize, step_readReg hoff hev rfl, ?_⟩, fun hoff data hev => ?_, fun t h => ?_⟩
  · obtain ⟨⟨-, hmem⟩, -⟩ := hv
    exact Nat.mod_eq_of_lt (by omega)
  · rcases hoff with hoff | hoff <;> exact step_writeReg hoff hev rfl
  · exact readReg_of_build_eq (everyStepKeepsTheInvariant s t h).1

/-- Settles O24: a host read and a host write check the place, then the shape, then BUSY, and both alike. -/
theorem refusedHostAccesses : Obligations.RefusedHostAccesses := by
  unfold Obligations.RefusedHostAccesses
  intro s addr n rest ev hev hin
  have refused {x : Refusal} (hr : ({ s with inbox := rest }).hostRead addr n = .refused x)
      (hw : ∀ data, ({ s with inbox := rest }).hostWrite addr n data = .refused x) : step s = .refused x := by
    rcases hev with rfl | ⟨data, rfl⟩
    · exact (step_read hin).trans hr
    · exact (step_write hin).trans (hw data)
  refine ⟨fun a ha => ⟨fun hs => ?_, fun hs hp => ?_⟩, fun off hoff hs => ?_, fun hn => ?_,
    fun off h => placeOf_reg _ h, fun hv a h => placeOf_lmem hv h, fun hr hl => placeOf_neither hr hl⟩
  · rw [← lmemShapeOk_iff] at hs
    exact refused (by simp [State.hostRead, ha, hs]) (by simp [State.hostWrite, ha, hs])
  · rw [← lmemShapeOk_iff] at hs
    obtain ⟨q, hq⟩ := Option.ne_none_iff_exists'.1 hp
    exact refused (by simp [State.hostRead, ha, hs, State.busy, hq]) (by simp [State.hostWrite, ha, hs, State.busy, hq])
  · exact refused (by simp [State.hostRead, hoff, regShapeOk, hs]) (by simp [State.hostWrite, hoff, regShapeOk, hs])
  · exact refused (by simp [State.hostRead, hn]) (by simp [State.hostWrite, hn])

end Sys2Proof.Machine
end

section
/-! PROOF of O9: every command is `State.perform` of a body that raises no error with the code OK. -/

namespace Sys2Proof.Machine

/-- Every command is performed by a body that keeps the invariant. -/
theorem exec_eq_perform (i : Instr) (s : State) :
    ∃ body : Pending → Result, exec i s = s.perform body ∧ ∀ q, (body q).Keeps s := by
  cases i with
  | ringNew r kind => exact ⟨_, rfl, ringNewResult_keeps s r kind⟩
  | ringSize r => exact ⟨_, rfl, ringSizeResult_keeps s r⟩
  | ringAt r => exact ⟨_, rfl, ringAtResult_keeps s r⟩
  | ringPush1 r => exact ⟨_, rfl, ringPush1Result_keeps s r⟩
  | ringPushN r => exact ⟨_, rfl, ringPushNResult_keeps s r⟩
  | ringRead r => exact ⟨_, rfl, ringReadResult_keeps s r⟩
  | fft => exact ⟨_, rfl, transformResult_keeps s false⟩
  | ifft => exact ⟨_, rfl, transformResult_keeps s true⟩
  | ofdmTx => exact ⟨_, rfl, ofdmTxResult_keeps s⟩
  | ofdmRx => exact ⟨_, rfl, ofdmRxResult_keeps s⟩
  | qamEnc => exact ⟨_, rfl, qamEncResult_keeps s⟩
  | qamDecHard => exact ⟨_, rfl, qamDecHardResult_keeps s⟩
  | qamDecSoft => exact ⟨_, rfl, qamDecSoftResult_keeps s⟩
  | qamLlr => exact ⟨_, rfl, qamLlrResult_keeps s⟩
  | awgnInit seedGiven => exact ⟨_, rfl, awgnInitResult_keeps s seedGiven⟩
  | awgnSnr => exact ⟨_, rfl, awgnSnrResult_keeps s⟩
  | awgnApply unitPower => exact ⟨_, rfl, awgnApplyResult_keeps s unitPower⟩

/-- Settles O9: a body ends, and completion writes CODE = OK and INFO = 0, or raises an error whose code is not OK, and
completion starts from the state before the command. -/
theorem failedCommandChangesOnlyCodeAndInfo : Obligations.FailedCommandChangesOnlyCodeAndInfo := by
  unfold Obligations.FailedCommandChangesOnlyCodeAndInfo
  intro i s t q hp h
  obtain ⟨body, hbody, hkeeps⟩ := exec_eq_perform i s
  rw [hbody, State.perform_pending hp] at h
  cases h
  have hq := hkeeps q
  cases hr : body q with
  | done u => exact ⟨fun he => absurd rfl he, fun _ => rfl⟩
  | raise e w =>
    rw [hr] at hq
    exact ⟨fun _ => rfl, fun he => absurd he hq⟩

end Sys2Proof.Machine
end

section
/-! PROOF of O23. Byte order and the fields of an encoding, each said once; then the host's accesses and the engine's
loads and stores are short uses of them. -/

namespace Sys2Proof.Machine

/-! ### Byte order -/

/-- Byte `k`, counted from the least significant, is bits `8k` to `8k + 7` (20_memory.md R61). -/
theorem bytesLE_eq_map (n v : Nat) : bytesLE n v = (List.range n).map fun k => BitVec.ofNat 8 (v >>> (8 * k)) := by
  induction n generalizing v with
  | zero => rfl
  | succ n ih =>
    rw [bytesLE, ih, List.range_succ_eq_map, ← Nat.shiftRight_eq_div_pow]
    simp [Nat.mul_succ, Nat.add_comm _ 8, Nat.shiftRight_add]

theorem bytesLE_toNat (n : Nat) {m : Nat} (x : BitVec m) :
    bytesLE n x.toNat = (List.range n).map fun k => x.extractLsb' (8 * k) 8 :=
  bytesLE_eq_map n x.toNat

theorem bytesLE_valueLE (bs : List Byte) : bytesLE bs.length (valueLE bs) = bs := by
  induction bs with
  | nil => rfl
  | cons b bs ih =>
    have hb := b.isLt
    have hlow : BitVec.ofNat 8 (valueLE (b :: bs)) = b := BitVec.eq_of_toNat_eq (by simp [valueLE]; omega)
    have hrest : valueLE (b :: bs) / 2 ^ 8 = valueLE bs := by simp only [valueLE]; omega
    rw [List.length_cons, bytesLE, hlow, hrest, ih]

theorem valueLE_lt (bs : List Byte) : valueLE bs < 2 ^ (8 * bs.length) := by
  rw [← bytesLE_valueLE bs, valueLE_bytesLE, bytesLE_length]
  exact Nat.mod_lt _ (by positivity)

theorem valueLE_map_range (n : Nat) (g : Nat → Byte) :
    valueLE ((List.range n).map g) = ((List.range n).map fun j => (g j).toNat * 256 ^ j).sum := by
  induction n generalizing g with
  | zero => rfl
  | succ n ih =>
    simp only [List.range_succ_eq_map, List.map_cons, List.map_map, Function.comp_def, valueLE, List.sum_cons, ih]
    rw [← List.sum_map_mul_left]
    simp [pow_succ', Nat.mul_left_comm]

/-- Item `j` of the `k`-th of equally long pieces laid end to end. -/
theorem getElem?_flatMap_const {α β : Type} {f : α → List β} {n : Nat} (hf : ∀ a, (f a).length = n) {xs : List α}
    {k : Nat} {v : α} (hv : xs[k]? = some v) {j : Nat} (hj : j < n) : (xs.flatMap f)[n * k + j]? = (f v)[j]? := by
  induction xs generalizing k with
  | nil => simp at hv
  | cons x xs ih =>
    cases k with
    | zero =>
      obtain rfl : x = v := by simpa using hv
      rw [List.flatMap_cons, Nat.mul_zero, Nat.zero_add, List.getElem?_append_left (by rwa [hf])]
    | succ k =>
      rw [List.flatMap_cons, List.getElem?_append_right (by rw [hf, Nat.mul_succ]; omega), hf,
        show n * (k + 1) + j - n = n * k + j by rw [Nat.mul_succ]; omega]
      exact ih hv

/-! ### The bytes of values and of their sequences -/

theorem fBytes_eq_map (p : Precision) (x : Fp) :
    fBytes p x = (List.range p.width).map fun j => (x.toBits p).extractLsb' (8 * j) 8 :=
  bytesLE_toNat p.width (x.toBits p)

theorem getElem?_fBytes (p : Precision) (x : Fp) {j : Nat} (hj : j < p.width) :
    (fBytes p x)[j]? = some ((x.toBits p).extractLsb' (8 * j) 8) := by
  simp [fBytes_eq_map, hj]

theorem getElem?_flatMap_fBytes {p : Precision} {xs : List Fp} {k : Nat} {v : Fp} (hv : xs[k]? = some v) {j : Nat}
    (hj : j < p.width) :
    (xs.flatMap (fBytes p))[p.width * k + j]? = some ((v.toBits p).extractLsb' (8 * j) 8) := by
  rw [getElem?_flatMap_const (fBytes_length p) hv hj, getElem?_fBytes p v hj]

/-- The real part in the first `w` bytes, the imaginary part in the next `w` (20_memory.md R62). -/
theorem getElem?_flatMap_cBytes {p : Precision} {zs : List Cx} {k : Nat} {v : Cx} (hv : zs[k]? = some v) {j : Nat}
    (hj : j < p.width) :
    (zs.flatMap (cBytes p))[2 * p.width * k + j]? = some ((v.re.toBits p).extractLsb' (8 * j) 8) ∧
      (zs.flatMap (cBytes p))[2 * p.width * k + p.width + j]? = some ((v.im.toBits p).extractLsb' (8 * j) 8) := by
  have hlen := fBytes_length p v.re
  constructor
  · rw [getElem?_flatMap_const (cBytes_length p) hv (by omega), cBytes, List.getElem?_append_left (by omega),
      getElem?_fBytes p v.re hj]
  · rw [Nat.add_assoc, getElem?_flatMap_const (cBytes_length p) hv (by omega), cBytes,
      List.getElem?_append_right (by omega), hlen, Nat.add_sub_cancel_left, getElem?_fBytes p v.im hj]

/-! ### The host's accesses of LMEM -/

section
variable {s : State} {addr a n : Nat} {rest : List Event}

theorem State.hostWrite_lmem (ha : placeOf s.build addr = .lmem a) (hs : lmemShapeOk s.build a n = true)
    (hp : s.pending = none) (data : BitVec 64) :
    s.hostWrite addr n data = .next (s.storeBytes a (bytesLE n data.toNat)) := by
  simp [State.hostWrite, ha, hs, State.busy, hp]

theorem State.hostRead_lmem (ha : placeOf s.build addr = .lmem a) (hs : lmemShapeOk s.build a n = true)
    (hp : s.pending = none) :
    s.hostRead addr n = .next { s with rdata := BitVec.ofNat 64 (s.memRead a n) } := by
  simp [State.hostRead, ha, hs, State.busy, hp]

theorem step_writeLmem (ha : placeOf s.build addr = .lmem a) (hs : lmemShapeOk s.build a n = true)
    (hp : s.pending = none) {data : BitVec 64} (hev : s.inbox = .write addr n data :: rest) :
    step s = .next (({ s with inbox := rest }).storeBytes a (bytesLE n data.toNat)) :=
  (step_write hev).trans (State.hostWrite_lmem (s := { s with inbox := rest }) ha hs hp data)

theorem step_readLmem (ha : placeOf s.build addr = .lmem a) (hs : lmemShapeOk s.build a n = true)
    (hp : s.pending = none) (hev : s.inbox = .read addr n :: rest) :
    step s = .next { s with inbox := rest, rdata := BitVec.ofNat 64 (s.memRead a n) } :=
  (step_read hev).trans (State.hostRead_lmem (s := { s with inbox := rest }) ha hs hp)

end

theorem State.memRead_lt (s : State) (a n : Nat) : s.memRead a n < 2 ^ (8 * n) := by
  simpa [State.memRead] using valueLE_lt (s.loadBytes a n)

/-- Up to 8 bytes fit in the 64 bits of `rdata`. -/
theorem State.memRead_toNat (s : State) (a : Nat) {n : Nat} (hn : n ≤ 8) :
    (BitVec.ofNat 64 (s.memRead a n)).toNat = s.memRead a n :=
  Nat.mod_eq_of_lt ((s.memRead_lt a n).trans_le (Nat.pow_le_pow_right two_pos (by omega)))

theorem State.extractLsb'_memRead (s : State) (a : Nat) {n k : Nat} (hn : n ≤ 8) (hk : k < n) :
    (BitVec.ofNat 64 (s.memRead a n)).extractLsb' (8 * k) 8 = s.loadB (a + k) := by
  have hbytes := bytesLE_valueLE (s.loadBytes a n)
  rw [State.loadBytes_length, ← State.memRead, ← s.memRead_toNat a hn, bytesLE_toNat] at hbytes
  exact List.map_inj_left.1 hbytes k (List.mem_range.2 hk)

/-! ### The engine's loads -/

theorem State.loadF_eq (s : State) (a : Nat) :
    s.loadF a = Fp.ofBits s.prec ((List.range s.w).map fun j => (s.loadB (a + j)).toNat * 256 ^ j).sum :=
  congrArg _ (valueLE_map_range ..)

/-! ### The fields of an encoding (IEEE 754, 00_scope.md R5; log entry 19) -/

/-- Bits of the exponent field. -/
def expBits : Precision → Nat
  | .f32 => 8
  | .f64 => 11

theorem signWeight_eq (p : Precision) : p.signWeight = 2 ^ (expBits p + p.fracBits) := by cases p <;> rfl

theorem infExp_eq_expBits (p : Precision) : infExp p = 2 ^ expBits p - 1 := by cases p <;> rfl

/-- The bits of a magnitude above its fraction fit in the exponent field. -/
theorem div_two_pow_fracBits_lt {p : Precision} {m : Nat} (hm : m < p.signWeight) :
    m / 2 ^ p.fracBits < 2 ^ expBits p :=
  Nat.div_lt_of_lt_mul (by rwa [← pow_add, Nat.add_comm, ← signWeight_eq])

/-- The sign bit, the exponent field and the fraction field of a sign and a magnitude. -/
theorem signedBits_fields (p : Precision) (neg : Bool) {m : Nat} (hm : m < p.signWeight) :
    (signedBits p neg m).testBit (expBits p + p.fracBits) = neg ∧
      signedBits p neg m / 2 ^ p.fracBits % 2 ^ expBits p = m / 2 ^ p.fracBits ∧
      signedBits p neg m % 2 ^ p.fracBits = m % 2 ^ p.fracBits := by
  have hexp := div_two_pow_fracBits_lt hm
  rw [signWeight_eq] at hm
  have hbit := Nat.testBit_lt_two_pow hm
  cases neg with
  | false => simp [signedBits, hbit, Nat.mod_eq_of_lt hexp]
  | true =>
    simp only [signedBits, signWeight_eq, if_true]
    refine ⟨by rw [Nat.testBit_two_pow_add_eq, hbit]; rfl, ?_, ?_⟩
    · rw [pow_add, Nat.add_comm, Nat.add_mul_div_right _ _ (by positivity), Nat.add_mod_right, Nat.mod_eq_of_lt hexp]
    · rw [pow_add, Nat.mul_add_mod_self_right]

/-- `bits()` of the value of an encoding is that encoding (00_scope.md R13). -/
theorem toBits_ofBits (p : Precision) {e : Nat} (he : e < 2 ^ p.bits) :
    (Fp.ofBits p e).toBits p = BitVec.ofNat 64 e := by
  obtain ⟨neg, m, hm, rfl⟩ := exists_signedBits p he
  rw [ofBits_signedBits p neg hm]
  split
  · rfl
  · split
    · rename_i h
      rw [h]; rfl
    · rfl

/-- Of the magnitudes an encoding may have, the finite ones are those with another exponent field than infinity's. -/
theorem lt_infMag_iff {p : Precision} {m : Nat} (hm : m < p.signWeight) :
    m < p.infMag ↔ m / 2 ^ p.fracBits ≠ infExp p := by
  have hexp := div_two_pow_fracBits_lt hm
  have hinf := infExp_eq_expBits p
  rw [infMag_eq, ← Nat.div_lt_iff_lt_mul (by positivity)]
  omega

theorem eq_infMag_iff (p : Precision) (m : Nat) :
    m = p.infMag ↔ m / 2 ^ p.fracBits = infExp p ∧ m % 2 ^ p.fracBits = 0 := by
  rw [infMag_eq]
  constructor
  · rintro rfl
    simp
  · rintro ⟨he, hf⟩
    rw [← he, Nat.div_mul_cancel (Nat.dvd_of_mod_eq_zero hf)]

/-- The exponent field tells the finite values from the others, the fraction field an infinity from a NaN. -/
theorem ofBits_signedBits_fields (p : Precision) (neg : Bool) {m : Nat} (hm : m < p.signWeight) :
    Fp.ofBits p (signedBits p neg m) =
      if m / 2 ^ p.fracBits ≠ infExp p then .fin neg m
      else if m % 2 ^ p.fracBits = 0 then .inf neg
      else .nan (BitVec.ofNat 64 (signedBits p neg m)) := by
  rw [ofBits_signedBits p neg hm, if_congr (lt_infMag_iff hm) rfl rfl]
  by_cases h : m / 2 ^ p.fracBits = infExp p <;> simp [eq_infMag_iff, h]

/-- The value of a finite magnitude by its exponent and fraction: a subnormal where the exponent is 0. -/
theorem finValue_fields (p : Precision) (neg : Bool) (m : Nat) : finValue p neg m =
    (if neg then -1 else 1) *
      (if m / 2 ^ p.fracBits = 0 then ((m % 2 ^ p.fracBits : Nat) : ℚ) / 2 ^ p.fracBits * (2 : ℚ) ^ (1 - expBias p)
        else (1 + ((m % 2 ^ p.fracBits : Nat) : ℚ) / 2 ^ p.fracBits) *
          (2 : ℚ) ^ (((m / 2 ^ p.fracBits : Nat) : Int) - expBias p)) := by
  simp only [finValue, magValue, Int.natCast_eq_zero]
  cases neg <;> simp only [Bool.false_eq_true, if_true, if_false, one_mul, neg_one_mul]

/-- Settles O23: host and engine write by `bytesLE` and read by `valueLE`, a sequence is equally long pieces laid end to
end, and an encoding is a sign and a magnitude of exponent and fraction. -/
theorem hostLmemAccessesAreLittleEndian : Obligations.HostLmemAccessesAreLittleEndian := by
  unfold Obligations.HostLmemAccessesAreLittleEndian
  refine ⟨fun s a n rest hv hn hal hin hp => ?_, fun s a n => ?_, fun p x z xs zs => ?_, fun p e he => ?_⟩
  · have hs := (lmemShapeOk_iff s.build a n).2 ⟨hn, hal, hin⟩
    have hn8 : 0 < n ∧ n ≤ 8 := (by decide : ∀ n ∈ [1, 2, 4, 8], 0 < n ∧ n ≤ 8) n hn
    have ha := placeOf_lmem hv (show a < s.build.memBytes by omega)
    refine ⟨fun data hev => ⟨_, step_writeLmem ha hs hp hev, rfl, fun x => ?_⟩,
      fun hev => ⟨_, step_readLmem ha hs hp hev, (s.memRead_toNat a hn8.2).trans_lt (s.memRead_lt a n),
        fun k hk => s.extractLsb'_memRead a hn8.2 hk⟩⟩
    rw [← bytesLE_toNat]
    exact State.loadB_storeBytes ..
  · have hf (x : Nat) := s.loadF_eq x
    exact ⟨rfl, rfl, congrArg₂ Cx.mk (hf a) (hf _), List.map_congr_left fun k _ => congrArg₂ Cx.mk (hf _) (hf _)⟩
  · exact ⟨fBytes_eq_map p x, congrArg₂ _ (fBytes_eq_map p z.re) (fBytes_eq_map p z.im),
      fun k v hv j hj => getElem?_flatMap_fBytes hv hj, fun k v hv j hj => getElem?_flatMap_cBytes hv hj⟩
  · obtain ⟨neg, m, hm, rfl⟩ := exists_signedBits p he
    obtain ⟨hsign, hexp, hfrac⟩ := signedBits_fields p neg hm
    have hof := ofBits_signedBits_fields p neg hm
    have hval := finValue_fields p ((signedBits p neg m).testBit (expBits p + p.fracBits)) m
    have hfin := lt_infMag_iff hm
    rw [← hexp, infExp_eq_expBits] at hfin
    rw [← hexp, ← hfrac, infExp_eq_expBits] at hof
    rw [← hexp, ← hfrac] at hval
    refine ⟨by cases p <;> rfl, toBits_ofBits p he, fun hne => ⟨m, ?_, hfin.2 hne, hval⟩, fun h h0 => ?_,
      fun h h0 => ?_⟩
    · exact (hof.trans (if_pos hne)).trans (congrArg (Fp.fin · m) hsign.symm)
    · exact (hof.trans (if_neg (not_not.2 h))).trans ((if_pos h0).trans (congrArg Fp.inf hsign.symm))
    · exact (hof.trans (if_neg (not_not.2 h))).trans (if_neg h0)

end Sys2Proof.Machine
end

section
/-! PROOFS of O1, O2, O3 and O4. A word is its four fields; the opcode map is read row by row; a decoded command and an
encoded one are compared by those fields (30_encoding.md R80 to R87). -/

namespace Sys2Proof

/-! ### A word is its four fields (R80) -/

theorem word_toNat_eq_fields (c : Word) :
    c.toNat = opcField c + (rsField c).val * 2 ^ 8 + (flField c).toNat * 2 ^ 12 + rsvField c * 2 ^ 13 := by
  have hrs : (rsField c).val = c.toNat / 2 ^ 8 % 16 := rfl
  have hfl : (flField c).toNat = c.toNat / 2 ^ 12 % 2 := by
    rcases Nat.mod_two_eq_zero_or_one (c.toNat / 2 ^ 12) with h | h <;> rw [flField, h] <;> rfl
  rw [hrs, hfl, opcField, rsvField]
  omega

theorem word_ext {c d : Word} (hopc : opcField c = opcField d) (hrs : rsField c = rsField d)
    (hfl : flField c = flField d) (hrsv : rsvField c = rsvField d) : c = d :=
  BitVec.eq_of_toNat_eq (by rw [word_toNat_eq_fields c, word_toNat_eq_fields d, hopc, hrs, hfl, hrsv])

/-- The word `c` has the OPC, RS and FL of the command `i` in their places and 0 in RSV. -/
structure HasFieldsOf (c : Word) (i : Instr) : Prop where
  opc : opcField c = i.opc
  rs : rsField c = i.rs
  fl : flField c = i.fl
  rsv : rsvField c = 0

theorem encode_hasFieldsOf (i : Instr) : HasFieldsOf (encode i) i := by
  have hfields : Laws.Fields.Statement i := by
    cases i with
    | ringNew r kind => exact Laws.Fields.ringNew r kind
    | ringSize r => exact Laws.Fields.ringSize r
    | ringAt r => exact Laws.Fields.ringAt r
    | ringPush1 r => exact Laws.Fields.ringPush1 r
    | ringPushN r => exact Laws.Fields.ringPushN r
    | ringRead r => exact Laws.Fields.ringRead r
    | fft => exact Laws.Fields.fft
    | ifft => exact Laws.Fields.ifft
    | ofdmTx => exact Laws.Fields.ofdmTx
    | ofdmRx => exact Laws.Fields.ofdmRx
    | qamEnc => exact Laws.Fields.qamEnc
    | qamDecHard => exact Laws.Fields.qamDecHard
    | qamDecSoft => exact Laws.Fields.qamDecSoft
    | qamLlr => exact Laws.Fields.qamLlr
    | awgnInit seedGiven => exact Laws.Fields.awgnInit seedGiven
    | awgnSnr => exact Laws.Fields.awgnSnr
    | awgnApply unitPower => exact Laws.Fields.awgnApply unitPower
  obtain ⟨hopc, hrs, hfl, hrsv⟩ := hfields
  exact ⟨hopc, hrs, hfl, hrsv⟩

theorem encode_eq_iff {i : Instr} {c : Word} : encode i = c ↔ HasFieldsOf c i := by
  have henc := encode_hasFieldsOf i
  constructor
  · rintro rfl
    exact henc
  · intro hc
    exact word_ext (henc.opc.trans hc.opc.symm) (henc.rs.trans hc.rs.symm) (henc.fl.trans hc.fl.symm)
      (henc.rsv.trans hc.rsv.symm)

/-! ### The rows of the opcode map (R81, R82, R84) -/

/-- The row takes a ring: its RS field may be other than 0 (R81). -/
def Shape.takesRing : Shape → Bool
  | .ringFlag _ => true
  | .ring _ => true
  | .flag _ => false
  | .plain _ => false

/-- The row takes a flag: its FL field may be set (R82). -/
def Shape.takesFlag : Shape → Bool
  | .ringFlag _ => true
  | .ring _ => false
  | .flag _ => true
  | .plain _ => false

/-- The row's command, a field it does not take being left out of account. -/
def Shape.instr (rs : Fin 16) (fl : Bool) : Shape → Instr
  | .ringFlag mk => mk rs fl
  | .ring mk => mk rs
  | .flag mk => mk fl
  | .plain i => i

theorem Shape.fill_eq_ok_iff {sh : Shape} {rs : Fin 16} {fl : Bool} {i : Instr} :
    sh.fill rs fl = .ok i ↔
      (fl = true → sh.takesFlag = true) ∧ (rs ≠ 0 → sh.takesRing = true) ∧ sh.instr rs fl = i := by
  unfold Shape.fill Shape.takesFlag Shape.takesRing Shape.instr
  cases sh with
  | ringFlag mk => simp
  | ring mk => cases fl <;> simp
  | flag mk => by_cases hrs : rs = 0 <;> simp [hrs]
  | plain j => cases fl <;> by_cases hrs : rs = 0 <;> simp [hrs]

/-- The 17 OPC values, as `Machine.LegalWord` lists them. -/
abbrev listedOpcodes : List (BitVec 8) :=
  [0x01, 0x02, 0x03, 0x04, 0x05, 0x06, 0x10, 0x11, 0x20, 0x21, 0x30, 0x31, 0x32, 0x33, 0x40, 0x41, 0x42]

abbrev flagOpcodes : List (BitVec 8) := [0x01, 0x40, 0x42]

abbrev ringOpcodes : List (BitVec 8) := [0x01, 0x02, 0x03, 0x04, 0x05, 0x06]

/-- `sh` is what R81 to R84 and R87 item 4 say of the row of `opc`. -/
structure Shape.IsRow (sh : Shape) (opc : Nat) : Prop where
  listed : BitVec.ofNat 8 opc ∈ listedOpcodes
  takesFlag_iff : sh.takesFlag = true ↔ BitVec.ofNat 8 opc ∈ flagOpcodes
  takesRing_iff : sh.takesRing = true ↔ BitVec.ofNat 8 opc ∈ ringOpcodes
  opc_instr (rs : Fin 16) (fl : Bool) : (sh.instr rs fl).opc = opc
  rs_instr (rs : Fin 16) (fl : Bool) : (sh.instr rs fl).rs = if sh.takesRing then rs else 0
  fl_instr (rs : Fin 16) (fl : Bool) : (sh.instr rs fl).fl = (sh.takesFlag && fl)
  wf_instr (rs : Fin 16) (fl : Bool) (n : Nat) :
    (sh.instr rs fl).wf n = true ↔ (sh.takesRing = true → rs.val < n)

theorem isRow_of_shapeOf {opc : Nat} {sh : Shape} (h : shapeOf opc = some sh) : sh.IsRow opc := by
  unfold shapeOf at h
  split at h <;> cases h <;> exact
    { listed := by decide
      takesFlag_iff := by decide
      takesRing_iff := by decide
      opc_instr _ _ := rfl
      rs_instr _ _ := rfl
      fl_instr _ fl := by cases fl <;> rfl
      wf_instr _ _ _ := by simp [Shape.takesRing, Shape.instr, Instr.wf] }

theorem exists_shapeOf_of_mem {v : BitVec 8} (h : v ∈ listedOpcodes) : ∃ sh, shapeOf v.toNat = some sh :=
  Option.isSome_iff_exists.1 ((by decide : ∀ v ∈ listedOpcodes, (shapeOf v.toNat).isSome = true) v h)

/-- The row of a command's own OPC makes that command of its own RS and FL. -/
theorem exists_shapeOf_opc (i : Instr) : ∃ sh, shapeOf i.opc = some sh ∧ sh.fill i.rs i.fl = .ok i := by
  cases i with
  | ringNew r kind => cases kind <;> exact ⟨_, rfl, rfl⟩
  | _ => exact ⟨_, rfl, rfl⟩

/-! ### Decoding (R86, R87) -/

theorem decode_eq_ok_iff {c : Word} {i : Instr} : decode c = .ok i ↔
    rsvField c = 0 ∧ ∃ sh, shapeOf (opcField c) = some sh ∧ sh.fill (rsField c) (flField c) = .ok i := by
  unfold decode
  by_cases hrsv : rsvField c = 0
  · cases shapeOf (opcField c) <;> simp [hrsv]
  · simp [hrsv]

theorem decode_eq_ok_iff_hasFieldsOf {c : Word} {i : Instr} : decode c = .ok i ↔ HasFieldsOf c i := by
  rw [decode_eq_ok_iff]
  constructor
  · rintro ⟨hrsv, sh, hsh, hfill⟩
    obtain ⟨hflag, hring, rfl⟩ := Shape.fill_eq_ok_iff.1 hfill
    have hrow := isRow_of_shapeOf hsh
    refine ⟨(hrow.opc_instr ..).symm, ?_, ?_, hrsv⟩
    · rw [hrow.rs_instr]
      split
      · rfl
      · exact not_not.1 (mt hring ‹_›)
    · rw [hrow.fl_instr]
      cases hfl : flField c with
      | false => simp
      | true => simp [hflag hfl]
  · rintro ⟨hopc, hrs, hfl, hrsv⟩
    rw [hopc, hrs, hfl]
    exact ⟨hrsv, exists_shapeOf_opc i⟩

theorem decode_encode (i : Instr) : decode (encode i) = .ok i :=
  decode_eq_ok_iff_hasFieldsOf.2 (encode_hasFieldsOf i)

/-- Settles O1: both sides say that the word has the command's fields. -/
theorem decodeAndEncodeAreInverse : Obligations.DecodeAndEncodeAreInverse := by
  unfold Obligations.DecodeAndEncodeAreInverse
  intro c i
  exact decode_eq_ok_iff_hasFieldsOf.trans encode_eq_iff.symm

theorem decodeLegal_eq_some_iff {n : Nat} {c : Word} {i : Instr} :
    decodeLegal n c = some i ↔ decode c = .ok i ∧ i.wf n = true := by
  unfold decodeLegal
  cases decode c with
  | error e => simp
  | ok j =>
    simp only [Option.ite_none_right_eq_some, Option.some.injEq, Except.ok.injEq]
    rw [and_comm, and_congr_right_iff]
    rintro rfl
    rfl

/-- A word is decoded exactly when RSV is 0, its OPC has a row, and its FL and RS are as that row allows. -/
theorem exists_decodeLegal_iff {n : Nat} {c : Word} : (∃ i, decodeLegal n c = some i) ↔
    rsvField c = 0 ∧ ∃ sh, shapeOf (opcField c) = some sh ∧ (flField c = true → sh.takesFlag = true) ∧
      (rsField c ≠ 0 → sh.takesRing = true) ∧ (sh.takesRing = true → (rsField c).val < n) := by
  simp only [decodeLegal_eq_some_iff, decode_eq_ok_iff, Shape.fill_eq_ok_iff]
  constructor
  · rintro ⟨_, ⟨hrsv, sh, hsh, hflag, hring, rfl⟩, hwf⟩
    exact ⟨hrsv, sh, hsh, hflag, hring, ((isRow_of_shapeOf hsh).wf_instr ..).1 hwf⟩
  · rintro ⟨hrsv, sh, hsh, hflag, hring, hlt⟩
    exact ⟨_, ⟨hrsv, sh, hsh, hflag, hring, rfl⟩, ((isRow_of_shapeOf hsh).wf_instr ..).2 hlt⟩

end Sys2Proof

namespace Sys2Proof.Machine

/-! ### The fields by their bits, as R80 and `LegalWord` write them -/

theorem extractLsb_opc_toNat (c : Word) : (c.extractLsb 7 0).toNat = opcField c := by
  rw [extractLsb_toNat_div, pow_zero, Nat.div_one]
  rfl

theorem ofNat_opcField (c : Word) : BitVec.ofNat 8 (opcField c) = c.extractLsb 7 0 := by
  rw [← extractLsb_opc_toNat]
  exact BitVec.ofNat_toNat ..

theorem extractLsb_rs_toNat (c : Word) : (c.extractLsb 11 8).toNat = (rsField c).val :=
  extractLsb_toNat_div c 11 8

theorem extractLsb_rs_ne_zero_iff (c : Word) : c.extractLsb 11 8 ≠ 0 ↔ rsField c ≠ 0 := by
  rw [Ne, ← BitVec.toNat_inj, extractLsb_rs_toNat, Ne, Fin.ext_iff]
  rfl

theorem getLsbD_fl (c : Word) : c.getLsbD 12 = flField c := getLsbD_eq_decide_div c 12

theorem extractLsb_rsv_eq_zero_iff (c : Word) : c.extractLsb 31 13 = 0 ↔ rsvField c = 0 := by
  have hlt : c.toNat / 2 ^ 13 < 2 ^ (31 - 13 + 1) := Nat.div_lt_of_lt_mul c.isLt
  rw [← BitVec.toNat_inj, extractLsb_toNat_div, Nat.mod_eq_of_lt hlt]
  rfl

theorem exists_decodeLegal_iff_legalWord (n : Nat) (c : Word) :
    (∃ i, decodeLegal n c = some i) ↔ LegalWord n c := by
  rw [exists_decodeLegal_iff, LegalWord, extractLsb_rsv_eq_zero_iff, getLsbD_fl, extractLsb_rs_ne_zero_iff,
    extractLsb_rs_toNat]
  refine and_congr_right fun _ => ⟨?_, ?_⟩
  · rintro ⟨sh, hsh, hflag, hring, hlt⟩
    obtain ⟨hlisted, htf, htr, -⟩ := isRow_of_shapeOf hsh
    rw [ofNat_opcField] at hlisted htf htr
    exact ⟨hlisted, fun h => htf.1 (hflag h), fun h => htr.1 (hring h), fun h => hlt (htr.2 h)⟩
  · rintro ⟨hlisted, hflag, hring, hlt⟩
    obtain ⟨sh, hsh⟩ := exists_shapeOf_of_mem hlisted
    rw [extractLsb_opc_toNat] at hsh
    obtain ⟨-, htf, htr, -⟩ := isRow_of_shapeOf hsh
    rw [ofNat_opcField] at htf htr
    exact ⟨sh, hsh, fun h => htf.2 (hflag h), fun h => htr.2 (hring h), fun h => hlt (htr.1 h)⟩

theorem decodeLegal_eq_none_of_not_legalWord {n : Nat} {c : Word} (h : ¬ LegalWord n c) : decodeLegal n c = none :=
  Option.eq_none_iff_forall_ne_some.2 fun i hi => h ((exists_decodeLegal_iff_legalWord n c).1 ⟨i, hi⟩)

/-- Settles O2: the rows of the opcode map that take a flag or a ring are those R87 lists. -/
theorem legalWordsAreTheOnesDecoded : Obligations.LegalWordsAreTheOnesDecoded := by
  unfold Obligations.LegalWordsAreTheOnesDecoded
  exact exists_decodeLegal_iff_legalWord

/-- Settles O3: each word of R84 for each of the 16 rings; an OPC that is not listed is item 2 of R87. -/
theorem commandWordsOfTheOpcodeMap : Obligations.CommandWordsOfTheOpcodeMap := by
  unfold Obligations.CommandWordsOfTheOpcodeMap
  refine ⟨?_, ?_, ?_, ?_, ?_, ?_, ?_, ?_, ?_, ?_, ?_, ?_, ?_, ?_, ?_, ?_, ?_, ?_, ?_, ?_, fun c hc n => ?unlisted⟩
  case unlisted => exact decodeLegal_eq_none_of_not_legalWord fun ⟨_, hlisted, _⟩ => hc hlisted
  all_goals decide

/-- Settles O4: the decoder is run on each of these fixed words. -/
theorem writtenOutWordsDecode : Obligations.WrittenOutWordsDecode := by
  unfold Obligations.WrittenOutWordsDecode
  decide

end Sys2Proof.Machine
end

section
/-! PROOFS of O5 and O6: the engine's turn, forwards, on a pending word that is a command and on one that is none. -/

namespace Sys2Proof.Machine

theorem step_of_engineNext {s : State} {rest : List Event} (h : s.EngineNext rest) :
    step s = ({ s with inbox := rest }).engineTurn := by
  rcases h with hin | ⟨hin, rfl⟩
  · rw [step, hin]
  · have hself : { s with inbox := [] } = s := by rw [← hin]
    rw [hself, step, hin]

theorem State.engineTurn_legal {s : State} {q : Pending} {i : Instr} (hp : s.pending = some q)
    (hi : decodeLegal s.build.numRings q.c = some i) : s.engineTurn = exec i s := by
  simp [State.engineTurn, hp, hi]

theorem State.engineTurn_illegal {s : State} {q : Pending} (hp : s.pending = some q)
    (hc : ¬ LegalWord s.build.numRings q.c) : s.engineTurn = .next (s.failed .illegalCmd q.c) := by
  simp [State.engineTurn, hp, decodeLegal_eq_none_of_not_legalWord hc, State.complete, State.failed]

theorem step_legal {s : State} {q : Pending} {rest : List Event} {i : Instr} (hn : s.EngineNext rest)
    (hp : s.pending = some q) (hi : decodeLegal s.build.numRings q.c = some i) :
    step s = exec i { s with inbox := rest } :=
  (step_of_engineNext hn).trans (State.engineTurn_legal (s := { s with inbox := rest }) hp hi)

theorem State.withFetchWord_toNat (s : State) (c : Word) :
    s.withFetchWord 32 c.toNat = s.placeCommand (s.latch c) := by
  rw [State.withFetchWord, Nat.mod_eq_of_lt c.isLt, BitVec.ofNat_toNat, BitVec.setWidth_eq]

/-- Settles O5: a placed word has the engine's turn next, and the word of a command decodes to it. -/
theorem stepPerformsTheDecodedCommand : Obligations.StepPerformsTheDecodedCommand := by
  unfold Obligations.StepPerformsTheDecodedCommand
  refine ⟨fun s q rest i hn hp hi => step_legal hn hp hi, fun s i hwf => ?_⟩
  rw [State.withFetchWord_toNat]
  exact step_legal (.inl rfl) rfl (decodeLegal_eq_some_iff.2 ⟨decode_encode i, hwf⟩)

/-- Settles O6: a word that is not legal is no command, and the engine's turn raises ILLEGAL_CMD. -/
theorem illegalWordCompletesWithIllegalCmd : Obligations.IllegalWordCompletesWithIllegalCmd := by
  unfold Obligations.IllegalWordCompletesWithIllegalCmd
  intro s q rest hn hp hc
  exact (step_of_engineNext hn).trans (State.engineTurn_illegal (s := { s with inbox := rest }) hp hc)

end Sys2Proof.Machine
end

section
/-! The ring commands, forwards: what each answers on a descriptor of the file, the check of its region said once.
PROOFS of O25 to O28 and O32. -/

namespace Sys2Proof.Machine

/-! ### The checks of a region of ring elements -/

/-- Where the region starts (20_memory.md R64, 40_ring.md R101), then its extent (20_memory.md R65). -/
def State.checkRegion (s : State) (k : RingKind) (a : Word) (n : Nat) (res : Result) : Result :=
  if s.elemMisaligned k a then .raise .badAlign a else if s.outside a n then .raise .badAddr a else res

theorem State.elemMisaligned_iff {s : State} {k : RingKind} {a : Word} :
    s.elemMisaligned k a = true ↔ ¬ s.ElemAligned k a := by
  cases k <;> simp [State.elemMisaligned, State.misaligned]

theorem State.outside_iff {s : State} {a : Word} {n : Nat} : s.outside a n = true ↔ ¬ s.InRange a n := by
  simp [State.outside]

section
variable {s : State} {k : RingKind} {a : Word} {n : Nat} {res : Result} {o : Host.Outcome State Fault Refusal}

theorem checkRegion_misaligned (h : o = .next (s.complete (s.checkRegion k a n res))) (hal : ¬ s.ElemAligned k a) :
    o = .next (s.failed .badAlign a) := by
  rw [h, State.checkRegion, if_pos (State.elemMisaligned_iff.2 hal)]
  rfl

theorem checkRegion_outside (h : o = .next (s.complete (s.checkRegion k a n res))) (hal : s.ElemAligned k a)
    (hin : ¬ s.InRange a n) : o = .next (s.failed .badAddr a) := by
  rw [h, State.checkRegion, if_neg (not_not.2 hal ∘ State.elemMisaligned_iff.1), if_pos (State.outside_iff.2 hin)]
  rfl

theorem checkRegion_passed (h : o = .next (s.complete (s.checkRegion k a n res))) (hal : s.ElemAligned k a)
    (hin : s.InRange a n) : o = .next (s.complete res) := by
  rw [h, State.checkRegion, if_neg (not_not.2 hal ∘ State.elemMisaligned_iff.1),
    if_neg (not_not.2 hin ∘ State.outside_iff.1)]

/-- A command that completes OK has passed the checks of its region. -/
theorem eq_complete_of_code_ok {t : State} (h : o = .next (s.complete (s.checkRegion k a n res))) (ht : o = .next t)
    (hok : t.code = .ok) : t = s.complete res := by
  subst h
  cases ht
  unfold State.checkRegion at hok ⊢
  split at hok
  · cases hok
  · split at hok
    · cases hok
    · simp [*]

end

/-! ### Each command, on a descriptor of the file -/

section
variable {s : State} {q : Pending} {r : Fin 16} {g : Ring}

theorem State.perform_withValidRing (hp : s.pending = some q) (hr : s.rings[r.val]? = some g) (hv : g.valid = true)
    (k : Pending → Ring → Result) :
    s.perform (fun q => s.withValidRing q r (k q)) = .next (s.complete (k q g)) := by
  rw [State.perform_pending hp, State.withValidRing_some hr hv]

theorem State.perform_withValidRing_notInit (hp : s.pending = some q) (hr : s.rings[r.val]? = some g)
    (hv : g.valid = false) (k : Pending → Ring → Result) :
    s.perform (fun q => s.withValidRing q r (k q)) = .next (s.failed .notInit (BitVec.ofNat 32 r.val)) := by
  rw [State.perform_pending hp, State.withValidRing, State.withRing_some hr, hv]
  rfl

theorem exec_ringNew_badSize (hp : s.pending = some q) (hr : r.val < s.rings.length) (kind : RingKind)
    (h0 : q.a2 = 0) : exec (.ringNew r kind) s = .next (s.failed .badSize 0) := by
  rw [exec, execRingNew, State.perform_pending hp, ringNewResult,
    State.withRing_some (List.getElem?_eq_getElem hr), if_pos h0]
  rfl

theorem exec_ringNew (hp : s.pending = some q) (hr : r.val < s.rings.length) (kind : RingKind) (h0 : q.a2 ≠ 0) :
    exec (.ringNew r kind) s = .next (s.complete (
      s.checkRegion kind q.a0 (s.elemBytes kind * q.a2.toNat)
        (.done ((s.storeBytes q.a0.toNat (List.replicate (s.elemBytes kind * q.a2.toNat) 0)).setRing r
          ⟨true, kind, q.a0, q.a2, 0⟩)))) := by
  rw [exec, execRingNew, State.perform_pending hp, ringNewResult,
    State.withRing_some (List.getElem?_eq_getElem hr), if_neg h0]
  rfl

section
variable (hp : s.pending = some q) (hr : s.rings[r.val]? = some g) (hv : g.valid = true)
include hp hr hv

theorem exec_ringAt_outOfRange (hi : g.cap.toNat ≤ q.a3.toNat) :
    exec (.ringAt r) s = .next (s.failed .outOfRange q.a3) := by
  rw [exec, execRingAt, State.perform_pending hp, ringAtResult, State.withValidRing_some hr hv, if_pos hi]
  rfl

theorem exec_ringAt (hi : q.a3.toNat < g.cap.toNat) :
    exec (.ringAt r) s = .next (s.complete (s.checkRegion g.kind q.a1 (s.elemBytes g.kind)
      (.done (s.storeBytes q.a1.toNat (s.loadBytes (s.slotAddr g q.a3.toNat) (s.elemBytes g.kind)))))) := by
  rw [exec, execRingAt, State.perform_pending hp, ringAtResult, State.withValidRing_some hr hv,
    if_neg (Nat.not_le_of_lt hi)]
  rfl

theorem exec_ringPush1 :
    exec (.ringPush1 r) s = .next (s.complete (s.checkRegion g.kind q.a0 (s.elemBytes g.kind)
      (.done ((s.storeBytes (g.base.toNat + s.elemBytes g.kind * g.cur.toNat)
        (s.loadBytes q.a0.toNat (s.elemBytes g.kind))).setRing r (g.advance 1))))) :=
  State.perform_withValidRing hp hr hv _

theorem exec_ringPushN :
    exec (.ringPushN r) s = .next (s.complete (
      s.checkRegion g.kind q.a0 (s.elemBytes g.kind * q.a2.toNat)
        (.done ((s.writeSlots g q.a0.toNat (List.range' (q.a2.toNat - g.cap.toNat)
          (q.a2.toNat - (q.a2.toNat - g.cap.toNat))) s).setRing r (g.advance q.a2.toNat))))) :=
  State.perform_withValidRing hp hr hv _

theorem exec_ringRead :
    exec (.ringRead r) s = .next (s.complete (s.checkRegion g.kind q.a1 (s.elemBytes g.kind * g.cap.toNat)
      (.done (s.storeBytes q.a1.toNat (s.logical g).flatten)))) :=
  State.perform_withValidRing hp hr hv _

end
end

theorem State.logical_flatten_length (s : State) (g : Ring) :
    (s.logical g).flatten.length = s.elemBytes g.kind * g.cap.toNat := by
  rw [State.logical, ← List.flatMap_def, flatMap_length_const _ _ fun i => State.loadBytes_length s _ _,
    List.length_range]

/-! ### The statements -/

/-- Settles O25: a length of 0, then the two checks of the backing region, then its zeros and the descriptor. -/
theorem ringNewMakesAZeroedRing : Obligations.RingNewMakesAZeroedRing := by
  unfold Obligations.RingNewMakesAZeroedRing
  intro s q r kind hp hr n
  obtain ⟨hcomplex, hbyte, -⟩ := commandWordsOfTheOpcodeMap
  refine ⟨rfl, rfl, ?word, exec_ringNew_badSize hp hr kind,
    fun h0 => checkRegion_misaligned (exec_ringNew hp hr kind h0),
    fun h0 => checkRegion_outside (exec_ringNew hp hr kind h0), fun h0 hal hin =>
      ⟨_, checkRegion_passed (exec_ringNew hp hr kind h0) hal hin, rfl, fun x => State.loadB_storeBytes s _ x _⟩⟩
  cases kind with
  | complex => exact hcomplex r
  | byte => exact hbyte r

/-- Settles O26: the descriptor is in the file, and is valid or not. -/
theorem ringSizeReturnsTheCapacity : Obligations.RingSizeReturnsTheCapacity := by
  unfold Obligations.RingSizeReturnsTheCapacity
  intro s q r g hp hr
  obtain ⟨-, -, hword, -⟩ := commandWordsOfTheOpcodeMap
  exact ⟨hword r, fun hv => State.perform_withValidRing_notInit hp hr hv _,
    fun hv => State.perform_withValidRing hp hr hv _⟩

/-- Settles O27: the index, then the two checks of the destination, then a store of the element's bytes. -/
theorem ringAtCopiesTheLogicalElement : Obligations.RingAtCopiesTheLogicalElement := by
  unfold Obligations.RingAtCopiesTheLogicalElement
  intro s q r g hp hr es
  obtain ⟨-, -, -, hword, -⟩ := commandWordsOfTheOpcodeMap
  exact ⟨hword r, fun hv => State.perform_withValidRing_notInit hp hr hv _, exec_ringAt_outOfRange hp hr,
    fun hv hi => checkRegion_misaligned (exec_ringAt hp hr hv hi),
    fun hv hi => checkRegion_outside (exec_ringAt hp hr hv hi), fun hv hi hal hin =>
      ⟨_, checkRegion_passed (exec_ringAt hp hr hv hi) hal hin, rfl, fun x => State.loadB_storeBytes s _ x _⟩⟩

/-- Settles O28: the two checks of the source, then a store at the cursor and the descriptor's new cursor. -/
theorem ringPush1WritesAtTheCursor : Obligations.RingPush1WritesAtTheCursor := by
  unfold Obligations.RingPush1WritesAtTheCursor
  intro s q r g hp hr es
  obtain ⟨-, -, -, -, hword, -⟩ := commandWordsOfTheOpcodeMap
  exact ⟨hword r, fun hv => State.perform_withValidRing_notInit hp hr hv _,
    fun hv => checkRegion_misaligned (exec_ringPush1 hp hr hv),
    fun hv => checkRegion_outside (exec_ringPush1 hp hr hv), fun hv hal hin =>
      ⟨_, checkRegion_passed (exec_ringPush1 hp hr hv) hal hin, rfl, fun x => State.loadB_storeBytes s _ x _⟩⟩

/-- Settles O32: the two checks of the destination, then one store of every element, each of `es` bytes. -/
theorem ringReadCopiesTheLogicalSequence : Obligations.RingReadCopiesTheLogicalSequence := by
  unfold Obligations.RingReadCopiesTheLogicalSequence
  intro s q r g hp hr es
  obtain ⟨-, -, -, -, -, -, hword, -⟩ := commandWordsOfTheOpcodeMap
  exact ⟨hword r, fun hv => State.perform_withValidRing_notInit hp hr hv _,
    fun hv => checkRegion_misaligned (exec_ringRead hp hr hv),
    fun hv => checkRegion_outside (exec_ringRead hp hr hv), fun hv hal hin =>
      ⟨s.logical_flatten_length g,
        _, checkRegion_passed (exec_ringRead hp hr hv) hal hin, rfl, fun x => State.loadB_storeBytes s _ x _⟩⟩

end Sys2Proof.Machine
end

section
/-! PROOFS of O29 to O31. The slots of a ring: no two of any `cap` logical elements in a row share a byte, so a run of
at most `cap` writes keeps every one of its elements, and a longer run leaves only its last `cap`. -/

namespace Sys2Proof.Machine

/-! ### The cursor -/

section
variable {g : Ring} (hcur : g.cur.toNat < g.cap.toNat)
include hcur

theorem Ring.advance_cur_toNat (n : Nat) : (g.advance n).cur.toNat = (g.cur.toNat + n) % g.cap.toNat := by
  have hlt : (g.cur.toNat + n) % g.cap.toNat < g.cap.toNat := Nat.mod_lt _ (by omega)
  exact Nat.mod_eq_of_lt (hlt.trans g.cap.isLt)

theorem Ring.advance_cur_lt (n : Nat) : (g.advance n).cur.toNat < (g.advance n).cap.toNat := by
  rw [Ring.advance_cur_toNat hcur]
  exact Nat.mod_lt _ (by omega)

theorem Ring.advance_zero : g.advance 0 = g := by
  rw [Ring.advance, Nat.add_zero, Nat.mod_eq_of_lt hcur, BitVec.ofNat_toNat, BitVec.setWidth_eq]

theorem Ring.advance_advance (m n : Nat) : (g.advance m).advance n = g.advance (m + n) := by
  have h : ((g.advance m).cur.toNat + n) % g.cap.toNat = (g.cur.toNat + (m + n)) % g.cap.toNat := by
    rw [Ring.advance_cur_toNat hcur, Nat.mod_add_mod, Nat.add_assoc]
  exact congrArg (fun c => { g with cur := BitVec.ofNat 32 c }) h

/-- Moving the cursor on by `m` renumbers the slots. -/
theorem State.slotAddr_advance (s : State) (m i : Nat) : s.slotAddr (g.advance m) i = s.slotAddr g (m + i) := by
  have h : ((g.advance m).cur.toNat + i) % g.cap.toNat = (g.cur.toNat + (m + i)) % g.cap.toNat := by
    rw [Ring.advance_cur_toNat hcur, Nat.mod_add_mod, Nat.add_assoc]
  exact congrArg (fun c => g.base.toNat + s.elemBytes g.kind * c) h

theorem State.slotAddr_zero (s : State) : s.slotAddr g 0 = g.base.toNat + s.elemBytes g.kind * g.cur.toNat := by
  rw [State.slotAddr, Nat.add_zero, Nat.mod_eq_of_lt hcur]

end

/-! ### The slots -/

/-- Fewer than `cap` steps from a slot never come back to it. -/
theorem add_mod_ne {c k k' C : Nat} (h : k < k') (h' : k' < k + C) : (c + k) % C ≠ (c + k') % C := by
  intro e
  have hmod : k ≡ k' [MOD C] := Nat.ModEq.add_left_cancel' c e
  have hle := Nat.le_of_dvd (by omega) ((Nat.modEq_iff_dvd' h.le).1 hmod)
  omega

theorem State.slotAddr_disjoint (s : State) (g : Ring) {k k' : Nat} (h : k < k') (h' : k' < k + g.cap.toNat) :
    s.slotAddr g k + s.elemBytes g.kind ≤ s.slotAddr g k' ∨
      s.slotAddr g k' + s.elemBytes g.kind ≤ s.slotAddr g k := by
  unfold State.slotAddr
  rcases Nat.lt_or_gt_of_ne (add_mod_ne (c := g.cur.toNat) h h') with hlt | hlt
  · exact .inl (slot_in_region hlt le_rfl)
  · exact .inr (slot_in_region hlt le_rfl)

/-- Any `cap` slots in a row are all the slots: an earlier one is one of the last. -/
theorem State.exists_last_slotAddr (s : State) (g : Ring) {k n : Nat} (hcap : 0 < g.cap.toNat)
    (hk : k < n - g.cap.toNat) :
    ∃ k' ∈ List.range' (n - g.cap.toNat) (n - (n - g.cap.toNat)), s.slotAddr g k' = s.slotAddr g k := by
  have hlt := Nat.mod_lt (n - 1 - k) hcap
  have hdiv := Nat.mod_add_div (n - 1 - k) g.cap.toNat
  refine ⟨k + g.cap.toNat * ((n - 1 - k) / g.cap.toNat), by rw [List.mem_range'_1]; omega, ?_⟩
  rw [State.slotAddr, ← Nat.add_assoc, Nat.add_mul_mod_self_left]
  rfl

/-! ### What a run of slot writes does to every byte -/

theorem State.loadB_storeBytes_loadBytes (s old : State) (a b : Nat) {n j : Nat} (hj : j < n) :
    (s.storeBytes a (old.loadBytes b n)).loadB (a + j) = old.loadB (b + j) := by
  simp [State.loadB_storeBytes, State.loadBytes, hj]

theorem State.loadBytes_storeBytes_disjoint (s : State) {a b n : Nat} {bs : List Byte}
    (h : b + n ≤ a ∨ a + bs.length ≤ b) : (s.storeBytes a bs).loadBytes b n = s.loadBytes b n :=
  List.map_congr_left fun j hj => by
    have := List.mem_range.1 hj
    exact State.loadB_storeBytes_outside s (by omega)

section
variable (old : State) (g : Ring) (src : Nat)

theorem State.writeSlots_append (ks ks' : List Nat) (s : State) :
    old.writeSlots g src (ks ++ ks') s = old.writeSlots g src ks' (old.writeSlots g src ks s) := by
  induction ks generalizing s with
  | nil => rfl
  | cons k ks ih => exact ih _

theorem State.loadB_writeSlots_outside (ks : List Nat) (s : State) {x : Nat}
    (hx : ∀ k ∈ ks, ∀ j < old.elemBytes g.kind, x ≠ old.slotAddr g k + j) :
    (old.writeSlots g src ks s).loadB x = s.loadB x := by
  induction ks generalizing s with
  | nil => rfl
  | cons k ks ih =>
    rw [State.writeSlots, ih _ fun k' hk' => hx k' (List.mem_cons_of_mem _ hk')]
    refine State.loadB_storeBytes_outside s ?_
    rw [State.loadBytes_length]
    by_contra hin
    exact hx k List.mem_cons_self (x - old.slotAddr g k) (by omega) (by omega)

/-- A run of at most `cap` writes keeps each of its elements. -/
theorem State.loadB_writeSlots_slot {first n : Nat} (hn : n ≤ g.cap.toNat) (s : State) {k j : Nat}
    (hk : k ∈ List.range' first n) (hj : j < old.elemBytes g.kind) :
    (old.writeSlots g src (List.range' first n) s).loadB (old.slotAddr g k + j) =
      old.loadB (src + old.elemBytes g.kind * k + j) := by
  induction n generalizing first s with
  | zero => cases hk
  | succ n ih =>
    rw [List.range'_succ] at hk ⊢
    rcases List.mem_cons.1 hk with rfl | hk
    · rw [State.writeSlots, State.loadB_writeSlots_outside, State.loadB_storeBytes_loadBytes _ _ _ _ hj]
      intro k' hk' j' hj'
      have hmem := List.mem_range'_1.1 hk'
      have := old.slotAddr_disjoint g (k := k) (k' := k') (by omega) (by omega)
      omega
    · exact ih (by omega) _ hk

/-- Writes whose every slot a later run of at most `cap` writes again leave no trace. -/
theorem State.loadB_writeSlots_overwritten {first n : Nat} (hn : n ≤ g.cap.toNat) (ks : List Nat) (s : State)
    (hks : ∀ k ∈ ks, ∃ k' ∈ List.range' first n, old.slotAddr g k' = old.slotAddr g k) (x : Nat) :
    (old.writeSlots g src (ks ++ List.range' first n) s).loadB x =
      (old.writeSlots g src (List.range' first n) s).loadB x := by
  rw [State.writeSlots_append]
  by_cases hx : ∃ k ∈ List.range' first n, ∃ j < old.elemBytes g.kind, x = old.slotAddr g k + j
  · obtain ⟨k, hk, j, hj, rfl⟩ := hx
    rw [State.loadB_writeSlots_slot old g src hn _ hk hj, State.loadB_writeSlots_slot old g src hn _ hk hj]
  · push Not at hx
    rw [State.loadB_writeSlots_outside old g src _ _ hx, State.loadB_writeSlots_outside old g src _ s hx]
    refine State.loadB_writeSlots_outside old g src ks s fun k hk j hj => ?_
    obtain ⟨k', hk', heq⟩ := hks k hk
    exact heq ▸ hx k' hk' j hj

end

/-- Settles O29: the two checks of the source, then a run of at most `cap` slot writes. -/
theorem ringPushNKeepsTheLastElements : Obligations.RingPushNKeepsTheLastElements := by
  unfold Obligations.RingPushNKeepsTheLastElements
  intro s q r g hp hr es len slot
  obtain ⟨-, -, -, -, -, hword, -⟩ := commandWordsOfTheOpcodeMap
  refine ⟨hword r, fun hv => State.perform_withValidRing_notInit hp hr hv _,
    fun hv => checkRegion_misaligned (exec_ringPushN hp hr hv),
    fun hv => checkRegion_outside (exec_ringPushN hp hr hv), fun hv hal hin =>
      ⟨_, checkRegion_passed (exec_ringPushN hp hr hv) hal hin, ?frame, fun k j hfirst hk hj => ?kept,
        fun x hx => ?others⟩⟩
  case frame =>
    rw [State.writeSlots_same]
    rfl
  case kept =>
    exact State.loadB_writeSlots_slot s g q.a0.toNat (by omega) s (List.mem_range'_1.2 (by omega)) hj
  case others =>
    refine State.loadB_writeSlots_outside s g q.a0.toNat _ s fun k hk j hj => ?_
    have hmem := List.mem_range'_1.1 hk
    exact hx k j hmem.1 (by omega) hj

/-! ### Pushing one by one -/

theorem pushOne_some {r : Fin 16} {s : State} {g : Ring} (hr : s.rings[r.val]? = some g) (v : List Byte) :
    pushOne r s v =
      (s.storeBytes (g.base.toNat + s.elemBytes g.kind * g.cur.toNat) v).setRing r (g.advance 1) := by
  rw [pushOne, hr]
  rfl

theorem State.setRing_getElem? {s : State} {r : Fin 16} (g : Ring) (hr : r.val < s.rings.length) :
    (s.setRing r g).rings[r.val]? = some g :=
  List.getElem?_set_self hr

theorem State.setRing_self {s : State} {r : Fin 16} {g : Ring} (hr : s.rings[r.val]? = some g) :
    s.setRing r g = s := by
  obtain ⟨hlt, rfl⟩ := List.getElem?_eq_some_iff.1 hr
  rw [State.setRing, List.set_getElem_self]

theorem State.setRing_setRing (s : State) (r : Fin 16) (g g' : Ring) : (s.setRing r g).setRing r g' = s.setRing r g' :=
  congrArg (fun l => { s with rings := l }) (List.set_set g)

theorem pushOne_setRing_advance {s : State} {r : Fin 16} {g : Ring} (hr : r.val < s.rings.length)
    (hcur : g.cur.toNat < g.cap.toNat) (n : Nat) (v : List Byte) :
    pushOne r (s.setRing r (g.advance n)) v = (s.storeBytes (s.slotAddr g n) v).setRing r (g.advance (n + 1)) := by
  rw [pushOne_some (State.setRing_getElem? _ hr), Ring.advance_advance hcur, Ring.advance_cur_toNat hcur]
  exact State.setRing_setRing (s.storeBytes (s.slotAddr g n) v) r _ _

/-- Pushing the elements of a range one by one is a run of slot writes, and moves the cursor on once for each. -/
theorem foldl_pushOne_elements {s : State} {r : Fin 16} {g : Ring} (hr : s.rings[r.val]? = some g)
    (hcur : g.cur.toNat < g.cap.toNat) (src n : Nat) :
    (s.elements g.kind src n).foldl (pushOne r) s =
      (s.writeSlots g src (List.range n) s).setRing r (g.advance n) := by
  induction n with
  | zero => rw [Ring.advance_zero hcur]; exact (State.setRing_self hr).symm
  | succ n ih =>
    have hlt : r.val < (s.writeSlots g src (List.range n) s).rings.length := by
      rw [State.writeSlots_same]
      exact (List.getElem?_eq_some_iff.1 hr).1
    have hslot : (s.writeSlots g src (List.range n) s).slotAddr g n = s.slotAddr g n := by
      rw [State.writeSlots_same]
      rfl
    rw [State.elements] at ih ⊢
    rw [List.range_succ, List.map_append, List.foldl_append, ih, List.map_singleton, List.foldl_cons, List.foldl_nil,
      pushOne_setRing_advance hlt hcur, hslot, State.writeSlots_append]
    rfl

theorem range_eq_append_range' {m n : Nat} (h : m ≤ n) :
    List.range n = List.range m ++ List.range' m (n - m) := by
  have happend := @List.range'_append_1 0 m (n - m)
  rwa [Nat.zero_add, Nat.add_sub_of_le h, ← List.range_eq_range', ← List.range_eq_range', eq_comm] at happend

/-- Settles O30: of the writes one by one, those before the last `cap` are written over. -/
theorem ringPushNEqualsPushingOneByOne : Obligations.RingPushNEqualsPushingOneByOne := by
  unfold Obligations.RingPushNEqualsPushingOneByOne
  intro s t q r g hp hr hv hcur ht hok u
  have hu : u = _ := foldl_pushOne_elements hr hcur q.a0.toNat q.a2.toNat
  rw [hu, eq_complete_of_code_ok (exec_ringPushN hp hr hv) ht hok,
    range_eq_append_range' (Nat.sub_le q.a2.toNat g.cap.toNat)]
  constructor
  · rw [State.writeSlots_same, State.writeSlots_same s g _ (_ ++ _)]
    rfl
  · intro x
    refine (State.loadB_writeSlots_overwritten s g q.a0.toNat (by omega) _ s (fun k hk => ?_) x).symm
    exact s.exists_last_slotAddr g (by omega) (by simpa using hk)

/-! ### The logical sequence -/

theorem State.logical_congr {s t : State} (hb : t.build = s.build) (hl : ∀ x, t.loadB x = s.loadB x) (g : Ring) :
    t.logical g = s.logical g := by
  simp only [State.logical, State.loadBytes, State.elemBytes, State.w, hb, hl]

/-- A push drops the oldest element and appends the new one. -/
theorem State.logical_pushOne {s : State} {r : Fin 16} {g : Ring} (hr : s.rings[r.val]? = some g)
    (hcur : g.cur.toNat < g.cap.toNat) {v : List Byte} (hv : v.length = s.elemBytes g.kind) :
    (pushOne r s v).logical (g.advance 1) = (s.logical g ++ [v]).drop 1 := by
  have hnext : (pushOne r s v).logical (g.advance 1) = (List.range g.cap.toNat).map fun i =>
      (s.storeBytes (s.slotAddr g 0) v).loadBytes (s.slotAddr g (i + 1)) (s.elemBytes g.kind) := by
    rw [pushOne_some hr, ← State.slotAddr_zero hcur]
    refine List.map_congr_left fun i _ => ?_
    rw [Nat.add_comm i, ← State.slotAddr_advance hcur]
    rfl
  have hkept (i : Nat) (hi : i + 1 < g.cap.toNat) :
      (s.storeBytes (s.slotAddr g 0) v).loadBytes (s.slotAddr g (i + 1)) (s.elemBytes g.kind) =
        s.loadBytes (s.slotAddr g (i + 1)) (s.elemBytes g.kind) := by
    have hdisj := s.slotAddr_disjoint g (Nat.zero_lt_succ i) (by omega)
    exact State.loadBytes_storeBytes_disjoint s (hv ▸ hdisj.symm)
  have hnew : (s.storeBytes (s.slotAddr g 0) v).loadBytes (s.slotAddr g g.cap.toNat) (s.elemBytes g.kind) = v := by
    have hsame : s.slotAddr g g.cap.toNat = s.slotAddr g 0 := by simp [State.slotAddr]
    rw [hsame, ← hv, State.loadBytes_storeBytes]
  obtain ⟨m, hm⟩ := Nat.exists_eq_add_one_of_ne_zero (Nat.ne_zero_of_lt hcur)
  have hold : s.logical g = s.loadBytes (s.slotAddr g 0) (s.elemBytes g.kind) ::
      (List.range m).map fun i => s.loadBytes (s.slotAddr g (i + 1)) (s.elemBytes g.kind) := by
    change (List.range g.cap.toNat).map (fun i => s.loadBytes (s.slotAddr g i) (s.elemBytes g.kind)) = _
    rw [hm, List.range_succ_eq_map, List.map_cons, List.map_map]
    rfl
  rw [hnext, hold, List.cons_append, List.drop_one, List.tail_cons, hm, List.range_succ, List.map_append,
    List.map_singleton, ← hm, hnew]
  refine congrArg (· ++ [v]) (List.map_congr_left fun i hi => hkept i ?_)
  have := List.mem_range.1 hi
  omega

theorem exists_logical_foldl_pushOne {s : State} {r : Fin 16} {g : Ring} (hr : s.rings[r.val]? = some g)
    (hcur : g.cur.toNat < g.cap.toNat) (vs : List (List Byte)) (hvs : ∀ v ∈ vs, v.length = s.elemBytes g.kind) :
    ∃ g', (vs.foldl (pushOne r) s).rings[r.val]? = some g' ∧
      (vs.foldl (pushOne r) s).logical g' = (s.logical g ++ vs).drop vs.length := by
  induction vs generalizing s g with
  | nil => exact ⟨g, hr, by simp⟩
  | cons v vs ih =>
    have hpush := pushOne_some hr v
    have hring : (pushOne r s v).rings[r.val]? = some (g.advance 1) := by
      rw [hpush]
      exact State.setRing_getElem? _ (List.getElem?_eq_some_iff.1 hr).1
    obtain ⟨g', hg', hlog⟩ := ih hring (Ring.advance_cur_lt hcur 1) fun w hw => by
      rw [hvs w (List.mem_cons_of_mem _ hw), hpush]
      rfl
    refine ⟨g', hg', hlog.trans ?_⟩
    rw [State.logical_pushOne hr hcur (hvs v List.mem_cons_self), ← List.drop_append_of_le_length (by simp),
      List.drop_drop, List.append_assoc, List.length_cons, Nat.add_comm]
    rfl

theorem State.loadBytes_storeBytes_replicate (s : State) (a : Nat) {k m n : Nat} (b : Byte) (h : k + m ≤ n) :
    (s.storeBytes a (List.replicate n b)).loadBytes (a + k) m = List.replicate m b := by
  refine List.eq_replicate_iff.2 ⟨State.loadBytes_length .., fun x hx => ?_⟩
  obtain ⟨j, hj, rfl⟩ := List.mem_map.1 hx
  have hlt : k + j < n := by have := List.mem_range.1 hj; omega
  simp [State.loadB_storeBytes, Nat.add_assoc, hlt]

/-- A ring over a region of zeros, its cursor at 0, holds default elements only (40_ring.md R109). -/
theorem State.logical_storeBytes_zeros (s : State) (kind : RingKind) (a c : Word) :
    (s.storeBytes a.toNat (List.replicate (s.elemBytes kind * c.toNat) 0)).logical ⟨true, kind, a, c, 0⟩ =
      List.replicate c.toNat (List.replicate (s.elemBytes kind) 0) := by
  refine List.eq_replicate_iff.2 ⟨by simp [State.logical], fun e he => ?_⟩
  obtain ⟨i, hi, rfl⟩ := List.mem_map.1 he
  have hpos := Nat.zero_lt_of_lt (List.mem_range.1 hi)
  exact State.loadBytes_storeBytes_replicate s _ 0
    (Nat.mul_le_mul_left (s.elemBytes kind) (Nat.mod_lt (0 + i) hpos))

/-- Settles O31: a new ring reads back its zeros; a push is one `pushOne`, a push of a range one for each element. -/
theorem ringHoldsTheLastPushedElements : Obligations.RingHoldsTheLastPushedElements := by
  unfold Obligations.RingHoldsTheLastPushedElements
  refine ⟨fun s t q r kind hp hr ht hok => ?new, fun s t q r g hp hr hv hcur =>
    ⟨fun ht hok => ?push1, fun ht hok => ?pushN⟩⟩
  case new =>
    have h0 : q.a2 ≠ 0 := by
      intro h0
      rw [exec_ringNew_badSize hp hr kind h0] at ht
      cases ht
      cases hok
    rw [eq_complete_of_code_ok (exec_ringNew hp hr kind h0) ht hok]
    exact ⟨_, State.setRing_getElem? _ hr, State.logical_storeBytes_zeros s kind q.a0 q.a2⟩
  case push1 =>
    have hlen : (s.loadBytes q.a0.toNat (s.elemBytes g.kind)).length = s.elemBytes g.kind :=
      State.loadBytes_length ..
    rw [eq_complete_of_code_ok (exec_ringPush1 hp hr hv) ht hok, ← pushOne_some hr]
    refine ⟨g.advance 1, ?_, State.logical_pushOne hr hcur hlen⟩
    rw [pushOne_some hr]
    exact State.setRing_getElem? _ (List.getElem?_eq_some_iff.1 hr).1
  case pushN =>
    obtain ⟨hrings, hbytes⟩ := ringPushNEqualsPushingOneByOne s t q r g hp hr hv hcur ht hok
    obtain ⟨g', hg', hlog⟩ := exists_logical_foldl_pushOne hr hcur (s.elements g.kind q.a0.toNat q.a2.toNat)
      (by simp [State.elements])
    have hbuild : t.build = ((s.elements g.kind q.a0.toNat q.a2.toNat).foldl (pushOne r) s).build := by
      rw [foldl_pushOne_elements hr hcur, eq_complete_of_code_ok (exec_ringPushN hp hr hv) ht hok, State.complete_done]
      simp
    refine ⟨g', hrings ▸ hg', ?_⟩
    rw [State.logical_congr hbuild hbytes, hlog]
    simp [State.elements]

end Sys2Proof.Machine
end

section
/-! PROOFS of O33 and O34: both commands run one body, which takes the direction of the transform. -/

namespace Sys2Proof.Machine

theorem not_isPow2_iff {n : Nat} : (!isPow2 n) = true ↔ ¬ IsPow2 n := by
  rw [IsPow2, ← isPow2_iff, Bool.not_eq_true', Bool.not_eq_true]

section
variable {s : State} {q : Pending}

theorem transform_badSize (hp : s.pending = some q) (inverse : Bool) (hn : ¬ IsPow2 q.a2.toNat) :
    s.perform (transformResult s inverse) = .next (s.failed .badSize q.a2) := by
  rw [State.perform_pending hp, transformResult, if_pos (not_isPow2_iff.2 hn)]
  rfl

/-- The size passed, what is left is the check of a region of complex samples and one store. -/
theorem transform_checksRegion (hp : s.pending = some q) (inverse : Bool) (hn : IsPow2 q.a2.toNat) :
    let out := s.drawing (fftCore s.build inverse (s.loadCs q.a0.toNat q.a2.toNat))
    s.perform (transformResult s inverse) = .next (s.complete (
      s.checkRegion .complex q.a0 (2 * s.w * q.a2.toNat) (.done (out.2.storeCs q.a0.toNat out.1)))) := by
  rw [State.perform_pending hp, transformResult, if_neg (not_not.2 hn ∘ not_isPow2_iff.1)]
  rfl

/-- The checks of a transform and its effect, for the command `i` that runs it (41_fft.md R139, R140). -/
theorem transform_transformsItsRegion {i : Instr} {inverse : Bool}
    (hi : exec i s = s.perform (transformResult s inverse)) (hp : s.pending = some q) :
    let n := q.a2.toNat
    let out := fftCore s.build inverse (s.loadCs q.a0.toNat n) s.draws
    (¬ IsPow2 n → exec i s = .next (s.failed .badSize q.a2)) ∧
    (IsPow2 n → ¬ s.Aligned q.a0 → exec i s = .next (s.failed .badAlign q.a0)) ∧
    (IsPow2 n → s.Aligned q.a0 → ¬ s.InRange q.a0 (2 * s.w * n) → exec i s = .next (s.failed .badAddr q.a0)) ∧
    (IsPow2 n → s.Aligned q.a0 → s.InRange q.a0 (2 * s.w * n) →
      out.1.length = n ∧
      CompletesWith i s { s with draws := out.2 } q.a0.toNat (out.1.flatMap (cBytes s.prec))) := by
  intro n out
  have hrun (hn : IsPow2 n) := hi.trans (transform_checksRegion hp inverse hn)
  refine ⟨fun hn => hi.trans (transform_badSize hp inverse hn),
    fun hn hal => checkRegion_misaligned (hrun hn) fun h => hal (h rfl),
    fun hn hal => checkRegion_outside (hrun hn) fun _ => hal, fun hn hal hin => ⟨?length, ?stored⟩⟩
  case length => exact fftCore_loadCs_length inverse _ (not_not.2 hn ∘ not_isPow2_iff.1) _
  case stored =>
    exact ⟨_, checkRegion_passed (hrun hn) (fun _ => hal) hin, rfl, fun x => State.loadB_storeBytes s _ x _⟩

end

/-- Settles O33: FFT runs the forward transform. -/
theorem fftTransformsItsRegion : Obligations.FftTransformsItsRegion := by
  unfold Obligations.FftTransformsItsRegion
  exact fun s q hp => ⟨by decide, transform_transformsItsRegion rfl hp⟩

/-- Settles O34: IFFT runs the inverse one. -/
theorem ifftTransformsItsRegion : Obligations.IfftTransformsItsRegion := by
  unfold Obligations.IfftTransformsItsRegion
  exact fun s q hp => ⟨by decide, transform_transformsItsRegion rfl hp⟩

end Sys2Proof.Machine
end

section
/-! PROOF of O37: the quotient by 1 is a whole number of quanta, so its rounding is exact. -/

namespace Sys2Proof.Machine

/-- A whole number of quanta that a magnitude has rounds to that magnitude. -/
theorem roundMag_units_mul (p : Precision) (m : Nat) {den : Nat} (hden : 0 < den) :
    roundMag p (units p m * den) den = m := by
  obtain ⟨hle, -⟩ := roundMag_isNearest p (units p m * den) hden m
  have hx : ((units p m * den : Nat) : ℝ) / den = units p m := by
    rw [Nat.cast_mul, mul_div_cancel_right₀ _ (Nat.cast_ne_zero.2 hden.ne')]
  rw [hx, sub_self, abs_zero, abs_nonpos_iff, sub_eq_zero, Nat.cast_inj] at hle
  exact (units_strictMono p).injective hle

/-- The magnitude of the encoding of 1: the exponent field is the bias, the fraction 0. -/
def oneMag (p : Precision) : Nat := (p.scale - p.fracBits) * 2 ^ p.fracBits + 2 ^ p.fracBits

theorem units_oneMag (p : Precision) : units p (oneMag p) = 2 ^ p.scale := by
  have hscale : p.fracBits ≤ p.scale := by cases p <;> decide
  rw [oneMag, units_shift p (Nat.pow_le_pow_right two_pos (Nat.le_succ _)) (.inr le_rfl), ← pow_add,
    Nat.add_sub_cancel' hscale]

theorem oneMag_finite (p : Precision) : FiniteMag p (oneMag p) := by
  have hexp : p.scale - p.fracBits + 1 < infExp p := by cases p <;> decide
  rw [FiniteMag, infMag_eq, oneMag, ← Nat.succ_mul]
  exact Nat.mul_lt_mul_of_pos_right hexp (by positivity)

theorem ofInt_one (p : Precision) : ofInt p 1 = .fin false (oneMag p) := by
  have hmag : roundMag p (1 * 2 ^ p.scale) 1 = oneMag p := by
    simpa [units_oneMag] using roundMag_units_mul p (oneMag p) one_pos
  rw [ofInt, Int.natAbs_one, hmag, finish, if_pos (oneMag_finite p)]
  rfl

/-- Division by 1 keeps a finite value, the sign of a zero included. -/
theorem divFp_one (p : Precision) (neg : Bool) {m : Nat} (hm : FiniteMag p m) :
    divFp p (.fin neg m) (ofInt p 1) = some (.fin neg m) := by
  have hunits : units p (oneMag p) ≠ 0 := by rw [units_oneMag]; positivity
  rw [ofInt_one, divFp_fin p _ _ _ (mt units_eq_zero.2 hunits), units_oneMag,
    roundMag_units_mul p m (by positivity), finish, if_pos hm, Bool.xor_false]

theorem cscaleDiv_one (p : Precision) (a c : Bool) {x y : Nat} (hx : FiniteMag p x) (hy : FiniteMag p y) (n : Nat) :
    cscaleDiv p ⟨.fin a x, .fin c y⟩ (ofInt p 1) n = (⟨.fin a x, .fin c y⟩, n) := by
  simp only [cscaleDiv, fdiv, divFp_one p _ hx, divFp_one p _ hy, Draw.bind_run, Draw.pure_run, settle_some]

theorem stages_singleton (b : Build) (inverse : Bool) (z : Cx) :
    stages b inverse (Nat.log2 [z].length) 1 (bitrev [z]) = pure [z] := rfl

/-- Settles O37: one sample is its own bit reversal and has no stage; the inverse divides it by 1. -/
theorem transformOfOneSampleIsIdentity : Obligations.TransformOfOneSampleIsIdentity := by
  unfold Obligations.TransformOfOneSampleIsIdentity
  intro b z n
  refine ⟨?forward, ?inverse⟩
  case forward => rw [fftCore, stages_singleton]; rfl
  case inverse =>
    rintro rn rm jn jm rfl hr hj
    rw [fftCore, stages_singleton, pure_bind, if_pos rfl, Draw.each_cons]
    simp only [List.length_singleton, Nat.cast_one, cscaleDiv_one _ _ _ hr hj, Draw.each_nil]

end Sys2Proof.Machine
end

section
/-! PROOF of O35: the loop keeps `j = rev(i)`, and by index `t` it has put every index up to `t` and its partner in
place. -/

namespace Sys2Proof.Machine

/-! ### Reversed indexes -/

theorem revBits_lt (k i : Nat) : revBits k i < 2 ^ k := by
  induction k generalizing i with
  | zero => simp [revBits]
  | succ k ih =>
    have hbit : i % 2 * 2 ^ k ≤ 1 * 2 ^ k := Nat.mul_le_mul_right _ (by omega)
    have := ih (i / 2)
    rw [revBits, pow_succ]
    omega

theorem testBit_revBits (k i j : Nat) : (revBits k i).testBit j = (decide (j < k) && i.testBit (k - 1 - j)) := by
  induction k generalizing i with
  | zero => simp [revBits]
  | succ k ih =>
    rw [revBits, mul_comm, Nat.testBit_two_pow_mul_add _ (revBits_lt k _), ih]
    rcases lt_trichotomy j k with h | rfl | h
    · have hj : k + 1 - 1 - j = k - 1 - j + 1 := by omega
      rw [if_pos h, hj, Nat.testBit_succ, decide_eq_true h, decide_eq_true (by omega)]
    · simp [Nat.testBit_zero]
    · have hj : j - k ≠ 0 := by omega
      have hlt : i % 2 < 2 ^ (j - k) := (Nat.mod_lt _ two_pos).trans_le (Nat.le_self_pow hj 2)
      rw [if_neg (by omega), Nat.testBit_lt_two_pow hlt, decide_eq_false (by omega), Bool.false_and]

theorem revBits_revBits {k i : Nat} (hi : i < 2 ^ k) : revBits k (revBits k i) = i := by
  refine Nat.eq_of_testBit_eq fun j => ?_
  rw [testBit_revBits, testBit_revBits]
  by_cases hj : j < k
  · rw [decide_eq_true hj, decide_eq_true (by omega), Bool.true_and, Bool.true_and]
    congr 1
    omega
  · have : i < 2 ^ j := hi.trans_le (Nat.pow_le_pow_right two_pos (by omega))
    rw [decide_eq_false hj, Nat.testBit_lt_two_pow this, Bool.false_and]

@[simp] theorem revBits_zero (k : Nat) : revBits k 0 = 0 :=
  Nat.eq_of_testBit_eq fun j => by rw [testBit_revBits, Nat.zero_testBit, Nat.zero_testBit, Bool.and_false]

/-! ### The carry from the top bit down -/

theorem two_pow_add_eq_xor {n r : Nat} (hr : r < 2 ^ n) : 2 ^ n + r = r ^^^ 2 ^ n := by
  refine Nat.eq_of_testBit_eq fun j => ?_
  rw [Nat.testBit_xor, Nat.testBit_two_pow]
  rcases lt_trichotomy j n with h | rfl | h
  · rw [Nat.testBit_two_pow_add_gt h, decide_eq_false (by omega), Bool.xor_false]
  · rw [Nat.testBit_two_pow_add_eq, decide_eq_true rfl, Bool.xor_true]
  · have hle : 2 ^ n * 2 ≤ 2 ^ j := Nat.pow_le_pow_right two_pos h
    rw [Nat.testBit_lt_two_pow (by omega), Nat.testBit_lt_two_pow (by omega), decide_eq_false (by omega),
      Bool.xor_false]

theorem revBits_succ_of_even {i : Nat} (k : Nat) (hi : i % 2 = 0) : revBits (k + 1) i = revBits k (i / 2) := by
  rw [revBits, hi, zero_mul, zero_add]

theorem revBits_succ_of_odd {i : Nat} (k : Nat) (hi : i % 2 = 1) :
    revBits (k + 1) i = revBits k (i / 2) ^^^ 2 ^ k := by
  rw [revBits, hi, one_mul, two_pow_add_eq_xor (revBits_lt k _)]

theorem bitrevCarry_set {f j k : Nat} (h : j.testBit k = true) :
    bitrevCarry (f + 1) j (2 ^ k) = bitrevCarry f (j ^^^ 2 ^ k) (2 ^ k / 2) := by
  have hand : j &&& 2 ^ k ≠ 0 := by rw [Nat.and_two_pow, h]; simp
  rw [bitrevCarry, if_pos hand]

theorem bitrevCarry_clear {f j k : Nat} (h : j.testBit k = false) : bitrevCarry (f + 1) j (2 ^ k) = j ^^^ 2 ^ k := by
  have hand : ¬ j &&& 2 ^ k ≠ 0 := by rw [Nat.and_two_pow, h]; simp
  rw [bitrevCarry, if_neg hand]

/-- Adding 1 from the top bit down: the reversed index of `i` becomes that of `i + 1`. -/
theorem bitrevCarry_revBits {k f i : Nat} (hf : k < f) (hi : i + 1 < 2 ^ k) :
    bitrevCarry f (revBits k i) (2 ^ k / 2) = revBits k (i + 1) := by
  induction k generalizing f i with
  | zero => omega
  | succ k ih =>
    obtain ⟨f, rfl⟩ : ∃ g, f = g + 1 := ⟨f - 1, by omega⟩
    have hhalf : 2 ^ (k + 1) / 2 = 2 ^ k := by rw [pow_succ, Nat.mul_div_cancel _ two_pos]
    have htop : (revBits k (i / 2)).testBit k = false := Nat.testBit_lt_two_pow (revBits_lt k _)
    rw [hhalf]
    rcases Nat.mod_two_eq_zero_or_one i with he | ho
    · have hsame : (i + 1) / 2 = i / 2 := by omega
      rw [revBits_succ_of_even k he, bitrevCarry_clear htop, revBits_succ_of_odd k (by omega), hsame]
    · have hnext : (i + 1) / 2 = i / 2 + 1 := by omega
      rw [revBits_succ_of_odd k ho, bitrevCarry_set (by simp [htop]), Nat.xor_xor_cancel_right,
        ih (by omega) (by omega), revBits_succ_of_even k (by omega), hnext]

/-! ### The swaps -/

/-- Where element `x` comes from when the loop has done the indexes below `t`: each of these and its partner are in
place. -/
def sourceBelow (k t x : Nat) : Nat := if x < t ∨ revBits k x < t then revBits k x else x

theorem sourceBelow_of_ne {k t x : Nat} (hx : x < 2 ^ k) (ht : x ≠ t) (hr : x ≠ revBits k t) :
    sourceBelow k (t + 1) x = sourceBelow k t x := by
  have hrx : revBits k x ≠ t := fun h => hr (by rw [← h, revBits_revBits hx])
  have hiff : x < t + 1 ∨ revBits k x < t + 1 ↔ x < t ∨ revBits k x < t := by omega
  rw [sourceBelow, sourceBelow, if_congr hiff rfl rfl]

theorem sourceBelow_done {k t x : Nat} (hx : x < t ∨ revBits k x < t ∨ revBits k x = x) :
    sourceBelow k t x = revBits k x := by
  unfold sourceBelow
  split_ifs <;> omega

theorem sourceBelow_ahead {k t x : Nat} (hx : t ≤ x) (hr : t ≤ revBits k x) : sourceBelow k t x = x := if_neg (by omega)

/-- The buffer when the loop has done the indexes below `t`. -/
def reversedBelow (k t : Nat) (buf : List Cx) : List Cx :=
  (List.range buf.length).map fun x => buf.getD (sourceBelow k t x) Cx.zero

theorem ext_getD {l l' : List Cx} (hl : l.length = l'.length)
    (h : ∀ x < l.length, l.getD x Cx.zero = l'.getD x Cx.zero) : l = l' :=
  List.ext_getElem hl fun x hx hx' => by
    simpa only [List.getD_eq_getElem _ _ hx, List.getD_eq_getElem _ _ hx'] using h x hx

section
variable {k : Nat} {buf : List Cx}

@[simp] theorem swapAt_length (buf : List Cx) (i j : Nat) : (swapAt buf i j).length = buf.length := by simp [swapAt]

@[simp] theorem reversedBelow_length (k t : Nat) (buf : List Cx) : (reversedBelow k t buf).length = buf.length := by
  simp [reversedBelow]

theorem getD_set {l : List Cx} {i : Nat} (hi : i < l.length) (v : Cx) (x : Nat) :
    (l.set i v).getD x Cx.zero = if x = i then v else l.getD x Cx.zero := by
  rw [List.getD_eq_getElem?_getD, List.getElem?_set, if_pos hi, List.getD_eq_getElem?_getD]
  by_cases h : x = i
  · rw [if_pos h, if_pos h.symm, Option.getD_some]
  · rw [if_neg h, if_neg (Ne.symm h)]

theorem getD_swapAt {i j : Nat} (hi : i < buf.length) (hj : j < buf.length) (x : Nat) :
    (swapAt buf i j).getD x Cx.zero =
      if x = j then buf.getD i Cx.zero else if x = i then buf.getD j Cx.zero else buf.getD x Cx.zero := by
  rw [swapAt, getD_set (by simpa using hj), getD_set hi]

theorem getD_reversedBelow (t : Nat) {x : Nat} (hx : x < buf.length) :
    (reversedBelow k t buf).getD x Cx.zero = buf.getD (sourceBelow k t x) Cx.zero := by
  simp [reversedBelow, hx]

/-- Index 0 is its own partner, so at the start nothing has moved. -/
theorem reversedBelow_one (hlen : buf.length = 2 ^ k) : reversedBelow k 1 buf = buf := by
  refine ext_getD (reversedBelow_length ..) fun x hx => ?_
  rw [reversedBelow_length] at hx
  rw [getD_reversedBelow 1 hx]
  congr 1
  by_cases hr : revBits k x = 0
  · have hinv : revBits k (revBits k x) = x := revBits_revBits (hlen ▸ hx)
    rw [hr, revBits_zero] at hinv
    rw [sourceBelow_done (by omega), hr, hinv]
  · have hx0 : x ≠ 0 := fun h => hr (by rw [h, revBits_zero])
    exact sourceBelow_ahead (by omega) (by omega)

theorem reversedBelow_all (hlen : buf.length = 2 ^ k) : reversedBelow k (2 ^ k) buf = bitrev buf := by
  rw [reversedBelow, bitrev, hlen, Nat.log2_two_pow]
  exact List.map_congr_left fun x hx => by rw [sourceBelow_done (.inl (List.mem_range.1 hx))]

theorem swapAt_reversedBelow (hlen : buf.length = 2 ^ k) {t : Nat} (ht : t < 2 ^ k) (hlt : t < revBits k t) :
    swapAt (reversedBelow k t buf) t (revBits k t) = reversedBelow k (t + 1) buf := by
  have hr := revBits_lt k t
  have hinv := revBits_revBits ht
  rw [← hlen] at ht hr
  refine ext_getD (by simp) fun x hx => ?_
  rw [swapAt_length, reversedBelow_length] at hx
  rw [getD_swapAt (by simpa using ht) (by simpa using hr), getD_reversedBelow _ hx, getD_reversedBelow _ ht,
    getD_reversedBelow _ hr, getD_reversedBelow _ hx]
  by_cases hxr : x = revBits k t
  · rw [if_pos hxr, hxr, sourceBelow_ahead le_rfl hlt.le, sourceBelow_done (by omega), hinv]
  · by_cases hxt : x = t
    · rw [if_neg hxr, if_pos hxt, hxt, sourceBelow_ahead hlt.le (by omega), sourceBelow_done (by omega)]
    · rw [if_neg hxr, if_neg hxt, sourceBelow_of_ne (hlen ▸ hx) hxt hxr]

theorem reversedBelow_succ (hlen : buf.length = 2 ^ k) {t : Nat} (ht : t < 2 ^ k) (hle : revBits k t ≤ t) :
    reversedBelow k (t + 1) buf = reversedBelow k t buf := by
  refine List.map_congr_left fun x hx => ?_
  rw [List.mem_range, hlen] at hx
  congr 1
  have hinv := revBits_revBits ht
  by_cases hxt : x = t ∨ x = revBits k t
  · have hdone : x < t ∨ revBits k x < t ∨ revBits k x = x := by
      rcases hxt with rfl | rfl <;> omega
    rw [sourceBelow_done hdone, sourceBelow_done (by omega)]
  · rw [sourceBelow_of_ne hx (mt .inl hxt) (mt .inr hxt)]

end

/-- One turn of the loop over `i`, on `j` and the buffer. -/
def bitrevTurn (k : Nat) (jb : Nat × List Cx) (i : Nat) : Nat × List Cx :=
  let j := bitrevCarry (k + 1) jb.1 (2 ^ k / 2)
  (j, if i < j then swapAt jb.2 i j else jb.2)

theorem bitrevLoop_eq_foldl {k : Nat} {buf : List Cx} (hlen : buf.length = 2 ^ k) :
    bitrevLoop buf = ((List.range' 1 (2 ^ k - 1)).foldl (bitrevTurn k) (0, buf)).2 := by
  unfold bitrevLoop bitrevTurn
  rw [hlen, Nat.log2_two_pow]

theorem bitrevTurn_reversedBelow {k t : Nat} {buf : List Cx} (hlen : buf.length = 2 ^ k) (ht : t + 1 < 2 ^ k) :
    bitrevTurn k (revBits k t, reversedBelow k (t + 1) buf) (t + 1) =
      (revBits k (t + 1), reversedBelow k (t + 2) buf) := by
  rw [bitrevTurn, bitrevCarry_revBits k.lt_succ_self ht]
  congr 1
  split_ifs with hlt
  · exact swapAt_reversedBelow hlen ht hlt
  · exact (reversedBelow_succ hlen ht (by omega)).symm

theorem foldl_bitrevTurn {k t : Nat} {buf : List Cx} (hlen : buf.length = 2 ^ k) (ht : t < 2 ^ k) :
    (List.range' 1 t).foldl (bitrevTurn k) (0, buf) = (revBits k t, reversedBelow k (t + 1) buf) := by
  induction t with
  | zero => rw [revBits_zero, reversedBelow_one hlen]; rfl
  | succ t ih =>
    rw [List.range'_concat, List.foldl_concat, ih (by omega), one_mul, Nat.add_comm 1 t,
      bitrevTurn_reversedBelow hlen ht]

theorem bitrevLoop_eq_bitrev {k : Nat} {buf : List Cx} (hlen : buf.length = 2 ^ k) : bitrevLoop buf = bitrev buf := by
  have hpos : 0 < 2 ^ k := by positivity
  rw [bitrevLoop_eq_foldl hlen, foldl_bitrevTurn hlen (by omega), Nat.sub_add_cancel hpos,
    reversedBelow_all hlen]

theorem getElem?_bitrev {k i : Nat} {buf : List Cx} (hlen : buf.length = 2 ^ k) (hi : i < 2 ^ k) :
    (bitrev buf)[i]? = buf[revBits k i]? := by
  have hr : revBits k i < buf.length := hlen ▸ revBits_lt k i
  rw [bitrev, hlen, Nat.log2_two_pow, List.getElem?_map, List.getElem?_range hi, Option.map_some,
    List.getD_eq_getElem _ _ hr, List.getElem?_eq_getElem hr]

/-- Settles O35: the loop does every index once, in rising order. -/
theorem bitReversalLoopGivesReversedIndexes : Obligations.BitReversalLoopGivesReversedIndexes := by
  unfold Obligations.BitReversalLoopGivesReversedIndexes
  intro k buf hlen
  refine ⟨bitrevLoop_eq_bitrev hlen, by rw [bitrev_length, hlen], fun i hi =>
    ⟨revBits_lt k i, getElem?_bitrev hlen hi, fun j hj => ?_⟩⟩
  rw [testBit_revBits, decide_eq_true hj, Bool.true_and]

end Sys2Proof.Machine
end

section
/-! PROOF of O36: the loops over indexes, outermost last. A turn of the inner loop acts on one element of each half of a
block, a block on one piece of the buffer, and a stage on the blocks from the first one up. -/

namespace Sys2Proof.Machine

theorem root_eq_writtenRoot (b : Build) (m : Nat) (inverse : Bool) : root b m inverse = writtenRoot b m inverse := by
  cases inverse <;> rfl

/-! ### One block -/

/-- The turn of the inner loop at `j`, on the twiddle and the buffer, with the machine's own primitives. -/
def blockTurn (p : Precision) (W : Cx) (base half : Nat) (wb : Cx × List Cx) (j : Nat) : Draw (Cx × List Cx) := do
  let w ← twiddleAt p j wb.1
  let out ← butterfly p w (wb.2.getD (base + j) Cx.zero) (wb.2.getD (base + j + half) Cx.zero)
  let next ← cmul p w W
  pure (next, (wb.2.set (base + j) out.1).set (base + j + half) out.2)

theorem blockLoop_eq_foldlM (p : Precision) (W : Cx) (base half : Nat) (buf : List Cx) :
    blockLoop p W base half buf =
      ((List.range half).foldlM (blockTurn p W base half) (⟨ofInt p 1, Fp.zero⟩, buf) >>= fun out => pure out.2) := by
  unfold blockLoop
  congr 2
  funext wb j
  unfold blockTurn twiddleAt
  split_ifs <;> rfl

/-- A turn replaces the two elements `half` apart that it works on. -/
theorem blockTurn_append (p : Precision) (W w e o : Cx) {base half j : Nat} {A L R : List Cx}
    (hA : base + j = A.length) (hL : half = L.length + 1) :
    blockTurn p W base half (w, A ++ e :: (L ++ o :: R)) j = (do
      let w ← twiddleAt p j w
      let out ← butterfly p w e o
      let next ← cmul p w W
      pure (next, A ++ out.1 :: (L ++ out.2 :: R))) := by
  have hodd (x : Cx) : base + j + half = (A ++ x :: L).length := by simp [hA, hL]
  have happend (x : Cx) (X : List Cx) : A ++ x :: (L ++ X) = (A ++ x :: L) ++ X := by simp
  have he : (A ++ e :: (L ++ o :: R)).getD (base + j) Cx.zero = e := by simp [hA]
  have ho : (A ++ e :: (L ++ o :: R)).getD (base + j + half) Cx.zero = o := by
    rw [happend, hodd e]; simp
  have hset (x y : Cx) : ((A ++ e :: (L ++ o :: R)).set (base + j) x).set (base + j + half) y =
      A ++ x :: (L ++ y :: R) := by
    rw [hA, List.set_append_right _ _ le_rfl, Nat.sub_self, List.set_cons_zero, ← hA, happend, hodd x,
      List.set_append_right _ _ le_rfl, Nat.sub_self, List.set_cons_zero, happend]
  simp only [blockTurn, he, ho, hset]

/-- The turns from `j` on, on the rests `es` and `os` of the two halves; `M` are the odd outputs so far. -/
theorem foldlM_blockTurn (p : Precision) (W : Cx) {base half j : Nat} (w : Cx) {A es M os : List Cx} (R : List Cx)
    (hA : base + j = A.length) (hM : half = es.length + M.length) (hos : es.length = os.length) :
    ((List.range' j es.length).foldlM (blockTurn p W base half) (w, A ++ (es ++ (M ++ (os ++ R)))) >>=
        fun out => pure out.2) =
      (blockSteps p W j w es os >>= fun out => pure (A ++ (out.1 ++ (M ++ (out.2 ++ R))))) := by
  induction es generalizing j w A M os with
  | nil =>
    obtain rfl := List.length_eq_zero_iff.1 hos.symm
    rfl
  | cons e es ih =>
    obtain ⟨o, os, rfl⟩ := List.exists_cons_of_length_eq_add_one hos.symm
    rw [List.length_cons] at hM
    have hturn := blockTurn_append p W w e o (half := half) (L := es ++ M) (R := os ++ R) hA
      (by rw [List.length_append]; omega)
    rw [List.append_assoc] at hturn
    rw [List.length_cons, List.range'_succ, List.foldlM_cons, List.cons_append, List.cons_append, hturn, blockSteps]
    simp only [bind_assoc, pure_bind]
    refine bind_congr fun w' => bind_congr fun out => bind_congr fun next => ?_
    have hrest := ih (j := j + 1) next (A := A ++ [out.1]) (M := M ++ [out.2]) (os := os)
      (by rw [List.length_append, List.length_singleton]; omega)
      (by rw [List.length_append, List.length_singleton]; omega) (Nat.succ.inj hos)
    simpa only [List.append_assoc, List.cons_append, List.nil_append] using hrest

theorem blockLoop_append (p : Precision) (W : Cx) {half : Nat} {A es os : List Cx} (R : List Cx)
    (hes : es.length = half) (hos : os.length = half) :
    blockLoop p W A.length half (A ++ (es ++ (os ++ R))) =
      (blockSteps p W 0 ⟨ofInt p 1, Fp.zero⟩ es os >>= fun out => pure (A ++ (out.1 ++ (out.2 ++ R)))) := by
  rw [blockLoop_eq_foldlM, List.range_eq_range']
  subst hes
  exact foldlM_blockTurn p W _ (M := []) R rfl rfl hos.symm

/-! ### One stage -/

theorem foldlM_blockLoop (p : Precision) (W : Cx) {half i blocks : Nat} {A B : List Cx} (n : Nat)
    (hA : A.length = i * (2 * half)) (hB : B.length = 2 * half * blocks) :
    (List.range' i blocks).foldlM (fun buf blk => blockLoop p W (blk * (2 * half)) half buf) (A ++ B) n =
      (A ++ (stageBlocks p W half blocks B n).1, (stageBlocks p W half blocks B n).2) := by
  induction blocks generalizing i A B n with
  | zero =>
    obtain rfl := List.length_eq_zero_iff.1 hB
    rfl
  | succ k ih =>
    have hk : B.length = 2 * half * k + 2 * half := by rw [hB]; ring
    have hsplit : B = B.take half ++ ((B.drop half).take half ++ B.drop (2 * half)) := by
      rw [two_mul, ← List.drop_drop, List.take_append_drop, List.take_append_drop]
    have hes : (B.take half).length = half := by rw [List.length_take]; omega
    have hos : ((B.drop half).take half).length = half := by rw [List.length_take, List.length_drop]; omega
    obtain ⟨hhi, hlo⟩ := blockSteps_length p W 0 ⟨ofInt p 1, Fp.zero⟩ (B.take half) ((B.drop half).take half) n
    rw [hes, hos, min_self] at hhi hlo
    rw [List.range'_succ, List.foldlM_cons, ← hA]
    conv_lhs => rw [hsplit]
    rw [blockLoop_append p W _ hes hos, stageBlocks]
    simp only [Draw.bind_run, Draw.pure_run]
    rw [← List.append_assoc, ← List.append_assoc, ih _ ?doneLength ?restLength]
    · simp only [List.append_assoc]
    case doneLength => rw [List.length_append, List.length_append, hhi, hlo, hA]; ring
    case restLength => rw [List.length_drop]; omega

theorem eq_mul_blocks {m N : Nat} (hm : 1 ≤ m) (hdvd : 2 ^ m ∣ N) : N = 2 * 2 ^ (m - 1) * (N / 2 ^ m) := by
  rw [← pow_succ', Nat.sub_add_cancel hm, Nat.mul_div_cancel' hdvd]

/-- Stage `m` on a buffer of `N` samples: its blocks from the first one up. -/
def stageLoop (b : Build) (inverse : Bool) (N m : Nat) (buf : List Cx) : Draw (List Cx) :=
  (List.range (N / 2 ^ m)).foldlM
    (fun buf blk => blockLoop b.precision (writtenRoot b m inverse) (blk * 2 ^ m) (2 ^ m / 2) buf) buf

theorem stageLoop_eq_stageBlocks (b : Build) (inverse : Bool) {m : Nat} {buf : List Cx} (n : Nat)
    (hm : 1 ≤ m) (hdvd : 2 ^ m ∣ buf.length) :
    stageLoop b inverse buf.length m buf n =
      stageBlocks b.precision (root b m inverse) (2 ^ (m - 1)) (buf.length / 2 ^ m) buf n := by
  have hpow : 2 ^ m = 2 * 2 ^ (m - 1) := by rw [← pow_succ', Nat.sub_add_cancel hm]
  have hhalf : 2 ^ m / 2 = 2 ^ (m - 1) := by rw [hpow, Nat.mul_div_cancel_left _ two_pos]
  have h := foldlM_blockLoop b.precision (root b m inverse) (i := 0) (A := []) n (by simp) (eq_mul_blocks hm hdvd)
  rw [← hpow] at h
  rw [stageLoop, hhalf, List.range_eq_range', ← root_eq_writtenRoot]
  exact h

/-! ### The transform -/

theorem foldlM_stageLoop (b : Build) (inverse : Bool) {count m k : Nat} {buf : List Cx} (n : Nat) (hm : 1 ≤ m)
    (hk : m + count ≤ k + 1) (hlen : buf.length = 2 ^ k) :
    (List.range' m count).foldlM (fun buf m => stageLoop b inverse (2 ^ k) m buf) buf n =
      stages b inverse count m buf n := by
  induction count generalizing m buf n with
  | zero => rfl
  | succ c ih =>
    have hdvd : 2 ^ m ∣ buf.length := hlen ▸ pow_dvd_pow 2 (by omega)
    have hstage := stageLoop_eq_stageBlocks b inverse n hm hdvd
    have hblocks := stageBlocks_length b.precision (root b m inverse) (2 ^ (m - 1)) (buf.length / 2 ^ m) buf n
      (eq_mul_blocks hm hdvd)
    rw [hlen] at hstage hblocks
    rw [List.range'_succ, List.foldlM_cons, Draw.bind_run, hstage,
      ih _ (by omega) (by omega) hblocks, stages, Draw.bind_run, hlen]

theorem fftLoop_eq_fftCore (b : Build) (inverse : Bool) {k : Nat} {buf : List Cx} (n : Nat)
    (hlen : buf.length = 2 ^ k) :
    fftLoop b inverse buf n = fftCore b inverse buf n := by
  have hstages := foldlM_stageLoop b inverse n (m := 1) (count := k) le_rfl (by omega) ((bitrev_length buf).trans hlen)
  unfold fftLoop fftCore
  rw [bitrevLoop_eq_bitrev hlen, hlen, Nat.log2_two_pow, Draw.bind_run, Draw.bind_run, ← hstages]
  rfl

/-- Settles O36: the loops, then ROOT and the primitives, then the quotient of 1 and +0 by 1. -/
theorem fftCoreFollowsTheWrittenLoops : Obligations.FftCoreFollowsTheWrittenLoops := by
  unfold Obligations.FftCoreFollowsTheWrittenLoops
  refine ⟨fun b inverse k buf n hlen => fftLoop_eq_fftCore b inverse n hlen,
    fun b m => ⟨root_eq_writtenRoot b m false, root_eq_writtenRoot b m true⟩,
    fun p a c d n => ⟨rfl, rfl, rfl, rfl⟩, fun p n => ?one⟩
  case one =>
    intro one
    have hhypot : hypotF p one Fp.zero = one := if_pos ⟨rfl, rfl⟩
    have hdiv := cscaleDiv_one p false false (oneMag_finite p) (infMag_pos p) n
    rw [← ofInt_one] at hdiv
    exact ⟨hhypot, by rw [hhypot]; exact hdiv⟩

end Sys2Proof.Machine
end

section
/-! PROOFS of O38 and O39: after the checks of the size both commands check two regions, said once, and end in one
store. -/

namespace Sys2Proof.Machine

/-! ### The checks of two regions of complex samples -/

/-- Where the source and the destination start (20_memory.md R64), then their extents (R65). -/
def State.checkRegions (s : State) (src : Word) (n : Nat) (dst : Word) (m : Nat) (res : Result) : Result :=
  if s.misaligned src then .raise .badAlign src
  else if s.misaligned dst then .raise .badAlign dst
  else if s.outside src n then .raise .badAddr src
  else if s.outside dst m then .raise .badAddr dst
  else res

theorem State.misaligned_iff {s : State} {a : Word} : s.misaligned a = true ↔ ¬ s.Aligned a := by
  simp [State.misaligned]

section
variable {s : State} {src dst : Word} {n m : Nat} {res : Result} {o : Host.Outcome State Fault Refusal}
  (h : o = .next (s.complete (s.checkRegions src n dst m res)))
include h

theorem checkRegions_srcMisaligned (hsrc : ¬ s.Aligned src) : o = .next (s.failed .badAlign src) := by
  rw [h, State.checkRegions, if_pos (State.misaligned_iff.2 hsrc)]
  rfl

theorem checkRegions_dstMisaligned (hsrc : s.Aligned src) (hdst : ¬ s.Aligned dst) :
    o = .next (s.failed .badAlign dst) := by
  rw [h, State.checkRegions, if_neg (not_not.2 hsrc ∘ State.misaligned_iff.1), if_pos (State.misaligned_iff.2 hdst)]
  rfl

/-- Both regions start well, so the checks of their extents are left. -/
theorem checkRegions_aligned (hsrc : s.Aligned src) (hdst : s.Aligned dst) :
    o = .next (s.complete (if s.outside src n then .raise .badAddr src
      else if s.outside dst m then .raise .badAddr dst else res)) := by
  rw [h, State.checkRegions, if_neg (not_not.2 hsrc ∘ State.misaligned_iff.1),
    if_neg (not_not.2 hdst ∘ State.misaligned_iff.1)]

theorem checkRegions_srcOutside (hsrc : s.Aligned src) (hdst : s.Aligned dst) (hn : ¬ s.InRange src n) :
    o = .next (s.failed .badAddr src) := by
  rw [checkRegions_aligned h hsrc hdst, if_pos (State.outside_iff.2 hn)]
  rfl

theorem checkRegions_dstOutside (hsrc : s.Aligned src) (hdst : s.Aligned dst) (hn : s.InRange src n)
    (hm : ¬ s.InRange dst m) : o = .next (s.failed .badAddr dst) := by
  rw [checkRegions_aligned h hsrc hdst, if_neg (not_not.2 hn ∘ State.outside_iff.1), if_pos (State.outside_iff.2 hm)]
  rfl

theorem checkRegions_passed (hsrc : s.Aligned src) (hdst : s.Aligned dst) (hn : s.InRange src n)
    (hm : s.InRange dst m) : o = .next (s.complete res) := by
  rw [checkRegions_aligned h hsrc hdst, if_neg (not_not.2 hn ∘ State.outside_iff.1),
    if_neg (not_not.2 hm ∘ State.outside_iff.1)]

end

/-- A command whose end is drawing and one store of bytes. -/
theorem completesWith_of_storeBytes {i : Instr} {s : State} {d a : Nat} {bs : List Byte}
    (h : exec i s = .next (s.complete (.done (({ s with draws := d } : State).storeBytes a bs)))) :
    CompletesWith i s { s with draws := d } a bs :=
  ⟨_, h, rfl, fun x => State.loadB_storeBytes s a x bs⟩

/-! ### OFDM_TX (42_ofdm.md R160) -/

section
variable {s : State} {q : Pending} (hp : s.pending = some q)
include hp

theorem exec_ofdmTx_badLength (hn : ¬ IsPow2 q.a2.toNat) : exec .ofdmTx s = .next (s.failed .badSize q.a2) := by
  refine (State.perform_pending hp (ofdmTxResult s)).trans ?_
  rw [ofdmTxResult, if_pos (not_isPow2_iff.2 hn)]
  rfl

theorem exec_ofdmTx_badPrefix (hn : IsPow2 q.a2.toNat) (hl : q.a2.toNat < q.a3.toNat) :
    exec .ofdmTx s = .next (s.failed .badSize q.a3) := by
  refine (State.perform_pending hp (ofdmTxResult s)).trans ?_
  rw [ofdmTxResult, if_neg (not_not.2 hn ∘ not_isPow2_iff.1), if_pos hl]
  rfl

theorem exec_ofdmTx (hn : IsPow2 q.a2.toNat) (hl : q.a3.toNat ≤ q.a2.toNat) :
    let n := q.a2.toNat
    let out := s.drawing (fftCore s.build true (s.loadCs q.a0.toNat n))
    exec .ofdmTx s = .next (s.complete (s.checkRegions q.a0 (2 * s.w * n) q.a1 (2 * s.w * (n + q.a3.toNat))
      (.done (out.2.storeCs q.a1.toNat (withPrefix q.a3.toNat out.1))))) := by
  refine (State.perform_pending hp (ofdmTxResult s)).trans ?_
  rw [ofdmTxResult, if_neg (not_not.2 hn ∘ not_isPow2_iff.1), if_neg hl.not_gt]
  rfl

/-! ### OFDM_RX (42_ofdm.md R161) -/

theorem exec_ofdmRx_badSize (hgood : ¬ (q.a3.toNat ≤ q.a2.toNat ∧ IsPow2 (q.a2.toNat - q.a3.toNat))) :
    exec .ofdmRx s = .next (s.failed .badSize q.a2) := by
  refine (State.perform_pending hp (ofdmRxResult s)).trans ?_
  rw [not_and_or, not_le, ← not_isPow2_iff] at hgood
  rw [ofdmRxResult, if_pos hgood]
  rfl

theorem exec_ofdmRx (hgood : q.a3.toNat ≤ q.a2.toNat ∧ IsPow2 (q.a2.toNat - q.a3.toNat)) :
    let n := q.a2.toNat - q.a3.toNat
    let out := s.drawing (fftCore s.build false (s.loadCs (q.a0.toNat + 2 * s.w * q.a3.toNat) n))
    exec .ofdmRx s = .next (s.complete (s.checkRegions q.a0 (2 * s.w * q.a2.toNat) q.a1 (2 * s.w * n)
      (.done (out.2.storeCs q.a1.toNat out.1)))) := by
  refine (State.perform_pending hp (ofdmRxResult s)).trans ?_
  obtain ⟨hl, hn⟩ := hgood
  rw [ofdmRxResult, if_neg (not_or.2 ⟨hl.not_gt, not_not.2 hn ∘ not_isPow2_iff.1⟩)]
  rfl

end

/-- The prefix repeats the end of the symbol (42_ofdm.md R160). -/
theorem withPrefix_getElem? {l k : Nat} {x : List Cx} (hl : l ≤ x.length) (hk : k < l) :
    (withPrefix l x)[k]? = (withPrefix l x)[x.length + k]? := by
  have hlen : (x.drop (x.length - l)).length = l := by rw [List.length_drop]; omega
  rw [withPrefix, List.getElem?_append_left (by omega), List.getElem?_append_right (by omega), List.getElem?_drop, hlen]
  congr 1
  omega

/-! ### The statements -/

/-- Settles O38: the sizes, then the two regions, then the block of `withPrefix`. -/
theorem ofdmTxPrependsTheCyclicPrefix : Obligations.OfdmTxPrependsTheCyclicPrefix := by
  unfold Obligations.OfdmTxPrependsTheCyclicPrefix
  intro s q hp n l out y
  have hrun (hn : IsPow2 n) (hl : l ≤ n) := exec_ofdmTx hp hn hl
  refine ⟨by decide, exec_ofdmTx_badLength hp, exec_ofdmTx_badPrefix hp,
    fun hn hl => checkRegions_srcMisaligned (hrun hn hl), fun hn hl => checkRegions_dstMisaligned (hrun hn hl),
    fun hn hl => checkRegions_srcOutside (hrun hn hl), fun hn hl => checkRegions_dstOutside (hrun hn hl),
    fun hn hl hal0 hal1 hin0 hin1 => ?done⟩
  have hlen : out.1.length = n := fftCore_loadCs_length true _ (not_not.2 hn ∘ not_isPow2_iff.1) _
  have hy : withPrefix l out.1 = y := by rw [withPrefix, hlen]
  have hdone := checkRegions_passed (hrun hn hl) hal0 hal1 hin0 hin1
  rw [State.drawing_fst, hy] at hdone
  rw [← hlen] at hl
  exact ⟨by rw [← hy, withPrefix_length hl, hlen], fun k hk => by rw [← hy, withPrefix_getElem? hl hk, hlen],
    completesWith_of_storeBytes hdone⟩

/-- Settles O39: the sizes, then the two regions, then the transform of what lies behind the prefix. -/
theorem ofdmRxDropsThePrefixAndTransforms : Obligations.OfdmRxDropsThePrefixAndTransforms := by
  unfold Obligations.OfdmRxDropsThePrefixAndTransforms
  intro s q hp total l n good out
  have hrun (hgood : good) := exec_ofdmRx hp hgood
  refine ⟨by decide, exec_ofdmRx_badSize hp,
    fun hgood => checkRegions_srcMisaligned (hrun hgood), fun hgood => checkRegions_dstMisaligned (hrun hgood),
    fun hgood => checkRegions_srcOutside (hrun hgood), fun hgood => checkRegions_dstOutside (hrun hgood),
    fun hgood hal0 hal1 hin0 hin1 => ⟨?length, ?stored⟩⟩
  case length => exact fftCore_loadCs_length false _ (not_not.2 hgood.2 ∘ not_isPow2_iff.1) _
  case stored => exact completesWith_of_storeBytes (checkRegions_passed (hrun hgood) hal0 hal1 hin0 hin1)

end Sys2Proof.Machine
end

section
/-! PROOF of O40. What a primitive returns is a value that its encoding gives back, so a stored sample is read as it
was; the inverse transform ends in a primitive, its division by N (41_fft.md R138), and so its result survives LMEM. -/

namespace Sys2Proof.Machine

/-! ### Values that their encoding gives back -/

/-- `v` is the value of its own encoding. A finite magnitude from infinity's up is not, nor is a NaN whose bits are
not a NaN's: no encoding has such a value. -/
def Fp.Canonical (p : Precision) (v : Fp) : Prop := Fp.ofBits p (v.toBits p).toNat = v

theorem signWeight_eq_infMag_add (p : Precision) : p.signWeight = p.infMag + 2 ^ p.fracBits := by
  cases p <;> decide

theorem Fp.ofBits_mod (p : Precision) (e : Nat) : Fp.ofBits p (e % 2 ^ p.bits) = Fp.ofBits p e := by
  unfold Fp.ofBits
  rw [Nat.mod_mod]

theorem Fp.canonical_ofBits (p : Precision) {e : Nat} (he : e < 2 ^ p.bits) : Fp.Canonical p (Fp.ofBits p e) := by
  have hbits : 2 ^ p.bits ≤ 2 ^ 64 := by cases p <;> decide
  rw [Fp.Canonical, toBits_ofBits p he, BitVec.toNat_ofNat, Nat.mod_eq_of_lt (he.trans_le hbits)]

theorem signedBits_lt (p : Precision) (neg : Bool) {m : Nat} (hm : m < p.signWeight) :
    signedBits p neg m < 2 ^ p.bits := by
  rw [two_pow_bits]
  cases neg <;> simp [signedBits] <;> omega

theorem Fp.canonical_fin (p : Precision) (neg : Bool) {m : Nat} (hm : FiniteMag p m) :
    Fp.Canonical p (.fin neg m) := by
  have hlt : m < p.signWeight := hm.trans_le (signWeight_eq_infMag_add p ▸ Nat.le_add_right ..)
  have h := Fp.canonical_ofBits p (signedBits_lt p neg hlt)
  rwa [ofBits_signedBits p neg hlt, if_pos hm] at h

theorem Fp.canonical_inf (p : Precision) (neg : Bool) : Fp.Canonical p (.inf neg) := by
  have hlt : p.infMag < p.signWeight := signWeight_eq_infMag_add p ▸ Nat.lt_add_of_pos_right (by positivity)
  have h := Fp.canonical_ofBits p (signedBits_lt p neg hlt)
  rwa [ofBits_signedBits p neg hlt, if_neg (lt_irrefl _), if_pos rfl] at h

/-- A fraction that is not 0, over infinity's exponent field. -/
theorem Fp.canonical_nan (p : Precision) (neg : Bool) {f : Nat} (h0 : 0 < f) (hf : f < 2 ^ p.fracBits) :
    Fp.Canonical p (.nan (BitVec.ofNat 64 (signedBits p neg (p.infMag + f)))) := by
  have hlt : p.infMag + f < p.signWeight := signWeight_eq_infMag_add p ▸ Nat.add_lt_add_left hf _
  have h := Fp.canonical_ofBits p (signedBits_lt p neg hlt)
  rwa [ofBits_signedBits p neg hlt, if_neg (by omega), if_neg (by omega)] at h

theorem Fp.canonical_nanPattern (p : Precision) (d : Enc) : Fp.Canonical p (.nan (nanPattern p d)) := by
  have hone : 1 < 2 ^ p.fracBits := by cases p <;> decide
  have hlt := Nat.mod_lt d.toNat (zero_lt_one.trans hone)
  rw [nanPattern, signedBits, Nat.add_assoc, ← signedBits]
  split
  · exact Fp.canonical_nan p _ one_pos hone
  · exact Fp.canonical_nan p _ (by omega) hlt

theorem finish_canonical (p : Precision) (neg : Bool) (m : Nat) : Fp.Canonical p (finish p neg m) := by
  unfold finish
  split
  · exact Fp.canonical_fin p neg ‹_›
  · exact Fp.canonical_inf p neg

/-! ### The inverse transform returns such values -/

/-- A quotient, of any two values. -/
theorem divFp_canonical {p : Precision} {x y v : Fp} (h : divFp p x y = some v) : Fp.Canonical p v := by
  unfold divFp at h
  split at h
  case h_1 | h_2 | h_3 => cases h
  case h_4 => cases h; exact Fp.canonical_inf p _
  case h_5 => cases h; exact Fp.canonical_fin p _ (infMag_pos p)
  case h_6 =>
    split at h
    · split at h
      · cases h
      · cases h; exact Fp.canonical_inf p _
    · cases h; exact finish_canonical p _ _

theorem settle_canonical {p : Precision} {o : Option Fp} (h : ∀ v, o = some v → Fp.Canonical p v) (n : Nat) :
    Fp.Canonical p (settle p o n).1 := by
  cases o with
  | none => exact Fp.canonical_nanPattern p _
  | some v => exact h v rfl

/-- Both parts of a sample. -/
def Cx.Canonical (p : Precision) (z : Cx) : Prop := Fp.Canonical p z.re ∧ Fp.Canonical p z.im

theorem cscaleDiv_canonical (p : Precision) (z : Cx) (d : Fp) (n : Nat) : Cx.Canonical p (cscaleDiv p z d n).1 :=
  ⟨settle_canonical (fun _ => divFp_canonical) _, settle_canonical (fun _ => divFp_canonical) _⟩

theorem forall_mem_each {α β : Type} {f : α → Draw β} {P : β → Prop} (hf : ∀ a n, P (f a n).1) (as : List α) (n : Nat) :
    ∀ b ∈ (Draw.each f as n).1, P b := by
  induction as generalizing n with
  | nil => exact List.forall_mem_nil _
  | cons a as ih => exact List.forall_mem_cons.2 ⟨hf a n, ih _⟩

theorem fftCore_inverse_canonical (b : Build) (buf : List Cx) (n : Nat) :
    ∀ z ∈ (fftCore b true buf n).1, Cx.Canonical b.precision z :=
  forall_mem_each (fun z => cscaleDiv_canonical b.precision z _) _ _

/-! ### Loads from stored bytes -/

theorem State.LmemIs.loadBytes {s t : State} {a : Nat} {bs : List Byte} (h : s.LmemIs t a bs) :
    t.loadBytes a bs.length = bs := by
  conv_rhs => rw [← s.loadBytes_storeBytes a bs]
  exact List.map_congr_left fun k _ => (h (a + k)).trans (State.loadB_storeBytes s a _ bs).symm

section
variable (t : State) (a : Nat)

theorem State.loadBytes_add (m n : Nat) : t.loadBytes a (m + n) = t.loadBytes a m ++ t.loadBytes (a + m) n := by
  simp [State.loadBytes, List.range_add, Nat.add_assoc]

theorem State.loadCs_succ (n : Nat) : t.loadCs a (n + 1) = t.loadC a :: t.loadCs (a + 2 * t.w) n := by
  simp [State.loadCs, State.cxBytes, List.range_succ_eq_map, Nat.mul_succ, Nat.add_assoc, Nat.add_comm (2 * t.w)]

variable {t a}

/-- Bytes laid end to end, read in two pieces. -/
theorem State.loadBytes_eq_append {bs bs' : List Byte} {m n : Nat} (hm : bs.length = m) :
    t.loadBytes a (m + n) = bs ++ bs' ↔ t.loadBytes a m = bs ∧ t.loadBytes (a + m) n = bs' := by
  rw [State.loadBytes_add, List.append_eq_append_iff_of_size_eq_left (by simp [hm])]

theorem State.loadF_of_loadBytes {v : Fp} (hv : Fp.Canonical t.prec v) (h : t.loadBytes a t.w = fBytes t.prec v) :
    t.loadF a = v := by
  rw [State.loadF, State.memRead, h, fBytes, valueLE_bytesLE, ← Precision.bits, Fp.ofBits_mod, hv]

theorem State.loadC_of_loadBytes {z : Cx} (hz : Cx.Canonical t.prec z)
    (h : t.loadBytes a (2 * t.w) = cBytes t.prec z) : t.loadC a = z := by
  rw [Nat.two_mul, cBytes, State.loadBytes_eq_append (fBytes_length ..)] at h
  rw [State.loadC, State.loadF_of_loadBytes hz.1 h.1, State.loadF_of_loadBytes hz.2 h.2]

theorem State.loadCs_of_loadBytes {zs : List Cx} (hzs : ∀ z ∈ zs, Cx.Canonical t.prec z)
    (h : t.loadBytes a (2 * t.w * zs.length) = zs.flatMap (cBytes t.prec)) : t.loadCs a zs.length = zs := by
  induction zs generalizing a with
  | nil => rfl
  | cons z zs ih =>
    obtain ⟨hz, hzs⟩ := List.forall_mem_cons.1 hzs
    rw [List.flatMap_cons, List.length_cons, Nat.mul_succ, Nat.add_comm,
      State.loadBytes_eq_append (cBytes_length ..)] at h
    rw [List.length_cons, State.loadCs_succ, State.loadC_of_loadBytes hz h.1, ih hzs h.2]

/-- The samples behind the first ones of a stored sequence. -/
theorem State.LmemIs.loadCs_append {s : State} {pre zs : List Cx}
    (h : s.LmemIs t a ((pre ++ zs).flatMap (cBytes s.prec))) (hb : t.build = s.build)
    (hzs : ∀ z ∈ zs, Cx.Canonical s.prec z) : t.loadCs (a + 2 * s.w * pre.length) zs.length = zs := by
  have hbytes := h.loadBytes
  rw [State.prec, ← hb] at hbytes hzs
  rw [State.w, ← hb]
  rw [cBytes_flatMap_length, List.length_append, Nat.mul_add, List.flatMap_append,
    State.loadBytes_eq_append (cBytes_flatMap_length ..)] at hbytes
  exact State.loadCs_of_loadBytes hzs hbytes.2

end

/-! ### The receiver behind the transmitter -/

/-- A command that completes OK has passed a check whose failure raises an error. -/
theorem of_code_ok {o : Host.Outcome State Fault Refusal} {s t : State} {P : Prop} {e : StatusCode} {w : Word}
    (ht : o = .next t) (hok : t.code = .ok) (he : e ≠ .ok) (h : ¬ P → o = .next (s.failed e w)) : P := by
  by_contra hP
  cases ht.symm.trans (h hP)
  exact he hok

/-- What OFDM_TX has checked and done when it completes OK (42_ofdm.md R160). -/
theorem ofdmTx_of_code_ok {s t : State} {q : Pending} (hp : s.pending = some q) (ht : exec .ofdmTx s = .next t)
    (hok : t.code = .ok) :
    let n := q.a2.toNat
    let l := q.a3.toNat
    let x := (fftCore s.build true (s.loadCs q.a0.toNat n) s.draws).1
    IsPow2 n ∧ l ≤ n ∧ s.Aligned q.a1 ∧ s.InRange q.a1 (2 * s.w * (n + l)) ∧ t.build = s.build ∧
      s.LmemIs t q.a1.toNat ((x.drop (n - l) ++ x).flatMap (cBytes s.prec)) := by
  intro n l x
  obtain ⟨-, hsize, hprefix, hsrc, hdst, hsrcIn, hdstIn, hdone⟩ := ofdmTxPrependsTheCyclicPrefix s q hp
  have hn := of_code_ok ht hok (by decide) hsize
  have hl := of_code_ok ht hok (by decide) fun h => hprefix hn (not_le.1 h)
  have hal0 := of_code_ok ht hok (by decide) (hsrc hn hl)
  have hal1 := of_code_ok ht hok (by decide) (hdst hn hl hal0)
  have hin0 := of_code_ok ht hok (by decide) (hsrcIn hn hl hal0 hal1)
  have hin1 := of_code_ok ht hok (by decide) (hdstIn hn hl hal0 hal1 hin0)
  obtain ⟨-, -, t', ht', hfields, hlmem⟩ := hdone hn hl hal0 hal1 hin0 hin1
  cases ht.symm.trans ht'
  exact ⟨hn, hl, hal1, hin1, by rw [hfields], hlmem⟩

/-- OFDM_RX of a block whose samples behind the prefix are `x` (42_ofdm.md R161). -/
theorem ofdmRx_of_slice {r : State} {d : Pending} {b : Build} {n : Nat} {x : List Cx} (hp : r.pending = some d)
    (hb : r.build = b) (hn : IsPow2 n) (htotal : d.a2.toNat = n + d.a3.toNat)
    (hal0 : d.a0.toNat % b.precision.width = 0) (hal1 : d.a1.toNat % b.precision.width = 0)
    (hin0 : d.a0.toNat + 2 * b.precision.width * (n + d.a3.toNat) ≤ b.memBytes)
    (hin1 : d.a1.toNat + 2 * b.precision.width * n ≤ b.memBytes)
    (hx : r.loadCs (d.a0.toNat + 2 * b.precision.width * d.a3.toNat) n = x) :
    let out := fftCore b false x r.draws
    CompletesWith .ofdmRx r { r with draws := out.2 } d.a1.toNat (out.1.flatMap (cBytes b.precision)) := by
  subst hb hx
  obtain ⟨-, -, -, -, -, -, hdone⟩ := ofdmRxDropsThePrefixAndTransforms r d hp
  rw [htotal, Nat.add_sub_cancel] at hdone
  exact (hdone ⟨Nat.le_add_left .., hn⟩ hal0 hal1 hin0 hin1).2

/-- Settles O40: the stored `x` is read as it was, and O39 says what OFDM_RX makes of it. -/
theorem ofdmRxReadsTheSliceTxProduced : Obligations.OfdmRxReadsTheSliceTxProduced := by
  unfold Obligations.OfdmRxReadsTheSliceTxProduced
  intro s t q hp ht hok n x
  obtain ⟨hn, hl, hal1, hin1, hbuild, hlmem⟩ := ofdmTx_of_code_ok hp ht hok
  have hlen : x.length = n := fftCore_loadCs_length true _ (not_not.2 hn ∘ not_isPow2_iff.1) _
  have hpre : (x.drop (n - q.a3.toNat)).length = q.a3.toNat := by rw [List.length_drop, hlen]; omega
  have hx : t.loadCs (q.a1.toNat + 2 * s.w * q.a3.toNat) n = x := by
    have h := hlmem.loadCs_append hbuild (fftCore_inverse_canonical s.build _ _)
    rwa [hpre, hlen] at h
  refine ⟨hx, fun d ha0 ha3 ha2 hal hin => ?received⟩
  rw [← ha3] at ha2 hin1 hx
  rw [← ha0] at hal1 hin1 hx
  exact ofdmRx_of_slice rfl hbuild hn ha2 hal1 hal hin1 hin hx

end Sys2Proof.Machine
end

section
/-! PROOF of O45: the tables are finite, and each fact about them is read off. -/

namespace Sys2Proof.Machine

/-- Settles O45: the 16 points, the 256 pairs of labels, and the tables as they are written. -/
theorem constellationTableIsGray : Obligations.ConstellationTableIsGray := by
  unfold Obligations.ConstellationTableIsGray
  refine ⟨by decide, by decide, by decide, rfl, rfl, rfl, rfl, rfl, rfl, fun p => ⟨?_, rfl⟩⟩
  cases p <;> rfl

end Sys2Proof.Machine
end

section
/-! PROOFS of O47 and O49. NEAREST and the minima of an LLR are one kind of scan: of the distances seen so far it holds
the first of the least ones below infinity. -/

namespace Sys2Proof.Machine

/-! ### Less-than orders the values that are not NaNs -/

theorem flt_eq_true_iff {p : Precision} {x y : Fp} :
    flt p x y = true ↔ ∃ a b, x.key p = some a ∧ y.key p = some b ∧ a < b := by
  unfold flt
  cases x.key p <;> cases y.key p <;> simp

theorem flt_irrefl (p : Precision) (x : Fp) : flt p x x = false := by
  rw [← Bool.not_eq_true, flt_eq_true_iff]
  rintro ⟨a, b, ha, hb, hab⟩
  exact hab.ne (Option.some.inj (ha.symm.trans hb))

theorem flt_trans {p : Precision} {x y z : Fp} (hxy : flt p x y = true) (hyz : flt p y z = true) :
    flt p x z = true := by
  obtain ⟨a, b, ha, hb, hab⟩ := flt_eq_true_iff.1 hxy
  obtain ⟨b', c, hb', hc, hbc⟩ := flt_eq_true_iff.1 hyz
  cases hb.symm.trans hb'
  exact flt_eq_true_iff.2 ⟨a, c, ha, hc, hab.trans hbc⟩

theorem flt_of_flt_of_not_flt {p : Precision} {x y z : Fp} (hxy : flt p x y = true) (hzy : flt p z y = false) :
    flt p x z = true ∨ ∃ e, z = .nan e := by
  obtain ⟨a, b, ha, hb, hab⟩ := flt_eq_true_iff.1 hxy
  cases hz : z.key p with
  | none =>
    cases z with
    | nan e => exact .inr ⟨e, rfl⟩
    | fin neg mag | inf neg => cases hz
  | some c =>
    have hbc : b ≤ c := not_lt.1 fun h => by simp [(flt_iff hz hb).2 h] at hzy
    exact .inl ((flt_iff ha hz).2 (hab.trans_le hbc))

/-! ### The scan -/

/-- What a scan holds after the distances `d`, of those whose label it `takes`: `best` is the first of the least ones
below infinity and `lab` its label, or it has taken none and `best` is infinity. -/
structure Scanned (p : Precision) (takes : Nat → Bool) (d : List Fp) (best : Fp) (lab : Option Nat) : Prop where
  best_of_none : lab = none → best = .inf false
  takes_lab : ∀ j, lab = some j → d[j]? = some best ∧ takes j = true ∧ flt p best (.inf false) = true
  first : ∀ j, lab = some j → ∀ (i : Nat) (di : Fp), i < j → d[i]? = some di → takes i = true →
    flt p best di = true ∨ ∃ e, di = .nan e
  least : ∀ (i : Nat) (di : Fp), d[i]? = some di → takes i = true → flt p di best = false

section
variable {p : Precision} {takes : Nat → Bool} {d : List Fp} {best x : Fp} {lab : Option Nat}

theorem Scanned.start (p : Precision) (takes : Nat → Bool) : Scanned p takes [] (.inf false) none where
  best_of_none _ := rfl
  takes_lab _ h := by cases h
  first _ h := by cases h
  least _ _ h := by cases h

theorem Scanned.lt_inf_of_lt (h : Scanned p takes d best lab) (hx : flt p x best = true) :
    flt p x (.inf false) = true := by
  cases hlab : lab with
  | none => rwa [← h.best_of_none hlab]
  | some j =>
    obtain ⟨-, -, hbest⟩ := h.takes_lab j hlab
    exact flt_trans hx hbest

theorem getElem?_concat_eq_some_iff {α : Type} {d : List α} {x di : α} {i : Nat} :
    (d ++ [x])[i]? = some di ↔ d[i]? = some di ∨ i = d.length ∧ x = di := by
  grind

theorem Scanned.take (h : Scanned p takes d best lab) (ht : takes d.length = true) (hx : flt p x best = true) :
    Scanned p takes (d ++ [x]) x (some d.length) where
  best_of_none hnone := by cases hnone
  takes_lab j hj := by
    cases hj
    exact ⟨by simp, ht, h.lt_inf_of_lt hx⟩
  first j hj i di hi hdi hti := by
    cases hj
    rw [List.getElem?_append_left hi] at hdi
    exact flt_of_flt_of_not_flt hx (h.least i di hdi hti)
  least i di hdi hti := by
    rcases getElem?_concat_eq_some_iff.1 hdi with hdi | ⟨-, rfl⟩
    · exact Bool.eq_false_iff.2 fun hlt => Bool.eq_false_iff.1 (h.least i di hdi hti) (flt_trans hlt hx)
    · exact flt_irrefl p x

theorem Scanned.skip (h : Scanned p takes d best lab) (hx : takes d.length = true → flt p x best = false) :
    Scanned p takes (d ++ [x]) best lab where
  best_of_none := h.best_of_none
  takes_lab j hj := by
    obtain ⟨hbest, hrest⟩ := h.takes_lab j hj
    exact ⟨getElem?_concat_eq_some_iff.2 (.inl hbest), hrest⟩
  first j hj i di hi hdi := by
    obtain ⟨hbest, -⟩ := h.takes_lab j hj
    obtain ⟨hjd, -⟩ := List.getElem?_eq_some_iff.1 hbest
    rw [List.getElem?_append_left (hi.trans hjd)] at hdi
    exact h.first j hj i di hi hdi
  least i di hdi hti := by
    rcases getElem?_concat_eq_some_iff.1 hdi with hdi | ⟨rfl, rfl⟩
    · exact h.least i di hdi hti
    · exact hx hti

/-- NEAREST takes every label (43_qam16.md R186). -/
theorem Scanned.exists_nearestScan (h : Scanned p (fun _ => true) d best lab) (ds : List Fp) :
    ∃ best', Scanned p (fun _ => true) (d ++ ds) best' (nearestScan p d.length best lab ds) := by
  induction ds generalizing d best lab with
  | nil => exact ⟨best, by rwa [List.append_nil, nearestScan]⟩
  | cons x ds ih =>
    have hlen : d.length + 1 = (d ++ [x]).length := by simp
    rw [List.append_cons, nearestScan, hlen]
    split
    case isTrue hx => exact ih (h.take rfl hx)
    case isFalse hx => exact ih (h.skip fun _ => Bool.eq_false_iff.2 hx)

/-- A minimum of an LLR takes the labels with a given bit (43_qam16.md R188). -/
theorem Scanned.exists_minWithBit {k : Nat} {b : Bool} (h : Scanned p (fun j => j.testBit k == b) d best lab)
    (ds : List Fp) :
    ∃ lab', Scanned p (fun j => j.testBit k == b) (d ++ ds) (minWithBit p k b d.length best ds) lab' := by
  induction ds generalizing d best lab with
  | nil => exact ⟨lab, by rwa [List.append_nil, minWithBit]⟩
  | cons x ds ih =>
    have hlen : d.length + 1 = (d ++ [x]).length := by simp
    rw [List.append_cons, minWithBit, hlen]
    split
    case isTrue hx => exact ih (h.take (beq_iff_eq.2 hx.1) hx.2)
    case isFalse hx => exact ih (h.skip fun ht => Bool.eq_false_iff.2 fun hlt => hx ⟨beq_iff_eq.1 ht, hlt⟩)

end

/-! ### The statements -/

/-- Settles O47: NEAREST is the scan from label 0. -/
theorem nearestIsTheLowestClosestLabel : Obligations.NearestIsTheLowestClosestLabel := by
  unfold Obligations.NearestIsTheLowestClosestLabel
  refine ⟨fun p z n => ⟨rfl, by rw [nearest, Draw.bind_run, Draw.pure_run]⟩, fun p d => ?scan⟩
  obtain ⟨best, h⟩ := (Scanned.start p fun _ => true).exists_nearestScan d
  rw [List.nil_append, List.length_nil] at h
  refine ⟨fun j hj => ?some, fun hnone di hdi => ?none, fun hall => ?above⟩
  case some =>
    obtain ⟨hbest, -, hinf⟩ := h.takes_lab j hj
    exact ⟨best, hbest, hinf, fun i di hdi => ⟨h.least i di hdi rfl, fun hi => h.first j hj i di hi hdi rfl⟩⟩
  case none =>
    obtain ⟨i, hi⟩ := List.mem_iff_getElem?.1 hdi
    rw [← h.best_of_none hnone]
    exact h.least i di hi rfl
  case above =>
    refine Option.eq_none_iff_forall_ne_some.2 fun j hj => ?_
    obtain ⟨hbest, -, hinf⟩ := h.takes_lab j hj
    exact Bool.eq_false_iff.1 (hall best (List.mem_of_getElem? hbest)) hinf

/-- Settles O49: the minimum is the scan from label 0, and an LLR is written as R188 writes it. -/
theorem llrIsTheScaledDifferenceOfMinima : Obligations.LlrIsTheScaledDifferenceOfMinima := by
  unfold Obligations.LlrIsTheScaledDifferenceOfMinima
  intro p k b d m
  obtain ⟨lab, h⟩ := (Scanned.start p fun j => j.testBit k == b).exists_minWithBit d
  rw [List.nil_append, List.length_nil] at h
  refine ⟨?minimum, fun j dj hdj hb => h.least j dj hdj (beq_iff_eq.2 hb), fun v n => rfl, fun v z n => rfl⟩
  cases hlab : lab with
  | none => exact .inl (h.best_of_none hlab)
  | some j =>
    obtain ⟨hbest, ht, hinf⟩ := h.takes_lab j hlab
    exact .inr ⟨hinf, j, hbest, beq_iff_eq.1 ht, fun i di hi hdi hb => h.first j hlab i di hi hdi (beq_iff_eq.2 hb)⟩

end Sys2Proof.Machine
end

section
/-! PROOFS of O46, O48, O50 and O51: the mapper and the demappers check where their samples start and the two regions,
then store one list of bytes. -/

namespace Sys2Proof.Machine

/-! ### The checks -/

/-- Where the samples start, at `z` (20_memory.md R64), then the extents of the source and the destination (R65). -/
def State.checkMapping (s : State) (z src : Word) (n : Nat) (dst : Word) (m : Nat) (res : Result) : Result :=
  if s.misaligned z then .raise .badAlign z
  else if s.outside src n then .raise .badAddr src
  else if s.outside dst m then .raise .badAddr dst
  else res

theorem checkMapping_cases {s : State} {z src dst : Word} {n m : Nat} {res : Result}
    {o : Host.Outcome State Fault Refusal} (h : o = .next (s.complete (s.checkMapping z src n dst m res))) :
    (¬ s.Aligned z → o = .next (s.failed .badAlign z)) ∧
    (s.Aligned z → ¬ s.InRange src n → o = .next (s.failed .badAddr src)) ∧
    (s.Aligned z → s.InRange src n → ¬ s.InRange dst m → o = .next (s.failed .badAddr dst)) ∧
    (s.Aligned z → s.InRange src n → s.InRange dst m → o = .next (s.complete res)) := by
  subst h
  simp only [State.checkMapping, State.misaligned_iff, State.outside_iff]
  refine ⟨fun hz => ?_, fun hz hn => ?_, fun hz hn hm => ?_, fun hz hn hm => ?_⟩
  · rw [if_pos hz]; rfl
  · rw [if_neg (not_not.2 hz), if_pos hn]; rfl
  · rw [if_neg (not_not.2 hz), if_neg (not_not.2 hn), if_pos hm]; rfl
  · rw [if_neg (not_not.2 hz), if_neg (not_not.2 hn), if_neg (not_not.2 hm)]

/-! ### Each command's run -/

section
variable {s : State} {q : Pending} (hp : s.pending = some q)
include hp

theorem exec_qamDecHard :
    let m := q.a2.toNat
    let out := s.drawing (Draw.each (nearest s.prec) (s.loadCs q.a0.toNat (2 * (m / 2))))
    exec .qamDecHard s = .next (s.complete (s.checkMapping q.a0 q.a0 (2 * s.w * m) q.a1 (m / 2)
      (match out.1.findIdx? Option.isNone with
        | some i => .raise .nearest (BitVec.ofNat 32 i)
        | none => .done (out.2.storeBytes q.a1.toNat (packNibbles (out.1.map (·.getD 0))))))) :=
  State.perform_pending hp (qamDecHardResult s)

theorem exec_qamDecSoft :
    let m := q.a2.toNat
    let out := s.drawing (Draw.each (softNibble s.prec (q.farg s.prec)) (s.loadCs q.a0.toNat (2 * (m / 2))))
    exec .qamDecSoft s = .next (s.complete (s.checkMapping q.a0 q.a0 (2 * s.w * m) q.a1 (m / 2)
      (.done (out.2.storeBytes q.a1.toNat (packNibbles out.1))))) :=
  State.perform_pending hp (qamDecSoftResult s)

theorem exec_qamLlr :
    let m := q.a2.toNat
    let out := s.drawing (Draw.each (llr s.prec (q.farg s.prec)) (s.loadCs q.a0.toNat m))
    exec .qamLlr s = .next (s.complete (s.checkRegions q.a0 (2 * s.w * m) q.a1 (4 * s.w * m)
      (.done (out.2.storeFs q.a1.toNat out.1.flatten)))) :=
  State.perform_pending hp (qamLlrResult s)

end

/-! ### The symbol of a label -/

/-- The rounded product of a coordinate and ETA (43_qam16.md R184). -/
def scaledCoord (p : Precision) (c : Int) : Fp := (mulFp p (ofInt p c) (Fp.ofBits p (etaBits p).toNat)).getD Fp.zero

/-- The symbol of label `j`. -/
def symbolOf (p : Precision) (j : Nat) : Cx := ⟨scaledCoord p (pointX j), scaledCoord p (pointY j)⟩

/-- ETA is finite and not 0, so its product with any integer is no NaN. -/
theorem mulFp_eta (p : Precision) (c : Int) :
    mulFp p (ofInt p c) (Fp.ofBits p (etaBits p).toNat) = some (scaledCoord p c) := by
  have heta : ∃ e, Fp.ofBits p (etaBits p).toNat = .fin false e ∧ e ≠ 0 := by
    cases p
    · exact ⟨0x3EA1E89B, by decide, by decide⟩
    · exact ⟨0x3FD43D136248490F, by decide, by decide⟩
  obtain ⟨e, he, h0⟩ := heta
  rw [scaledCoord, he, ofInt, finish]
  split
  · rfl
  · simp [mulFp, h0]

theorem mapLabel_run (p : Precision) (j n : Nat) : mapLabel p j n = (symbolOf p j, n) := by
  simp [mapLabel, fmul, mulFp_eta, symbolOf]

/-- Computations that draw nothing, in order. -/
theorem each_of_run {α β : Type} {f : α → Draw β} {g : α → β} {as : List α}
    (h : ∀ a ∈ as, ∀ n, f a n = (g a, n)) (n : Nat) : Draw.each f as n = (as.map g, n) := by
  induction as generalizing n with
  | nil => rfl
  | cons a as ih =>
    obtain ⟨ha, has⟩ := List.forall_mem_cons.1 h
    simp [ha, ih has]

theorem exec_qamEnc {s : State} {q : Pending} (hp : s.pending = some q) :
    let n := q.a2.toNat
    exec .qamEnc s = .next (s.complete (s.checkMapping q.a1 q.a0 n q.a1 (2 * s.w * (2 * n))
      (.done (s.storeCs q.a1.toNat ((nibbles (s.loadBytes q.a0.toNat n)).map (symbolOf s.prec)))))) := by
  refine (State.perform_pending hp (qamEncResult s)).trans ?_
  rw [qamEncResult, State.drawing, each_of_run fun j _ => mapLabel_run s.prec j]
  rfl

/-- Settles O46: the checks, then the symbols of the labels of the bytes; nothing is drawn. -/
theorem qamEncMapsNibblesToSymbols : Obligations.QamEncMapsNibblesToSymbols := by
  unfold Obligations.QamEncMapsNibblesToSymbols
  intro s q hp n scaled symbol bytes
  obtain ⟨halign, hsrc, hdst, hdone⟩ := checkMapping_cases (exec_qamEnc hp)
  have hbytes : ((nibbles (s.loadBytes q.a0.toNat n)).map (symbolOf s.prec)).flatMap (cBytes s.prec) = bytes := by
    simp only [nibbles, List.map_flatMap, List.flatMap_assoc]
    simp [bytes, symbol, scaled, symbolOf, scaledCoord]
  refine ⟨by decide, halign, hsrc, hdst, fun hal hin0 hin1 => ⟨?length, ?stored⟩⟩
  case length =>
    rw [← hbytes, cBytes_flatMap_length]
    simp
  case stored =>
    rw [← hbytes]
    exact completesWith_of_storeBytes (hdone hal hin0 hin1)

/-! ### Packed labels -/

theorem packNibbles_eq_map (ls : List Nat) : packNibbles ls =
    (List.range (ls.length / 2)).map fun k => BitVec.ofNat 8 (ls.getD (2 * k) 0 * 16 + ls.getD (2 * k + 1) 0) := by
  induction ls using packNibbles.induct with
  | case1 hi lo rest ih =>
    have hlen : (hi :: lo :: rest).length / 2 = rest.length / 2 + 1 := by simp only [List.length_cons]; omega
    rw [packNibbles, ih, hlen, List.range_succ_eq_map]
    simp [Nat.mul_succ]
  | case2 ls h =>
    match ls, h with
    | [], _ => rfl
    | [a], _ => simp [packNibbles]
    | a :: b :: r, h => exact absurd rfl (h a b r)

/-- The bytes of `2n` labels given one by one. -/
theorem packNibbles_eq_of_getD {ls : List Nat} {n : Nat} {lab : Nat → Nat} (hlen : ls.length = 2 * n)
    (hlab : ∀ i < 2 * n, ls.getD i 0 = lab i) :
    packNibbles ls = (List.range n).map fun k => BitVec.ofNat 8 (lab (2 * k) * 16 + lab (2 * k + 1)) := by
  rw [packNibbles_eq_map, hlen, Nat.mul_div_cancel_left n two_pos]
  refine List.map_congr_left fun k hk => ?_
  rw [List.mem_range] at hk
  rw [hlab (2 * k) (by omega), hlab (2 * k + 1) (by omega)]

/-- Settles O48: the checks, then the first symbol without a label or the labels of all. -/
theorem qamDecHardPacksNearestLabels : Obligations.QamDecHardPacksNearestLabels := by
  unfold Obligations.QamDecHardPacksNearestLabels
  intro s q hp m out
  obtain ⟨halign, hsrc, hdst, hdone⟩ := checkMapping_cases (exec_qamDecHard hp)
  have hlen : out.1.length = 2 * (m / 2) := by simp [out]
  refine ⟨by decide, halign, hsrc, hdst, fun hal hin0 hin1 =>
    ⟨fun i hi hfirst => (hdone hal hin0 hin1).trans ?nearest, fun lab hlab => ?stored⟩⟩
  case nearest =>
    have hfind : out.1.findIdx? Option.isNone = some i := by
      obtain ⟨hlt, hget⟩ := List.getElem?_eq_some_iff.1 hi
      refine List.findIdx?_eq_some_iff_getElem.2 ⟨hlt, by simp [hget], fun j hj => ?_⟩
      have hne := hfirst j hj
      rw [List.getElem?_eq_getElem (hj.trans hlt), ne_eq, Option.some_inj, ← Option.isNone_iff_eq_none] at hne
      exact hne
    rw [State.drawing_fst, hfind]
    rfl
  case stored =>
    have hfind : out.1.findIdx? Option.isNone = none := by
      refine List.findIdx?_eq_none_iff.2 fun l hl => ?_
      obtain ⟨i, hlt, rfl⟩ := List.mem_iff_getElem.1 hl
      have hi := hlab i (hlen ▸ hlt)
      rw [List.getElem?_eq_getElem hlt, Option.some_inj] at hi
      rw [hi, Option.isNone_some]
    have hrun := hdone hal hin0 hin1
    rw [State.drawing_fst, hfind] at hrun
    have hpack := packNibbles_eq_of_getD (ls := out.1.map (·.getD 0)) (lab := lab) (by rw [List.length_map, hlen])
      fun i hi => by rw [List.getD_eq_getElem?_getD, List.getElem?_map, hlab i hi]; rfl
    rw [← hpack]
    exact completesWith_of_storeBytes hrun

/-! ### Soft decisions -/

theorem each_softNibble (p : Precision) (v : Fp) (zs : List Cx) (n : Nat) :
    Draw.each (softNibble p v) zs n =
      ((Draw.each (llr p v) zs n).1.map (softBits p), (Draw.each (llr p v) zs n).2) := by
  induction zs generalizing n with
  | nil => rfl
  | cons z zs ih => simp [softNibble, ih]

/-- The nibble of four LLRs, bit by bit (43_qam16.md R189). -/
theorem softBits_of_length {p : Precision} {ls : List Fp} (h : ls.length = 4) :
    let bit := fun k => if flt p Fp.zero (ls.getD k Fp.zero) then 2 ^ k else 0
    softBits p ls = bit 0 + bit 1 + bit 2 + bit 3 := by
  match ls, h with
  | [l0, l1, l2, l3], _ =>
    have hbit (l : Fp) (k : Nat) : (if flt p Fp.zero l then 2 ^ k else 0) = 2 ^ k * (fgt p l Fp.zero).toNat := by
      rw [fgt]
      cases flt p Fp.zero l <;> simp
    simp only [List.getD_cons_zero, List.getD_cons_succ, hbit, softBits]
    ring

theorem length_of_mem_each_llr {p : Precision} {v : Fp} {zs : List Cx} {n : Nat} :
    ∀ ls ∈ (Draw.each (llr p v) zs n).1, ls.length = 4 :=
  forall_mem_each (fun z n => llr_length p v z n) zs n

/-- Settles O50: the checks, then the nibble of the LLRs of each symbol. -/
theorem qamDecSoftPacksLlrSigns : Obligations.QamDecSoftPacksLlrSigns := by
  unfold Obligations.QamDecSoftPacksLlrSigns
  intro s q hp m out bit nib
  obtain ⟨halign, hsrc, hdst, hdone⟩ := checkMapping_cases (exec_qamDecSoft hp)
  refine ⟨by decide, halign, hsrc, hdst, fun hal hin0 hin1 => ?_⟩
  have hlen : out.1.length = 2 * (m / 2) := by simp [out]
  have hpack := packNibbles_eq_of_getD (ls := out.1.map (softBits s.prec)) (lab := nib)
    (by rw [List.length_map, hlen]) fun i hi => by
      rw [← hlen] at hi
      have h4 := length_of_mem_each_llr _ (List.getElem_mem hi)
      simp only [nib, bit, List.getD_eq_getElem?_getD (l := out.1), List.getD_eq_getElem?_getD (l := out.1.map _),
        List.getElem?_map, List.getElem?_eq_getElem hi, Option.map_some, Option.getD_some]
      exact softBits_of_length h4
  have hrun := hdone hal hin0 hin1
  rw [State.drawing, each_softNibble] at hrun
  rw [← hpack]
  exact completesWith_of_storeBytes hrun

/-- Settles O51: the checks of two regions, then the LLRs of each symbol. -/
theorem qamLlrWritesFourLlrsASymbol : Obligations.QamLlrWritesFourLlrsASymbol := by
  unfold Obligations.QamLlrWritesFourLlrsASymbol
  intro s q hp m out bytes
  have hrun := exec_qamLlr hp
  have hbytes : out.1.flatten.flatMap (fBytes s.prec) = bytes := by
    rw [List.flatten_eq_flatMap, List.flatMap_assoc]
    rfl
  refine ⟨by decide, checkRegions_srcMisaligned hrun, checkRegions_dstMisaligned hrun, checkRegions_srcOutside hrun,
    checkRegions_dstOutside hrun, fun hal0 hal1 hin0 hin1 => ⟨?length, length_of_mem_each_llr, ?stored⟩⟩
  case length =>
    rw [← hbytes, fBytes_flatMap_length, each_llr_flatten_length, State.loadCs_length]
    ring
  case stored =>
    rw [← hbytes]
    exact completesWith_of_storeBytes (checkRegions_passed hrun hal0 hal1 hin0 hin1)

end Sys2Proof.Machine
end

section
/-! Small integers in F: sums, differences and squares of them are exact, their order is that of the integers, and a
quotient of one by a finite value keeps its sign. -/

namespace Sys2Proof.Machine

/-! ### Their values in quanta -/

/-- The significand has room for `n`. -/
def SmallInt (p : Precision) (n : ℤ) : Prop := n.natAbs < 2 ^ (p.fracBits + 1)

theorem SmallInt.of_natAbs_le {p : Precision} {n : ℤ} (h : n.natAbs ≤ 144) : SmallInt p n := by
  have hroom : 144 < 2 ^ (p.fracBits + 1) := by cases p <;> decide
  exact h.trans_lt hroom

/-- The quanta of infinity's magnitude, which no finite one reaches. -/
theorem units_infMag (p : Precision) : units p p.infMag = 2 ^ (p.fracBits + infExp p - 1) := by
  have hexp := three_le_infExp p
  have hmag : p.infMag = (infExp p - 1) * 2 ^ p.fracBits + 2 ^ p.fracBits := by
    rw [infMag_eq, ← Nat.succ_mul, Nat.succ_eq_add_one, Nat.sub_add_cancel (by omega)]
  rw [hmag, units_shift p (Nat.pow_le_pow_right two_pos (Nat.le_succ _)) (.inr le_rfl), ← pow_add]
  congr 1
  omega

theorem finiteMag_of_units {p : Precision} {n m : Nat} (h : n < 2 ^ (p.fracBits + 1))
    (hm : units p m = n * 2 ^ p.scale) : FiniteMag p m := by
  rw [FiniteMag, ← (units_strictMono p).lt_iff_lt, hm, units_infMag]
  have hexp : p.fracBits + 1 + p.scale ≤ p.fracBits + infExp p - 1 := by cases p <;> decide
  calc n * 2 ^ p.scale < 2 ^ (p.fracBits + 1) * 2 ^ p.scale := Nat.mul_lt_mul_of_pos_right h (by positivity)
    _ ≤ 2 ^ (p.fracBits + infExp p - 1) := by rw [← pow_add]; exact Nat.pow_le_pow_right two_pos hexp

/-- `n` with its binary digits moved to the top of the significand. -/
theorem exists_units_eq (p : Precision) {n : Nat} (h : n < 2 ^ (p.fracBits + 1)) :
    ∃ m, units p m = n * 2 ^ p.scale := by
  rcases Nat.eq_zero_or_pos n with rfl | hpos
  · exact ⟨0, by simp⟩
  · have hlog : Nat.log2 n ≤ p.fracBits := Nat.lt_succ_iff.1 ((Nat.log2_lt hpos.ne').2 h)
    have hscale : p.fracBits ≤ p.scale := by cases p <;> decide
    have hlo : 2 ^ p.fracBits ≤ n * 2 ^ (p.fracBits - Nat.log2 n) := by
      calc 2 ^ p.fracBits = 2 ^ Nat.log2 n * 2 ^ (p.fracBits - Nat.log2 n) := by
            rw [← pow_add, Nat.add_sub_cancel' hlog]
        _ ≤ n * 2 ^ (p.fracBits - Nat.log2 n) := Nat.mul_le_mul_right _ (Nat.log2_self_le hpos.ne')
    have hhi : n * 2 ^ (p.fracBits - Nat.log2 n) ≤ 2 ^ (p.fracBits + 1) := by
      calc n * 2 ^ (p.fracBits - Nat.log2 n) ≤ 2 ^ (Nat.log2 n + 1) * 2 ^ (p.fracBits - Nat.log2 n) :=
            Nat.mul_le_mul_right _ Nat.lt_log2_self.le
        _ = 2 ^ (p.fracBits + 1) := by rw [← pow_add]; congr 1; omega
    refine ⟨_, (units_shift p (s := p.scale - (p.fracBits - Nat.log2 n)) hhi (.inr hlo)).trans ?_⟩
    rw [Nat.mul_assoc, ← pow_add]
    congr 2
    omega

theorem ofInt_small {p : Precision} {n : ℤ} (h : SmallInt p n) :
    ∃ m, ofInt p n = .fin (decide (n < 0)) m ∧ units p m = n.natAbs * 2 ^ p.scale ∧ FiniteMag p m := by
  obtain ⟨m, hm⟩ := exists_units_eq p h
  have hfin := finiteMag_of_units h hm
  have hround := roundMag_units_mul p m one_pos
  rw [Nat.mul_one, hm] at hround
  exact ⟨m, by rw [ofInt, hround, finish, if_pos hfin], hm, hfin⟩

theorem signedUnits_of_units {p : Precision} {n : ℤ} {m : Nat} (hm : units p m = n.natAbs * 2 ^ p.scale) :
    signedUnits p (decide (n < 0)) m = n * 2 ^ p.scale := by
  rw [signedUnits, hm]
  push_cast
  rcases lt_or_ge n 0 with hn | hn
  · simp [hn, abs_of_neg hn]
  · simp [hn.not_gt, abs_of_nonneg hn]

/-! ### The operations -/

theorem addFp_of_signedUnits {p : Precision} {a b : Bool} {x y : Nat} {m n : ℤ}
    (hx : signedUnits p a x = m * 2 ^ p.scale) (hy : signedUnits p b y = n * 2 ^ p.scale)
    (hzero : m + n = 0 → (a && b) = false) : addFp p (.fin a x) (.fin b y) = some (ofInt p (m + n)) := by
  have hsum : signedUnits p a x + signedUnits p b y = (m + n) * 2 ^ p.scale := by rw [hx, hy, add_mul]
  have hpos : (0 : ℤ) < 2 ^ p.scale := by positivity
  simp only [addFp, hsum]
  rcases eq_or_ne (m + n) 0 with h0 | h0
  · rw [h0, zero_mul, if_pos rfl, hzero h0, ofInt]
    simp
  · rw [if_neg (mul_ne_zero h0 hpos.ne'), ofInt, Int.natAbs_mul, Int.natAbs_pow]
    simp [mul_neg_iff, hpos, hpos.not_gt]

section
variable {p : Precision} {m n : ℤ}

theorem addFp_ofInt (hm : SmallInt p m) (hn : SmallInt p n) :
    addFp p (ofInt p m) (ofInt p n) = some (ofInt p (m + n)) := by
  obtain ⟨x, hx, hxu, -⟩ := ofInt_small hm
  obtain ⟨y, hy, hyu, -⟩ := ofInt_small hn
  rw [hx, hy]
  exact addFp_of_signedUnits (signedUnits_of_units hxu) (signedUnits_of_units hyu) fun h0 => by
    simp only [Bool.and_eq_false_iff, decide_eq_false_iff_not]
    omega

theorem subFp_ofInt (hm : SmallInt p m) (hn : SmallInt p n) :
    subFp p (ofInt p m) (ofInt p n) = some (ofInt p (m - n)) := by
  obtain ⟨x, hx, hxu, -⟩ := ofInt_small hm
  obtain ⟨y, hy, hyu, -⟩ := ofInt_small hn
  have hneg : signedUnits p (!decide (n < 0)) y = -n * 2 ^ p.scale := by
    rw [neg_mul, ← signedUnits_of_units hyu]
    cases decide (n < 0) <;> simp [signedUnits]
  rw [hx, hy, subFp_fin, sub_eq_add_neg]
  exact addFp_of_signedUnits (signedUnits_of_units hxu) hneg fun h0 => by
    simp only [Bool.and_eq_false_iff, decide_eq_false_iff_not, Bool.not_eq_false', decide_eq_true_eq]
    omega

theorem mulFp_ofInt_self (hm : SmallInt p m) (hsq : SmallInt p (m * m)) :
    mulFp p (ofInt p m) (ofInt p m) = some (ofInt p (m * m)) := by
  obtain ⟨x, hx, hxu, -⟩ := ofInt_small hm
  obtain ⟨y, hy, hyu, hfin⟩ := ofInt_small hsq
  have hprod : units p x * units p x = units p y * 2 ^ p.scale := by
    rw [hxu, hyu, Int.natAbs_mul]
    ring
  rw [hx, hy, mulFp_fin, hprod, roundMag_units_mul p y (by positivity), finish, if_pos hfin, Bool.xor_self,
    decide_eq_false (mul_self_nonneg m).not_gt]

theorem flt_ofInt (hm : SmallInt p m) (hn : SmallInt p n) : flt p (ofInt p m) (ofInt p n) = true ↔ m < n := by
  obtain ⟨x, hx, hxu, -⟩ := ofInt_small hm
  obtain ⟨y, hy, hyu, -⟩ := ofInt_small hn
  rw [hx, hy, flt_fin, signedUnits_of_units hxu, signedUnits_of_units hyu]
  exact mul_lt_mul_iff_left₀ (by positivity)

theorem flt_ofInt_inf (hm : SmallInt p m) : flt p (ofInt p m) (.inf false) = true := by
  obtain ⟨x, hx, -, hfin⟩ := ofInt_small hm
  rw [hx, flt_iff rfl rfl]
  exact (key_fin_bounds _ hfin).2

theorem one_le_roundMag (p : Precision) {num den : Nat} (hden : 0 < den) (h : den ≤ num) :
    1 ≤ roundMag p num den := by
  by_contra hlt
  obtain ⟨hle, -⟩ := roundMag_isNearest p num hden 1
  have hone : units p 1 = 1 := by
    have h1 := units_shift p (s := 0) (k := 1) Nat.one_le_two_pow (.inl rfl)
    simpa using h1
  have hX : (1 : ℝ) ≤ num / den := (one_le_div (by exact_mod_cast hden)).2 (by exact_mod_cast h)
  rw [Nat.lt_one_iff.1 (not_le.1 hlt), hone, units_zero, Nat.cast_zero, zero_sub, abs_neg, Nat.cast_one, abs_sub_comm,
    abs_of_nonneg (by linarith), abs_of_nonneg (by linarith)] at hle
  linarith

theorem flt_zero_finish (p : Precision) (neg : Bool) (x : Nat) :
    flt p Fp.zero (finish p neg x) = true ↔ neg = false ∧ 0 < x := by
  have hinf := infMag_pos p
  unfold finish
  split <;> rw [flt_iff rfl rfl]
  case isTrue => cases neg <;> simp
  case isFalse hx => cases neg <;> simp [hinf, hinf.trans_le (not_lt.1 hx)]

/-- The quotient of an integer by a finite value above 0 is above 0 exactly when the integer is: it does not round
to 0. -/
theorem divFp_ofInt_pos {v : Nat} (hm : SmallInt p m) (hv : 0 < v) (hfin : FiniteMag p v) :
    ∃ r, divFp p (ofInt p m) (.fin false v) = some r ∧ (flt p Fp.zero r = true ↔ 0 < m) := by
  obtain ⟨x, hx, hxu, -⟩ := ofInt_small hm
  have hden : 0 < units p v := Nat.pos_of_ne_zero (mt units_eq_zero.1 hv.ne')
  rw [hx, divFp_fin p _ _ _ hv.ne', Bool.xor_false]
  refine ⟨_, rfl, (flt_zero_finish ..).trans ⟨fun ⟨hneg, hround⟩ => ?_, fun hpos => ?_⟩⟩
  · refine (not_lt.1 (of_decide_eq_false hneg)).lt_of_ne fun h0 => ?_
    subst h0
    simp [hxu] at hround
  · have hexp : p.fracBits + infExp p - 1 ≤ p.scale + p.scale := by cases p <;> decide
    have hle : units p v ≤ units p x * 2 ^ p.scale := by
      calc units p v ≤ units p p.infMag := (units_strictMono p).monotone hfin.le
        _ ≤ 2 ^ p.scale * 2 ^ p.scale := by
            rw [units_infMag, ← pow_add]; exact Nat.pow_le_pow_right two_pos hexp
        _ ≤ units p x * 2 ^ p.scale := by
            rw [hxu]; exact Nat.mul_le_mul_right _ (Nat.le_mul_of_pos_left _ (by omega))
    exact ⟨decide_eq_false hpos.not_gt, one_le_roundMag p hden hle⟩

end

end Sys2Proof.Machine
end

section
/-! PROOFS of O53 and O52. SQRT10 takes each coordinate of a symbol back to the integer ETA scaled, so the distances of
a symbol are the squared distances of the grid, whole numbers, and only that from its own point is 0. -/

namespace Sys2Proof.Machine

/-! ### The distances of a symbol -/

/-- The squared distance of two points of the alphabet (43_qam16.md R180). -/
def gridDist (j i : Nat) : ℤ :=
  (pointX j - pointX i) * (pointX j - pointX i) + (pointY j - pointY i) * (pointY j - pointY i)

theorem gridDist_self (j : Nat) : gridDist j j = 0 := by simp [gridDist]

theorem gridDist_pos : ∀ j < 16, ∀ i < 16, i ≠ j → 0 < gridDist j i := by decide

theorem axisOf_natAbs_le (t : Nat) : (axisOf t).natAbs ≤ 3 := by
  unfold axisOf
  split_ifs <;> decide

theorem natAbs_sub_axisOf_le (t u : Nat) : (axisOf t - axisOf u).natAbs ≤ 6 := by
  have ht := axisOf_natAbs_le t
  have hu := axisOf_natAbs_le u
  omega

theorem natAbs_sq_sub_axisOf_le (t u : Nat) : ((axisOf t - axisOf u) * (axisOf t - axisOf u)).natAbs ≤ 36 := by
  rw [Int.natAbs_mul]
  exact Nat.mul_le_mul (natAbs_sub_axisOf_le t u) (natAbs_sub_axisOf_le t u)

theorem gridDist_natAbs_le (j i : Nat) : (gridDist j i).natAbs ≤ 72 := by
  have hx := natAbs_sq_sub_axisOf_le (j / 4 % 4) (i / 4 % 4)
  have hy := natAbs_sq_sub_axisOf_le (j % 4) (i % 4)
  exact (Int.natAbs_add_le _ _).trans (Nat.add_le_add hx hy)

/-- Both roundings together lose nothing on the four coordinates (43_qam16.md R181, R185). -/
theorem mulFp_scaledCoord_sqrt10 (p : Precision) (t : Nat) :
    mulFp p (scaledCoord p (axisOf t)) (Fp.ofBits p (sqrt10Bits p).toNat) = some (ofInt p (axisOf t)) := by
  have hall : ∀ c ∈ ([-3, -1, 1, 3] : List ℤ),
      mulFp p (scaledCoord p c) (Fp.ofBits p (sqrt10Bits p).toNat) = some (ofInt p c) := by
    cases p <;> decide +kernel
  refine hall _ ?_
  unfold axisOf
  split_ifs <;> decide

theorem distTo_grid (p : Precision) (j i n : Nat) :
    distTo p ⟨ofInt p (pointX j), ofInt p (pointY j)⟩ i n = (ofInt p (gridDist j i), n) := by
  have hcoord (t : Nat) : SmallInt p (axisOf t) := .of_natAbs_le ((axisOf_natAbs_le t).trans (by decide))
  have hdiff (t u : Nat) : SmallInt p (axisOf t - axisOf u) :=
    .of_natAbs_le ((natAbs_sub_axisOf_le t u).trans (by decide))
  have hsq (t u : Nat) : SmallInt p ((axisOf t - axisOf u) * (axisOf t - axisOf u)) :=
    .of_natAbs_le ((natAbs_sq_sub_axisOf_le t u).trans (by decide))
  simp only [distTo, pointX, pointY, gridDist, fsub, fmul, fadd, Draw.bind_run, settle_some,
    subFp_ofInt (hcoord _) (hcoord _), mulFp_ofInt_self (hdiff _ _) (hsq _ _), addFp_ofInt (hsq _ _) (hsq _ _)]

/-- The distances of the symbol of `j`, by label. -/
def gridDists (p : Precision) (j : Nat) : List Fp := (List.range 16).map fun i => ofInt p (gridDist j i)

theorem dist_symbolOf (p : Precision) (j n : Nat) : dist p (symbolOf p j) n = (gridDists p j, n) := by
  simp only [dist, symbolOf, pointX, pointY, fmul, mulFp_scaledCoord_sqrt10, Draw.bind_run, settle_some]
  exact each_of_run (fun i _ => distTo_grid p j i) n

theorem getElem?_gridDists_eq_some_iff {p : Precision} {j i : Nat} {d : Fp} :
    (gridDists p j)[i]? = some d ↔ i < 16 ∧ ofInt p (gridDist j i) = d := by
  rw [gridDists, List.getElem?_map, Option.map_eq_some_iff]
  simp [List.getElem?_eq_some_iff]

theorem smallInt_gridDist (p : Precision) (j i : Nat) : SmallInt p (gridDist j i) :=
  .of_natAbs_le ((gridDist_natAbs_le j i).trans (by decide))

theorem flt_gridDist {p : Precision} {j i i' : Nat} :
    flt p (ofInt p (gridDist j i)) (ofInt p (gridDist j i')) = true ↔ gridDist j i < gridDist j i' :=
  flt_ofInt (smallInt_gridDist p j i) (smallInt_gridDist p j i')

/-! ### Hard and soft decision -/

theorem nearest_symbolOf (p : Precision) {j : Nat} (hj : j < 16) (n : Nat) :
    nearest p (symbolOf p j) n = (some j, n) := by
  obtain ⟨-, hscan⟩ := nearestIsTheLowestClosestLabel
  obtain ⟨hsome, hnone⟩ := hscan p (gridDists p j)
  have hown : (gridDists p j)[j]? = some (ofInt p (gridDist j j)) := getElem?_gridDists_eq_some_iff.2 ⟨hj, rfl⟩
  rw [nearest, Draw.bind_run, dist_symbolOf, Draw.pure_run]
  cases hlab : nearestScan p 0 (.inf false) none (gridDists p j) with
  | none =>
    have hinf := hnone.1 hlab _ (List.mem_of_getElem? hown)
    rw [flt_ofInt_inf (smallInt_gridDist p j j)] at hinf
    cases hinf
  | some i =>
    obtain ⟨di, hi, -, hleast⟩ := hsome i hlab
    obtain ⟨hi16, rfl⟩ := getElem?_gridDists_eq_some_iff.1 hi
    obtain ⟨hle, -⟩ := hleast j _ hown
    rw [← Bool.not_eq_true, flt_gridDist, gridDist_self] at hle
    rw [not_imp_comm.1 (gridDist_pos j hj i hi16) hle]

/-- A minimum of the LLRs of a symbol is the distance of one of the nearest labels with the bit. -/
theorem minWithBit_gridDists (p : Precision) (j : Nat) {k : Nat} (hk : k < 4) (b : Bool) :
    ∃ i < 16, i.testBit k = b ∧ minWithBit p k b 0 (.inf false) (gridDists p j) = ofInt p (gridDist j i) ∧
      ∀ i' < 16, i'.testBit k = b → gridDist j i ≤ gridDist j i' := by
  obtain ⟨hmin, hleast, -⟩ := llrIsTheScaledDifferenceOfMinima p k b (gridDists p j)
  have hexists : ∀ k < 4, ∀ b, ∃ i < 16, i.testBit k = b := by decide
  rcases hmin with hinf | ⟨-, i, hi, hb, -⟩
  · obtain ⟨i, hi, hb⟩ := hexists k hk b
    have hlt := hleast i _ (getElem?_gridDists_eq_some_iff.2 ⟨hi, rfl⟩) hb
    rw [hinf, flt_ofInt_inf (smallInt_gridDist p j i)] at hlt
    cases hlt
  · obtain ⟨hi16, hm⟩ := getElem?_gridDists_eq_some_iff.1 hi
    refine ⟨i, hi16, hb, hm.symm, fun i' hi' hb' => not_lt.1 fun hlt => ?_⟩
    have hle := hleast i' _ (getElem?_gridDists_eq_some_iff.2 ⟨hi', rfl⟩) hb'
    rw [← hm, flt_gridDist.2 hlt] at hle
    cases hle

/-- An LLR of a symbol is above 0 exactly where the label's bit is set (43_qam16.md R188, R189). -/
theorem llrBit_gridDists {p : Precision} {v j k : Nat} (hj : j < 16) (hk : k < 4) (hv : 0 < v) (hfin : FiniteMag p v) :
    ∃ r, (∀ n, llrBit p (.fin false v) (gridDists p j) k n = (r, n)) ∧ fgt p r Fp.zero = j.testBit k := by
  obtain ⟨i0, hi0, hb0, hm0, hle0⟩ := minWithBit_gridDists p j hk false
  obtain ⟨i1, hi1, hb1, hm1, hle1⟩ := minWithBit_gridDists p j hk true
  have hsmall : SmallInt p (gridDist j i0 - gridDist j i1) := by
    have h0 := gridDist_natAbs_le j i0
    have h1 := gridDist_natAbs_le j i1
    exact .of_natAbs_le (by omega)
  obtain ⟨r, hr, hpos⟩ := divFp_ofInt_pos hsmall hv hfin
  refine ⟨r, fun n => ?run, Bool.eq_iff_iff.2 (hpos.trans ?sign)⟩
  case run =>
    rw [llrBit, Draw.bind_run, hm0, hm1, fsub, subFp_ofInt (smallInt_gridDist p j i0) (smallInt_gridDist p j i1),
      settle_some, fdiv, hr, settle_some]
  case sign =>
    cases hb : j.testBit k with
    | false =>
      have hself := hle0 j hj hb
      have hother := gridDist_pos j hj i1 hi1 fun h => by simp [← h, hb1] at hb
      rw [gridDist_self] at hself
      exact iff_of_false (by omega) Bool.false_ne_true
    | true =>
      have hself := hle1 j hj hb
      have hother := gridDist_pos j hj i0 hi0 fun h => by simp [← h, hb0] at hb
      rw [gridDist_self] at hself
      exact iff_of_true (by omega) rfl

theorem softNibble_symbolOf {p : Precision} {j v : Nat} (hj : j < 16) (hv : 0 < v) (hfin : FiniteMag p v) (n : Nat) :
    softNibble p (.fin false v) (symbolOf p j) n = (j, n) := by
  have hne : Nonempty Fp := ⟨Fp.zero⟩
  choose! r hrun hbit using fun k hk => llrBit_gridDists (k := k) hj hk hv hfin
  have hbits : ∀ j < 16, (j.testBit 0).toNat + 2 * ((j.testBit 1).toNat + 2 * ((j.testBit 2).toNat +
      2 * ((j.testBit 3).toNat + 2 * 0))) = j := by decide
  have hllrs : Draw.each (llrBit p (.fin false v) (gridDists p j)) (List.range 4) n = ([r 0, r 1, r 2, r 3], n) :=
    each_of_run (fun k hk => hrun k (List.mem_range.1 hk)) n
  rw [softNibble, Draw.bind_run, llr, Draw.bind_run, dist_symbolOf, hllrs, Draw.pure_run]
  simp only [softBits, hbit 0 (by decide), hbit 1 (by decide), hbit 2 (by decide), hbit 3 (by decide), hbits j hj]

/-- Settles O53: on the symbol of a label neither decision draws, and both give the label. -/
theorem softDecisionEqualsHardOnCleanSymbols : Obligations.SoftDecisionEqualsHardOnCleanSymbols := by
  unfold Obligations.SoftDecisionEqualsHardOnCleanSymbols
  intro p j v n n' hj hv hfin
  rw [mapLabel_run, nearest_symbolOf p hj, softNibble_symbolOf hj hv hfin]
  exact ⟨rfl, rfl⟩

/-! ### Decoding what was encoded -/

theorem mulFp_canonical {p : Precision} {x y v : Fp} (h : mulFp p x y = some v) : Fp.Canonical p v := by
  unfold mulFp at h
  split at h
  case h_1 | h_2 => cases h
  case h_3 => cases h; exact Fp.canonical_inf p _
  case h_4 | h_5 =>
    split at h
    · cases h
    · cases h; exact Fp.canonical_inf p _
  case h_6 => cases h; exact finish_canonical p _ _

theorem symbolOf_canonical (p : Precision) (j : Nat) : Cx.Canonical p (symbolOf p j) :=
  ⟨mulFp_canonical (mulFp_eta p _), mulFp_canonical (mulFp_eta p _)⟩

theorem nibble_lt_of_mem {bs : List Byte} : ∀ j ∈ nibbles bs, j < 16 := by
  intro j hj
  obtain ⟨b, -, hb⟩ := List.mem_flatMap.1 hj
  have hlt := b.isLt
  simp only [List.mem_cons, List.not_mem_nil, or_false] at hb
  omega

theorem packNibbles_nibbles (bs : List Byte) : packNibbles (nibbles bs) = bs := by
  induction bs with
  | nil => rfl
  | cons b bs ih =>
    have hb : BitVec.ofNat 8 (b.toNat / 2 ^ 4 * 2 ^ 4 + b.toNat % 2 ^ 4) = b := by
      rw [Nat.div_add_mod', BitVec.ofNat_toNat, BitVec.setWidth_eq]
    show BitVec.ofNat 8 _ :: packNibbles (nibbles bs) = _
    rw [hb, ih]

theorem each_nearest_symbols (p : Precision) {ls : List Nat} (h : ∀ j ∈ ls, j < 16) (n : Nat) :
    Draw.each (nearest p) (ls.map (symbolOf p)) n = (ls.map some, n) := by
  induction ls with
  | nil => rfl
  | cons j ls ih =>
    obtain ⟨hj, hls⟩ := List.forall_mem_cons.1 h
    simp [nearest_symbolOf p hj, ih hls]

/-- What QAM_ENC has checked and stored when it completes OK (43_qam16.md R184). -/
theorem qamEnc_of_code_ok {s t : State} {q : Pending} (hp : s.pending = some q) (ht : exec .qamEnc s = .next t)
    (hok : t.code = .ok) :
    let n := q.a2.toNat
    s.Aligned q.a1 ∧ s.InRange q.a1 (2 * s.w * (2 * n)) ∧ t.build = s.build ∧
      t.loadCs q.a1.toNat (2 * n) = (nibbles (s.loadBytes q.a0.toNat n)).map (symbolOf s.prec) := by
  intro n
  obtain ⟨halign, hsrc, hdst, hdone⟩ := checkMapping_cases (exec_qamEnc hp)
  have hal := of_code_ok ht hok (by decide) halign
  have hin0 := of_code_ok ht hok (by decide) (hsrc hal)
  have hin1 := of_code_ok ht hok (by decide) (hdst hal hin0)
  obtain ⟨t', ht', hfields, hlmem⟩ := completesWith_of_storeBytes (hdone hal hin0 hin1)
  cases ht.symm.trans ht'
  have hbuild : t.build = s.build := by rw [hfields]
  have hload := State.LmemIs.loadCs_append (pre := []) hlmem hbuild fun z hz => by
    obtain ⟨j, -, rfl⟩ := List.mem_map.1 hz
    exact symbolOf_canonical s.prec j
  exact ⟨hal, hin1, hbuild, by simpa using hload⟩

/-- QAM_DEC_HARD of the symbols of the bytes `bs` (43_qam16.md R187). -/
theorem qamDecHard_of_symbols {r : State} {d : Pending} {b : Build} {bs : List Byte} (hp : r.pending = some d)
    (hb : r.build = b) (hm : d.a2.toNat = 2 * bs.length) (hal : d.a0.toNat % b.precision.width = 0)
    (hin0 : d.a0.toNat + 2 * b.precision.width * (2 * bs.length) ≤ b.memBytes)
    (hin1 : d.a1.toNat + bs.length ≤ b.memBytes)
    (hload : r.loadCs d.a0.toNat (2 * bs.length) = (nibbles bs).map (symbolOf b.precision)) :
    CompletesWith .qamDecHard r r d.a1.toNat bs := by
  subst hb
  obtain ⟨-, -, -, hdone⟩ := checkMapping_cases (exec_qamDecHard hp)
  rw [hm, Nat.mul_div_cancel_left _ two_pos] at hdone
  have hrun := hdone hal hin0 hin1
  have hfind : ((nibbles bs).map some).findIdx? Option.isNone = none := by simp
  have hpack : packNibbles (((nibbles bs).map some).map (·.getD 0)) = bs := by simp [packNibbles_nibbles]
  rw [State.drawing, hload, each_nearest_symbols _ nibble_lt_of_mem, hfind, hpack] at hrun
  exact completesWith_of_storeBytes hrun

/-- Settles O52: the stored symbols are read as they were, and the nearest label of each is its own. -/
theorem hardDecodingInvertsEncoding : Obligations.HardDecodingInvertsEncoding := by
  unfold Obligations.HardDecodingInvertsEncoding
  intro s t q d hp ht hok ha0 hm hin
  obtain ⟨hal, hin1, hbuild, hload⟩ := qamEnc_of_code_ok hp ht hok
  have hlen : (s.loadBytes q.a0.toNat q.a2.toNat).length = q.a2.toNat := State.loadBytes_length ..
  generalize s.loadBytes q.a0.toNat q.a2.toNat = bs at hload hlen ⊢
  rw [← hlen] at hm hin hin1 hload ⊢
  rw [← ha0] at hal hin1 hload
  obtain ⟨u, hu, hfields, hlmem⟩ :=
    qamDecHard_of_symbols (r := { t with pending := some d }) rfl hbuild hm hal hin1 hin hload
  exact ⟨u, hu, by rw [hfields], hlmem.loadBytes⟩

end Sys2Proof.Machine
end

section
/-! PROOFS of O54 and O55: both commands compute one SNR from the dB value; only AWGN_INIT seeds. -/

namespace Sys2Proof.Machine

section
variable {s : State} {q : Pending} (hp : s.pending = some q)
include hp

theorem exec_awgnSnr_notInit (hv : s.awgn.valid = false) : exec .awgnSnr s = .next (s.failed .notInit 0) := by
  refine (State.perform_pending hp (awgnSnrResult s)).trans ?_
  rw [awgnSnrResult, hv]
  rfl

theorem exec_awgnSnr (hv : s.awgn.valid = true) :
    let snr := s.drawing (linearSnr s.prec (q.farg s.prec))
    exec .awgnSnr s =
      .next (s.complete (.done { snr.2 with awgn := { s.awgn with snr := snr.1.toBits s.prec } })) := by
  refine (State.perform_pending hp (awgnSnrResult s)).trans ?_
  rw [awgnSnrResult, hv]
  rfl

end

/-- Settles O54: the quotient is drawn first, then the seed, which is A3 or one more free value. -/
theorem awgnInitSetsSnrAndSeed : Obligations.AwgnInitSetsSnrAndSeed := by
  unfold Obligations.AwgnInitSetsSnrAndSeed
  intro s q given hp x seed
  have hrun := State.perform_pending hp (awgnInitResult s given)
  cases given with
  | true => exact ⟨by decide, hrun⟩
  | false => exact ⟨by decide, hrun⟩

/-- Settles O55: the AWGN state is valid or not, and a valid one has only its SNR written. -/
theorem awgnSnrKeepsTheGenerator : Obligations.AwgnSnrKeepsTheGenerator := by
  unfold Obligations.AwgnSnrKeepsTheGenerator
  intro s q hp x
  refine ⟨by decide, exec_awgnSnr_notInit hp, fun hv => (exec_awgnSnr hp hv).trans ?_⟩
  rw [← hv]
  rfl

end Sys2Proof.Machine
end

section
/-! PROOF of O56: behind NOT_INIT lie the checks of two regions, then the overlap; what is left is two stores. -/

namespace Sys2Proof.Machine

/-! ### The overlap -/

/-- Two regions that share a byte share the greater of their first ones. -/
theorem overlaps_iff {a b n : Nat} : overlaps a b n = true ↔ ∃ x, (a ≤ x ∧ x < a + n) ∧ (b ≤ x ∧ x < b + n) := by
  simp only [overlaps, Bool.and_eq_true, decide_eq_true_eq]
  constructor
  · rintro ⟨⟨hn, hab⟩, hba⟩
    exact ⟨max a b, by omega, by omega⟩
  · rintro ⟨x, ha, hb⟩
    omega

/-! ### The run of AWGN_APPLY -/

/-- What AWGN_APPLY computes from the signal of a state, with the new draw count. -/
def State.noiseRun (s : State) (unit : Bool) (q : Pending) : (List Cx × List Cx × Nat) × Nat :=
  applyNoise s.prec unit (Fp.ofBits s.prec s.awgn.snr.toNat) s.awgn.gen (s.loadCs q.a0.toNat q.a2.toNat) s.draws

/-- The state with the new signal stored, then the noise, and the generator moved on (44_awgn.md R217). -/
def State.withNoise (s : State) (unit : Bool) (q : Pending) : State :=
  let out := s.noiseRun unit q
  (({ s with draws := out.2, awgn := { s.awgn with gen := out.1.2.2 } } : State).storeCs q.a0.toNat out.1.1).storeCs
    q.a1.toNat out.1.2.1

theorem State.noiseRun_lengths (s : State) (unit : Bool) (q : Pending) :
    (s.noiseRun unit q).1.1.length = q.a2.toNat ∧ (s.noiseRun unit q).1.2.1.length = q.a2.toNat := by
  have h := applyNoise_lengths s.prec unit (Fp.ofBits s.prec s.awgn.snr.toNat) s.awgn.gen
    (s.loadCs q.a0.toNat q.a2.toNat) s.draws
  rwa [State.loadCs_length] at h

section
variable {s : State} {q : Pending} (hp : s.pending = some q) (unit : Bool)
include hp

theorem exec_awgnApply_notInit (hv : s.awgn.valid = false) :
    exec (.awgnApply unit) s = .next (s.failed .notInit 0) := by
  refine (State.perform_pending hp (awgnApplyResult s unit)).trans ?_
  rw [awgnApplyResult, hv]
  rfl

theorem exec_awgnApply (hv : s.awgn.valid = true) :
    let n := 2 * s.w * q.a2.toNat
    exec (.awgnApply unit) s = .next (s.complete (s.checkRegions q.a0 n q.a1 n
      (if overlaps q.a0.toNat q.a1.toNat n then .raise .badOverlap q.a1
        else if q.a2.toNat = 0 then .done s else .done (s.withNoise unit q)))) := by
  refine (State.perform_pending hp (awgnApplyResult s unit)).trans ?_
  rw [awgnApplyResult, hv]
  rfl

end

/-- No check stops the command, and there are samples. -/
theorem exec_awgnApply_passed {s : State} {q : Pending} (hp : s.pending = some q) (unit : Bool)
    (hv : s.awgn.valid = true) (hal0 : s.Aligned q.a0) (hal1 : s.Aligned q.a1)
    (hin0 : s.InRange q.a0 (2 * s.w * q.a2.toNat)) (hin1 : s.InRange q.a1 (2 * s.w * q.a2.toNat))
    (hshare : ¬ overlaps q.a0.toNat q.a1.toNat (2 * s.w * q.a2.toNat) = true) (hl : 0 < q.a2.toNat) :
    exec (.awgnApply unit) s = .next (s.complete (.done (s.withNoise unit q))) := by
  rw [checkRegions_passed (exec_awgnApply hp unit hv) hal0 hal1 hin0 hin1, if_neg hshare, if_neg hl.ne']

/-! ### The two stores -/

/-- A byte after a store of `n` bytes. -/
theorem State.loadB_storeBytes_of_length (s : State) (a x : Nat) {bs : List Byte} {n : Nat} (h : bs.length = n) :
    (s.storeBytes a bs).loadB x = if a ≤ x ∧ x < a + n then bs.getD (x - a) 0 else s.loadB x := by
  subst h
  split
  next hx =>
    have hlt : x - a < bs.length := by omega
    rw [State.loadB_storeBytes, if_pos hx.1, List.getD_eq_getElem _ _ hlt, List.getD_eq_getElem _ _ hlt]
  next hx => exact State.loadB_storeBytes_outside s (by omega)

/-- Settles O56: NOT_INIT, the two regions, the overlap, an `L` of 0, then every byte after both stores. -/
theorem awgnApplyAddsAndReturnsNoise : Obligations.AwgnApplyAddsAndReturnsNoise := by
  unfold Obligations.AwgnApplyAddsAndReturnsNoise
  intro s q unit hp l n sa na share out signal noise fails
  have hrun := exec_awgnApply hp unit
  refine ⟨by cases unit <;> decide, exec_awgnApply_notInit hp unit,
    fun hv => checkRegions_srcMisaligned (hrun hv), fun hv => checkRegions_dstMisaligned (hrun hv),
    fun hv => checkRegions_srcOutside (hrun hv), fun hv => checkRegions_dstOutside (hrun hv),
    fun hv hal0 hal1 hin0 hin1 hshare => ?overlap, fun hv hal0 hal1 hin0 hin1 hl => ?empty,
    fun hv hal0 hal1 hin0 hin1 hshare hl => ?done⟩
  case overlap =>
    refine (checkRegions_passed (hrun hv) hal0 hal1 hin0 hin1).trans ?_
    rw [if_pos (overlaps_iff.2 hshare)]
    rfl
  case empty =>
    have hnone : ¬ overlaps sa na n = true := by
      have hn : n = 0 := by simp [n, hl]
      rw [overlaps_iff]
      omega
    refine (checkRegions_passed (hrun hv) hal0 hal1 hin0 hin1).trans ?_
    rw [if_neg hnone, if_pos hl]
    rfl
  case done =>
    obtain ⟨hsig, hadd⟩ := s.noiseRun_lengths unit q
    have hsignal : signal.length = n := (cBytes_flatMap_length ..).trans (congrArg _ hsig)
    have hnoise : noise.length = n := (cBytes_flatMap_length ..).trans (congrArg _ hadd)
    refine ⟨hsignal, hnoise, _,
      exec_awgnApply_passed hp unit hv hal0 hal1 hin0 hin1 (hshare ∘ overlaps_iff.1) hl, rfl, fun x => ?_⟩
    calc (s.withNoise unit q).loadB x
      _ = ((s.storeBytes sa signal).storeBytes na noise).loadB x := rfl
      _ = if na ≤ x ∧ x < na + n then noise.getD (x - na) 0
          else if sa ≤ x ∧ x < sa + n then signal.getD (x - sa) 0 else s.loadB x := by
        rw [State.loadB_storeBytes_of_length _ _ _ hnoise, State.loadB_storeBytes_of_length _ _ _ hsignal]

end Sys2Proof.Machine
end

section
/-! PROOF of O57: two generator steps a sample, said once of the loop over samples; the products are values that their
encodings give back, so the noise region reads as the noise. -/

namespace Sys2Proof.Machine

/-- The same items under another name. -/
theorem each_map {α β γ : Type} (f : β → Draw γ) (g : α → β) (as : List α) :
    Draw.each f (as.map g) = Draw.each (f ∘ g) as := by
  induction as with
  | nil => rfl
  | cons a as ih =>
    rw [List.map_cons, Draw.each, ih]
    rfl

/-! ### The draws of the generator -/

/-- The generator state after `k` samples (44_awgn.md R211). -/
def genAfter (p : Precision) (k g : Nat) : Nat := (fun g => (nextNormal p g).2)^[k] g

/-- Sample `k` of the noise, of draws `2k` and `2k + 1` (R216). -/
def noiseSample (p : Precision) (std : Fp) (g k : Nat) : Draw Cx := do
  let re ← fmul p std (nextNormal p (genAfter p (2 * k) g)).1
  let im ← fmul p std (nextNormal p (genAfter p (2 * k + 1) g)).1
  pure ⟨re, im⟩

theorem genAfter_add_two (p : Precision) (k g : Nat) :
    genAfter p (k + 2) g = genAfter p k (nextNormal p (nextNormal p g).2).2 := rfl

theorem noiseSample_succ (p : Precision) (std : Fp) (g k : Nat) :
    noiseSample p std g (k + 1) = noiseSample p std (nextNormal p (nextNormal p g).2).2 k := rfl

/-- The loop over samples makes sample 0 and goes on two generator steps later. -/
theorem noiseSamples_eq_each (p : Precision) (std : Fp) (l g n : Nat) :
    noiseSamples p std l g n =
      (((Draw.each (noiseSample p std g) (List.range l) n).1, genAfter p (2 * l) g),
        (Draw.each (noiseSample p std g) (List.range l) n).2) := by
  induction l generalizing g n with
  | zero => rfl
  | succ l ih =>
    have hshift : noiseSample p std g ∘ Nat.succ = noiseSample p std (nextNormal p (nextNormal p g).2).2 :=
      funext (noiseSample_succ p std g)
    rw [List.range_succ_eq_map, Draw.each_cons, each_map, hshift, Nat.mul_succ, genAfter_add_two]
    simp only [noiseSamples, Draw.bind_run, Draw.pure_run, ih]
    rfl

theorem noiseSample_canonical (p : Precision) (std : Fp) (g k n : Nat) :
    Cx.Canonical p (noiseSample p std g k n).1 :=
  ⟨settle_canonical (fun _ => mulFp_canonical) _, settle_canonical (fun _ => mulFp_canonical) _⟩

/-! ### The noise of AWGN_APPLY -/

/-- The deviation from the power, 1 or the signal's (44_awgn.md R214, R215). -/
def signalStd (p : Precision) (unit : Bool) (snr : Fp) (zs : List Cx) : Draw Fp :=
  (if unit then pure (ofInt p 1) else sigPow p zs) >>= fun power => noiseStd p power snr

/-- Samples that their encodings give back, read where they were stored. -/
theorem State.loadCs_storeCs (s : State) (a : Nat) {zs : List Cx} (h : ∀ z ∈ zs, Cx.Canonical s.prec z) :
    (s.storeCs a zs).loadCs a zs.length = zs := by
  refine State.loadCs_of_loadBytes h ?_
  rw [← cBytes_flatMap_length]
  exact State.loadBytes_storeBytes s a _

/-- The noise and the generator state of R216, with the deviation of the signal. -/
theorem applyNoise_noise (p : Precision) (unit : Bool) (snr : Fp) (g : Nat) (zs : List Cx) (n : Nat) :
    let std := signalStd p unit snr zs n
    (applyNoise p unit snr g zs n).1.2.1 =
        (Draw.each (noiseSample p std.1 g) (List.range zs.length) std.2).1 ∧
      (applyNoise p unit snr g zs n).1.2.2 = genAfter p (2 * zs.length) g := by
  intro std
  have hloop := noiseSamples_eq_each p std.1 zs.length g std.2
  cases unit with
  | true => exact ⟨congrArg (·.1.1) hloop, congrArg (·.1.2) hloop⟩
  | false => exact ⟨congrArg (·.1.1) hloop, congrArg (·.1.2) hloop⟩

section
variable (s : State) (unit : Bool) (q : Pending)

theorem State.noiseRun_noise :
    let l := q.a2.toNat
    let std := signalStd s.prec unit (Fp.ofBits s.prec s.awgn.snr.toNat) (s.loadCs q.a0.toNat l) s.draws
    (s.noiseRun unit q).1.2.1 = (Draw.each (noiseSample s.prec std.1 s.awgn.gen) (List.range l) std.2).1 ∧
      (s.noiseRun unit q).1.2.2 = genAfter s.prec (2 * l) s.awgn.gen := by
  have h := applyNoise_noise s.prec unit (Fp.ofBits s.prec s.awgn.snr.toNat) s.awgn.gen
    (s.loadCs q.a0.toNat q.a2.toNat) s.draws
  rwa [State.loadCs_length] at h

theorem State.noiseRun_canonical : ∀ z ∈ (s.noiseRun unit q).1.2.1, Cx.Canonical s.prec z := by
  obtain ⟨hnoise, -⟩ := s.noiseRun_noise unit q
  rw [hnoise]
  exact forall_mem_each (fun k n => noiseSample_canonical _ _ _ k n) _ _

/-- The noise region of R217 reads as the noise: it is stored last. -/
theorem State.loadCs_withNoise :
    (s.withNoise unit q).loadCs q.a1.toNat q.a2.toNat = (s.noiseRun unit q).1.2.1 := by
  obtain ⟨-, hlen⟩ := s.noiseRun_lengths unit q
  conv_lhs => rw [← hlen]
  exact State.loadCs_storeCs _ _ (s.noiseRun_canonical unit q)

end

/-- Settles O57: the loop takes two draws a sample, and the noise region is read as it was stored. -/
theorem noiseTakesTwoDrawsASample : Obligations.NoiseTakesTwoDrawsASample := by
  unfold Obligations.NoiseTakesTwoDrawsASample
  refine ⟨noiseSamples_eq_each, ?_⟩
  intro s q unit hp l next z power std noise hv hal0 hal1 hin0 hin1 hl hapart
  have hshare : ¬ overlaps q.a0.toNat q.a1.toNat (2 * s.w * l) = true := by
    rw [overlaps_iff]
    omega
  have hrun := exec_awgnApply_passed hp unit hv hal0 hal1 hin0 hin1 hshare hl
  obtain ⟨hnoise, hgen⟩ := s.noiseRun_noise unit q
  exact ⟨_, hrun, rfl, hgen, (s.loadCs_withNoise unit q).trans hnoise⟩

end Sys2Proof.Machine
end

section
/-! PROOF of O58: the sum runs in index order, and the operations of the worked example give no NaN. -/

namespace Sys2Proof.Machine

/-- The accumulator goes from the first samples to the rest. -/
theorem sumPower_append (p : Precision) (acc : Fp) (xs ys : List Cx) :
    sumPower p acc (xs ++ ys) = sumPower p acc xs >>= fun acc => sumPower p acc ys := by
  induction xs generalizing acc with
  | nil => rfl
  | cons x xs ih => simp only [List.cons_append, sumPower, ih, bind_assoc]

/-! ### Operations whose results are not NaNs draw nothing -/

section
variable {p : Precision} {x y v : Fp}

theorem fadd_run (h : addFp p x y = some v) (n : Nat) : fadd p x y n = (v, n) := by rw [fadd, h, settle_some]

theorem fmul_run (h : mulFp p x y = some v) (n : Nat) : fmul p x y n = (v, n) := by rw [fmul, h, settle_some]

theorem fdiv_run (h : divFp p x y = some v) (n : Nat) : fdiv p x y n = (v, n) := by rw [fdiv, h, settle_some]

theorem fsqrt_run (h : sqrtFp p x = some v) (n : Nat) : fsqrt p x n = (v, n) := by rw [fsqrt, h, settle_some]

end

theorem noiseStd_run {p : Precision} {power snr d var std : Fp} (hd : mulFp p (ofInt p 2) snr = some d)
    (hvar : divFp p power d = some var) (hstd : sqrtFp p var = some std) (n : Nat) :
    noiseStd p power snr n = (std, n) := by
  simp only [noiseStd, Draw.bind_run, fmul_run hd, fdiv_run hvar, fsqrt_run hstd]

theorem writtenAdd_run {p : Precision} {a c : Cx} {re im : Fp} (hre : addFp p a.re c.re = some re)
    (him : addFp p a.im c.im = some im) (n : Nat) : writtenAdd p a c n = (⟨re, im⟩, n) := by
  simp only [writtenAdd, Draw.bind_run, Draw.pure_run, fadd_run hre, fadd_run him]

/-- Settles O58: the equations of the definitions, one more sample at the end, and the example, operation by
operation: `2 × 10 = 20`, `1 ÷ 20`, its root, the two products and the two sums. -/
theorem noiseDeviationFromPowerAndSnr : Obligations.NoiseDeviationFromPowerAndSnr := by
  unfold Obligations.NoiseDeviationFromPowerAndSnr
  refine ⟨fun _ _ _ _ => rfl, fun _ _ _ => rfl, fun p zs z acc n => ?sum, fun _ _ _ => rfl,
    fun p unit snr g zs n => ?apply, fun n => ⟨?f64, ?f32⟩⟩
  case sum =>
    rw [sumPower_append]
    rfl
  case apply =>
    cases unit with
    | true => rfl
    | false => rfl
  case f64 =>
    exact ⟨noiseStd_run (d := Fp.ofBits .f64 0x4034000000000000) (var := Fp.ofBits .f64 0x3FA999999999999A)
        (by decide +kernel) (by decide +kernel) (by decide +kernel) n,
      fmul_run (by decide +kernel) n, fmul_run (by decide +kernel) n,
      writtenAdd_run (by decide +kernel) (by decide +kernel) n⟩
  case f32 =>
    exact ⟨noiseStd_run (d := Fp.ofBits .f32 0x41A00000) (var := Fp.ofBits .f32 0x3D4CCCCD)
        (by decide +kernel) (by decide +kernel) (by decide +kernel) n,
      fmul_run (by decide +kernel) n, fmul_run (by decide +kernel) n,
      writtenAdd_run (by decide +kernel) (by decide +kernel) n⟩

end Sys2Proof.Machine
end

section
/-! PROOFS of O7 and O8: the engine's turn always answers a next state, in which nothing is pending and the inbox is as
it was. -/

namespace Sys2Proof.Machine

theorem State.engineTurn_idle {s : State} (hp : s.pending = none) : s.engineTurn = .next s := by
  rw [State.engineTurn, hp]

/-- The engine's turn never faults and is never refused (60_exceptions.md R249). -/
theorem State.engineTurn_next (s : State) : ∃ t, s.engineTurn = .next t := by
  unfold State.engineTurn
  split
  · exact ⟨s, rfl⟩
  · split
    · exact ⟨_, rfl⟩
    · exact exec_next _ s

/-- After the engine's turn nothing is pending: a command is performed to its completion (R240). -/
theorem State.engineTurn_pending {s t : State} (h : s.engineTurn = .next t) : t.pending = none := by
  cases State.engineTurn_completes h with
  | idle hp => exact hp
  | failed => rfl
  | ended => rfl

/-- The engine's turn leaves what the outside does next alone. -/
theorem State.engineTurn_inbox {s t : State} (h : s.engineTurn = .next t) : t.inbox = s.inbox := by
  cases State.engineTurn_completes h with
  | idle => rfl
  | failed => rfl
  | ended _ _ u hu =>
    obtain ⟨q, i, -, -, hu⟩ := hu
    cases hu <;> rfl

theorem State.status_busy_of_idle {s : State} (hp : s.pending = none) : s.status.getLsbD 0 = false := by
  rw [s.status_fields.1, State.busy, hp, Option.isSome_none]

theorem State.writeCmd_pending_of_idle {s : State} (hp : s.pending = none) (c : Word) :
    (s.writeCmd c).pending = some (s.latch c) := by
  rcases s.writeCmd_cases c with ⟨hbusy, -⟩ | ⟨-, e⟩
  · exact absurd hp hbusy
  · rw [e]

/-- Settles O7: the step is the engine's turn, which answers a state with nothing pending; BUSY and the acceptance of a
CMD write follow from that alone. -/
theorem everyIssuedCommandCompletes : Obligations.EveryIssuedCommandCompletes := by
  unfold Obligations.EveryIssuedCommandCompletes
  intro s q rest hn _
  obtain ⟨t, ht⟩ := State.engineTurn_next { s with inbox := rest }
  have hidle : t.pending = none := State.engineTurn_pending ht
  exact ⟨t, (step_of_engineNext hn).trans ht, hidle, State.status_busy_of_idle hidle, State.engineTurn_inbox ht,
    State.writeCmd_pending_of_idle hidle⟩

/-- Settles O8: the step is the engine's turn, and that is idle. -/
theorem idleEngineKeepsAllState : Obligations.IdleEngineKeepsAllState := by
  unfold Obligations.IdleEngineKeepsAllState
  intro s rest hn hp
  exact (step_of_engineNext hn).trans (State.engineTurn_idle (s := { s with inbox := rest }) hp)

end Sys2Proof.Machine
end

section
/-! PROOF of O13. One rule for each shared operation says that it commutes with a change of the host's registers; then
one lemma for each command, a chain of its checks and its end. -/

namespace Sys2Proof.Machine

/-! ### Results up to the host's registers -/

/-- The result with the registers of `State.withHostRegs` taken from `u` in the state it hands on. -/
def Result.withHostRegs (u : State) : Result → Result
  | .done t => .done (t.withHostRegs u)
  | .raise e w => .raise e w

/-- `r'` is what `r` comes to when the host's registers are those of `u`. -/
def Result.Follows (u : State) (r' r : Result) : Prop := r' = r.withHostRegs u

section
variable {u s : State}

theorem State.rings_withHostRegs : (s.withHostRegs u).rings = s.rings := rfl

theorem State.prec_withHostRegs : (s.withHostRegs u).prec = s.prec := rfl

theorem State.loadCs_withHostRegs (a n : Nat) : (s.withHostRegs u).loadCs a n = s.loadCs a n := rfl

theorem State.drawing_withHostRegs_fst {α : Type} (c : Draw α) :
    ((s.withHostRegs u).drawing c).1 = (s.drawing c).1 := rfl

/-- The same check may stand before both. -/
theorem Result.Follows.guard {c : Prop} [Decidable c] {e : StatusCode} {w : Word} {k' k : Result}
    (hk : k'.Follows u k) : Result.Follows u (if c then .raise e w else k') (if c then .raise e w else k) := by
  split
  · rfl
  · exact hk

theorem State.withRing_follows {q : Pending} {r : Fin 16} {k' k : Ring → Result} (hk : ∀ g, (k' g).Follows u (k g)) :
    ((s.withHostRegs u).withRing q r k').Follows u (s.withRing q r k) := by
  rw [State.withRing, State.withRing, State.rings_withHostRegs]
  cases s.rings[r.val]? with
  | none => rfl
  | some g => exact hk g

theorem State.withValidRing_follows {q : Pending} {r : Fin 16} {k' k : Ring → Result}
    (hk : ∀ g, (k' g).Follows u (k g)) :
    ((s.withHostRegs u).withValidRing q r k').Follows u (s.withValidRing q r k) :=
  State.withRing_follows fun g => by
    cases g.valid with
    | false => rfl
    | true => exact hk g

/-- RING_PUSHN's stores neither read nor write the host's registers. -/
theorem State.writeSlots_withHostRegs (old : State) (g : Ring) (src : Nat) (ks : List Nat) (s : State) :
    (old.withHostRegs u).writeSlots g src ks (s.withHostRegs u) = (old.writeSlots g src ks s).withHostRegs u := by
  induction ks generalizing s with
  | nil => rfl
  | cons k ks ih => exact ih (s.storeBytes (old.slotAddr g k) (old.loadBytes (src + old.elemBytes g.kind * k) _))

/-- Completion, and being idle, neither read nor write the host's registers (60_exceptions.md R240). -/
theorem State.perform_withHostRegs {body' body : Pending → Result} (hb : ∀ q, (body' q).Follows u (body q)) :
    (s.withHostRegs u).perform body' = mapNext (fun t => t.withHostRegs u) (s.perform body) := by
  cases hp : s.pending with
  | none =>
    rw [State.perform_idle hp, State.perform_idle (s := s.withHostRegs u) hp]
    rfl
  | some q =>
    rw [State.perform_pending hp, State.perform_pending (s := s.withHostRegs u) hp, hb q]
    cases body q <;> rfl

end

/-! ### Each command -/

section
variable (u s : State) (q : Pending)

theorem ringNewResult_follows (r : Fin 16) (kind : RingKind) :
    (ringNewResult (s.withHostRegs u) r kind q).Follows u (ringNewResult s r kind q) :=
  State.withRing_follows fun _ => .guard <| .guard <| .guard rfl

theorem ringSizeResult_follows (r : Fin 16) :
    (ringSizeResult (s.withHostRegs u) r q).Follows u (ringSizeResult s r q) :=
  State.withValidRing_follows fun _ => rfl

theorem ringAtResult_follows (r : Fin 16) :
    (ringAtResult (s.withHostRegs u) r q).Follows u (ringAtResult s r q) :=
  State.withValidRing_follows fun _ => .guard <| .guard <| .guard rfl

theorem ringPush1Result_follows (r : Fin 16) :
    (ringPush1Result (s.withHostRegs u) r q).Follows u (ringPush1Result s r q) :=
  State.withValidRing_follows fun _ => .guard <| .guard rfl

theorem ringPushNResult_follows (r : Fin 16) :
    (ringPushNResult (s.withHostRegs u) r q).Follows u (ringPushNResult s r q) :=
  State.withValidRing_follows fun _ => .guard <| .guard <| by
    rw [State.writeSlots_withHostRegs]
    rfl

theorem ringReadResult_follows (r : Fin 16) :
    (ringReadResult (s.withHostRegs u) r q).Follows u (ringReadResult s r q) :=
  State.withValidRing_follows fun _ => .guard <| .guard rfl

theorem transformResult_follows (inverse : Bool) :
    (transformResult (s.withHostRegs u) inverse q).Follows u (transformResult s inverse q) :=
  .guard <| .guard <| .guard rfl

theorem ofdmTxResult_follows : (ofdmTxResult (s.withHostRegs u) q).Follows u (ofdmTxResult s q) :=
  .guard <| .guard <| .guard <| .guard <| .guard <| .guard rfl

theorem ofdmRxResult_follows : (ofdmRxResult (s.withHostRegs u) q).Follows u (ofdmRxResult s q) :=
  .guard <| .guard <| .guard <| .guard <| .guard rfl

theorem qamEncResult_follows : (qamEncResult (s.withHostRegs u) q).Follows u (qamEncResult s q) :=
  .guard <| .guard <| .guard rfl

theorem qamDecHardResult_follows : (qamDecHardResult (s.withHostRegs u) q).Follows u (qamDecHardResult s q) :=
  .guard <| .guard <| .guard <| by
    dsimp only
    rw [State.prec_withHostRegs, State.loadCs_withHostRegs, State.drawing_withHostRegs_fst]
    split <;> rfl

theorem qamDecSoftResult_follows : (qamDecSoftResult (s.withHostRegs u) q).Follows u (qamDecSoftResult s q) :=
  .guard <| .guard <| .guard rfl

theorem qamLlrResult_follows : (qamLlrResult (s.withHostRegs u) q).Follows u (qamLlrResult s q) :=
  .guard <| .guard <| .guard <| .guard rfl

theorem awgnInitResult_follows (seedGiven : Bool) :
    (awgnInitResult (s.withHostRegs u) seedGiven q).Follows u (awgnInitResult s seedGiven q) :=
  rfl

theorem awgnSnrResult_follows : (awgnSnrResult (s.withHostRegs u) q).Follows u (awgnSnrResult s q) :=
  .guard rfl

theorem awgnApplyResult_follows (unit : Bool) :
    (awgnApplyResult (s.withHostRegs u) unit q).Follows u (awgnApplyResult s unit q) :=
  .guard <| .guard <| .guard <| .guard <| .guard <| .guard <| by
    split <;> rfl

end

/-- No command reads or writes the registers the host may write while BUSY (70_reset_and_hazards.md R266). -/
theorem exec_withHostRegs (i : Instr) (s u : State) :
    exec i (s.withHostRegs u) = mapNext (fun t => t.withHostRegs u) (exec i s) := by
  cases i with
  | ringNew r kind => exact State.perform_withHostRegs fun q => ringNewResult_follows u s q r kind
  | ringSize r => exact State.perform_withHostRegs fun q => ringSizeResult_follows u s q r
  | ringAt r => exact State.perform_withHostRegs fun q => ringAtResult_follows u s q r
  | ringPush1 r => exact State.perform_withHostRegs fun q => ringPush1Result_follows u s q r
  | ringPushN r => exact State.perform_withHostRegs fun q => ringPushNResult_follows u s q r
  | ringRead r => exact State.perform_withHostRegs fun q => ringReadResult_follows u s q r
  | fft => exact State.perform_withHostRegs fun q => transformResult_follows u s q false
  | ifft => exact State.perform_withHostRegs fun q => transformResult_follows u s q true
  | ofdmTx => exact State.perform_withHostRegs (ofdmTxResult_follows u s)
  | ofdmRx => exact State.perform_withHostRegs (ofdmRxResult_follows u s)
  | qamEnc => exact State.perform_withHostRegs (qamEncResult_follows u s)
  | qamDecHard => exact State.perform_withHostRegs (qamDecHardResult_follows u s)
  | qamDecSoft => exact State.perform_withHostRegs (qamDecSoftResult_follows u s)
  | qamLlr => exact State.perform_withHostRegs (qamLlrResult_follows u s)
  | awgnInit seedGiven => exact State.perform_withHostRegs fun q => awgnInitResult_follows u s q seedGiven
  | awgnSnr => exact State.perform_withHostRegs (awgnSnrResult_follows u s)
  | awgnApply unitPower => exact State.perform_withHostRegs fun q => awgnApplyResult_follows u s q unitPower

/-- Settles O13: a command commutes with a change of these registers, and of the writes of a register only those of
STATUS and CMD reach another field. -/
theorem pendingCommandIgnoresLaterRegisterWrites : Obligations.PendingCommandIgnoresLaterRegisterWrites := by
  unfold Obligations.PendingCommandIgnoresLaterRegisterWrites
  refine ⟨exec_withHostRegs, fun s addr off data rest hev hoff hmem => ?_⟩
  have hreg : ∀ off ∈ [0x18, 0x1C, 0x20, 0x24, 0x28, 0x2C, 0x30], off % 4 = 0 ∧ off ≠ 0x08 ∧ off ≠ 0x14 := by decide
  obtain ⟨hal, hstatus, hcmd⟩ := hreg off hmem
  rcases State.writeReg_cases { s with inbox := rest } off (data.setWidth 32) with ⟨h, -⟩ | ⟨h, -⟩ | ⟨u, -, hu⟩
  · exact absurd h hstatus
  · exact absurd h hcmd
  · exact ⟨_, u, step_writeReg hoff hev hal, hu⟩

end Sys2Proof.Machine
end

section
/-! Reset: PROOFS of O14, O15 and O59. -/

namespace Sys2Proof.Machine

/-- NUM_RINGS fits its field of CFG (10_state.md R21). -/
theorem State.cfg_of_valid {s : State} (hv : s.build.Valid) :
    s.cfg = BitVec.ofNat 32 ((if s.build.precision = .f64 then 1 else 0) + 256 * s.build.numRings) := by
  obtain ⟨-, ⟨-, hr⟩, -⟩ := hv
  rw [State.cfg, Nat.mod_eq_of_lt (by omega : s.build.numRings < 2 ^ 8)]
  rfl

theorem Fp.ofBits_zero (p : Precision) : Fp.ofBits p 0 = .fin false 0 := by
  cases p <;> rfl

/-- A reset keeps the build, and leaves CODE = OK, INFO = 0 and no command pending (70_reset_and_hazards.md R260). -/
theorem State.resetOf_inv {b : Build} (hv : b.Valid) (n : Nat) : (State.resetOf b n).Inv :=
  (State.inv_iff _).2 ⟨hv, .resetOf b n, fun _ => rfl, nofun⟩

theorem vectorBuild_valid (p : Precision) : (vectorBuild p).Valid := by
  cases p <;> decide

/-- Settles O14: CFG has room for NUM_RINGS, the ring file is NUM_RINGS copies of one descriptor, and the encoding 0 is
+0; the other values are those `State.resetOf` lists. -/
theorem resetValues : Obligations.ResetValues := by
  unfold Obligations.ResetValues
  intro b n hv
  have hcfg : (State.resetOf b n).cfg = _ := State.cfg_of_valid hv
  have hrings : (State.resetOf b n).rings.length = b.numRings := List.length_replicate
  exact ⟨hcfg, rfl, rfl, rfl, rfl, rfl, rfl, rfl, rfl, rfl, rfl, rfl, rfl, rfl, rfl, rfl, rfl, rfl, hrings,
    fun _ hg => List.eq_of_mem_replicate hg, rfl, Fp.ofBits_zero b.precision, rfl⟩

/-- Settles O15: the step is `State.hostReset`, which reads of the state before it the build, the reset number and the
data of the outside only, and lists no byte of LMEM as written. -/
theorem resetAbandonsThePendingCommand : Obligations.ResetAbandonsThePendingCommand := by
  unfold Obligations.ResetAbandonsThePendingCommand
  intro s rest hev
  have hstep : step s = .next ({ s with inbox := rest }).hostReset := by rw [step, hev]
  exact ⟨_, hstep, rfl, fun _ => rfl, rfl⟩

/-- Settles O59: the invariant at the reset of any valid build, of which State.reset's is one. -/
theorem resetMeetsTheInvariant : Obligations.ResetMeetsTheInvariant :=
  ⟨fun _ n hv => State.resetOf_inv hv n, rfl, State.resetOf_inv (vectorBuild_valid .f64) 0⟩

end Sys2Proof.Machine
end

section
/-! PROOF of O44. A NaN is a sign and a fraction that is not 0 over infinity's exponent field; the value that selects it
holds the sign in its top bit and the fraction in its low bits. -/

namespace Sys2Proof.Machine

/-- A magnitude with a NaN's encoding is infinity's and a fraction that is not 0 (IEEE 754, log entry 19). -/
theorem exists_fraction_of_ofBits_nan {p : Precision} {neg : Bool} {m : Nat} (hm : m < p.signWeight) {e : Enc}
    (h : Fp.ofBits p (signedBits p neg m) = .nan e) : ∃ f, 0 < f ∧ f < 2 ^ p.fracBits ∧ m = p.infMag + f := by
  rw [ofBits_signedBits p neg hm] at h
  split at h
  · cases h
  · split at h
    · cases h
    · rw [signWeight_eq_infMag_add] at hm
      exact ⟨m - p.infMag, by omega, by omega, by omega⟩

/-- The value with a given sign on top and a given fraction below selects the NaN of that sign and fraction. -/
theorem nanPattern_cons (p : Precision) (neg : Bool) {f : Nat} (h0 : 0 < f) (hf : f < 2 ^ p.fracBits) :
    nanPattern p (BitVec.cons neg (BitVec.ofNat 63 f)) = BitVec.ofNat 64 (signedBits p neg (p.infMag + f)) := by
  have hle : p.fracBits ≤ 63 := by cases p <;> decide
  obtain ⟨k, hk⟩ := pow_dvd_pow 2 hle
  have hfrac : (BitVec.cons neg (BitVec.ofNat 63 f)).toNat % 2 ^ p.fracBits = f := by
    rw [BitVec.toNat_cons', BitVec.toNat_ofNat, Nat.mod_eq_of_lt (hf.trans_le (Nat.pow_le_pow_right two_pos hle)),
      Nat.shiftLeft_eq, hk, Nat.mul_left_comm, Nat.mul_add_mod, Nat.mod_eq_of_lt hf]
  rw [nanPattern, hfrac, BitVec.msb_cons, if_neg h0.ne', signedBits, signedBits, Nat.add_assoc]

/-- Settles O44: what is selected is a NaN's encoding, and the sign and the fraction of any such encoding make a value
that selects it. -/
theorem nanDrawsRangeOverAllNans : Obligations.NanDrawsRangeOverAllNans := by
  unfold Obligations.NanDrawsRangeOverAllNans
  refine fun p => ⟨fun d => ⟨_, Fp.canonical_nanPattern p d, rfl⟩, fun e he hnan => ?_⟩
  obtain ⟨neg, m, hm, hem⟩ := exists_signedBits p he
  rw [hem] at hnan
  obtain ⟨f, h0, hf, rfl⟩ := exists_fraction_of_ofBits_nan hm hnan
  have hsel := nanPattern_cons p neg h0 hf
  rw [← hem, BitVec.ofNat_toNat, BitVec.setWidth_eq] at hsel
  exact ⟨_, hsel⟩

end Sys2Proof.Machine
end
